-- ==== Sys2Proof/Word.lean ====
section
/-! DEFINITION. The value types of the CHIP-8 core (00_scope.md R9: every value is unsigned). -/

namespace Sys2Proof

/-- `u8`: a general register, a timer, a byte of memory, the immediate kk (R9, R21). -/
abbrev Byte := BitVec 8

/-- `u16`: an instruction word, the program counter, the index register, a stack entry (R9, R23, R24). -/
abbrev Word := BitVec 16

/-- `u64`: the state of the random-byte generator (R9, R30). -/
abbrev RngWord := BitVec 64

/-- The number of a general register, 0x0 to 0xF (R21, R74). -/
abbrev Reg := Fin 16

end Sys2Proof
end

