-- ==== Sys2Proof/Syntax.lean ====
section
/-! DEFINITION. The instructions: one constructor for each row of spec/opcode_table.json (30_encoding.md R82, R83). -/

namespace Sys2Proof

/-- An instruction of the CHIP-8 core. Register operands are register numbers, immediates are the bits of their fields (R71,
R73, R74). An argument named `ign` is the field of bits that the decoder ignores in that format (`-` in R72): it selects
nothing and no meaning reads it; it is kept so that an instruction determines its word (DESIGN CHOICE, log 7). -/
inductive Instr where
  /-- `00E0` CLS: clear the screen (R183); bits 11:4 ignored (R76). -/
  | cls (ign : BitVec 8)
  /-- `00EE` RET: return from subroutine (R111); bits 11:4 ignored (R76). -/
  | ret (ign : BitVec 8)
  /-- `1nnn` JP nnn: jump (R112). -/
  | jp (nnn : BitVec 12)
  /-- `2nnn` CALL nnn: call subroutine (R113). -/
  | call (nnn : BitVec 12)
  /-- `3xkk` SE Vx, kk: skip if equal to an immediate (R114). -/
  | seK (x : Reg) (kk : Byte)
  /-- `4xkk` SNE Vx, kk: skip if not equal to an immediate (R115). -/
  | sneK (x : Reg) (kk : Byte)
  /-- `5xy0` SE Vx, Vy: skip if registers are equal (R116); bits 3:0 ignored (R80). -/
  | seR (x y : Reg) (ign : BitVec 4)
  /-- `6xkk` LD Vx, kk: load immediate (R133). -/
  | ldK (x : Reg) (kk : Byte)
  /-- `7xkk` ADD Vx, kk: add immediate, no flag (R134). -/
  | addK (x : Reg) (kk : Byte)
  /-- `8xy0` LD Vx, Vy: copy register (R135). -/
  | ldR (x y : Reg)
  /-- `8xy1` OR Vx, Vy (R136). -/
  | orR (x y : Reg)
  /-- `8xy2` AND Vx, Vy (R137). -/
  | andR (x y : Reg)
  /-- `8xy3` XOR Vx, Vy (R138). -/
  | xorR (x y : Reg)
  /-- `8xy4` ADD Vx, Vy: add with carry (R139). -/
  | addR (x y : Reg)
  /-- `8xy5` SUB Vx, Vy: subtract, VF = no borrow (R140). -/
  | sub (x y : Reg)
  /-- `8xy6` SHR Vx {, Vy}: shift right by one (R141); y is read only when SHIFT_SOURCE = vy. -/
  | shr (x y : Reg)
  /-- `8xy7` SUBN Vx, Vy: reverse subtract, VF = no borrow (R142). -/
  | subn (x y : Reg)
  /-- `8xyE` SHL Vx {, Vy}: shift left by one (R143); y is read only when SHIFT_SOURCE = vy. -/
  | shl (x y : Reg)
  /-- `9xy0` SNE Vx, Vy: skip if registers differ (R117); bits 3:0 ignored (R80). -/
  | sneR (x y : Reg) (ign : BitVec 4)
  /-- `Annn` LD I, nnn: load the index register (R160). -/
  | ldI (nnn : BitVec 12)
  /-- `Bnnn` JP V0, nnn: jump to nnn plus V0 (R118). -/
  | jpV0 (nnn : BitVec 12)
  /-- `Cxkk` RND Vx, kk: random byte AND mask (R144). -/
  | rnd (x : Reg) (kk : Byte)
  /-- `Dxyn` DRW Vx, Vy, n: draw an n-row sprite (R184). -/
  | drw (x y : Reg) (n : Fin 16)
  /-- `Ex9E` SKP Vx: skip if the key is down (R200); bits 7:4 ignored (R78). -/
  | skp (x : Reg) (ign : BitVec 4)
  /-- `ExA1` SKNP Vx: skip if the key is up (R201); bits 7:4 ignored (R78). -/
  | sknp (x : Reg) (ign : BitVec 4)
  /-- `Fx07` LD Vx, DT: read the delay timer (R202). -/
  | ldVDt (x : Reg)
  /-- `Fx0A` LD Vx, K: wait for a key (R203). -/
  | ldVK (x : Reg)
  /-- `Fx15` LD DT, Vx: set the delay timer (R204). -/
  | ldDtV (x : Reg)
  /-- `Fx18` LD ST, Vx: set the sound timer (R205). -/
  | ldStV (x : Reg)
  /-- `Fx1E` ADD I, Vx (R161). -/
  | addI (x : Reg)
  /-- `Fx29` LD F, Vx: point I at a font glyph (R162). -/
  | ldF (x : Reg)
  /-- `Fx33` LD B, Vx: store the BCD digits (R163). -/
  | ldB (x : Reg)
  /-- `Fx55` LD [I], Vx: store V0..Vx (R164). -/
  | stRegs (x : Reg)
  /-- `Fx65` LD Vx, [I]: load V0..Vx (R165). -/
  | ldRegs (x : Reg)
  /-- NOP, the default handler, with the word that selected it (R81, R85, R98). -/
  | nop (w : Word)
deriving DecidableEq, Repr

end Sys2Proof
end

