-- ==== Sys2Proof/Decode.lean ====
section
/-! DEFINITION. The instruction words: fields (30_encoding.md R71), the decoder (R75 to R81, R84), the encoder (R72, R83) and
the opcode map of R83 as a table of masks and patterns. -/

namespace Sys2Proof

/-! ## Fields (R71) -/

/-- `op[15:12]`, the family. -/
def family (w : Word) : BitVec 4 := w.extractLsb' 12 4

/-- `x = op[11:8]`, the first register number. -/
def fieldX (w : Word) : Reg := (w.extractLsb' 8 4).toFin

/-- `y = op[7:4]`, the second register number. -/
def fieldY (w : Word) : Reg := (w.extractLsb' 4 4).toFin

/-- `n = op[3:0]` as a row count. -/
def fieldN (w : Word) : Fin 16 := (w.extractLsb' 0 4).toFin

/-- `op[3:0]`, the sub-opcode of families 0x0, 0x8 and 0xE. -/
def lowNibble (w : Word) : BitVec 4 := w.extractLsb' 0 4

/-- `op[7:4]` as bits: ignored by families 0xE. -/
def midNibble (w : Word) : BitVec 4 := w.extractLsb' 4 4

/-- `op[11:4]`: ignored by family 0x0. -/
def midByte (w : Word) : BitVec 8 := w.extractLsb' 4 8

/-- `kk = op[7:0]`, the immediate; the sub-opcode of family 0xF. -/
def fieldKk (w : Word) : Byte := w.extractLsb' 0 8

/-- `nnn = op[11:0]`, the address. -/
def fieldNnn (w : Word) : BitVec 12 := w.extractLsb' 0 12

/-! ## Decoding (R75, R84) -/

/-- Family 0x0, keyed by the lowest nibble (R76). -/
def decodeFamily0 (w : Word) : Instr :=
  match (lowNibble w).toNat with
  | 0x0 => .cls (midByte w)
  | 0xE => .ret (midByte w)
  | _ => .nop w

/-- Family 0x8, keyed by the lowest nibble (R77). -/
def decodeFamily8 (w : Word) : Instr :=
  match (lowNibble w).toNat with
  | 0x0 => .ldR (fieldX w) (fieldY w)
  | 0x1 => .orR (fieldX w) (fieldY w)
  | 0x2 => .andR (fieldX w) (fieldY w)
  | 0x3 => .xorR (fieldX w) (fieldY w)
  | 0x4 => .addR (fieldX w) (fieldY w)
  | 0x5 => .sub (fieldX w) (fieldY w)
  | 0x6 => .shr (fieldX w) (fieldY w)
  | 0x7 => .subn (fieldX w) (fieldY w)
  | 0xE => .shl (fieldX w) (fieldY w)
  | _ => .nop w

/-- Family 0xE, keyed by the lowest nibble (R78). -/
def decodeFamilyE (w : Word) : Instr :=
  match (lowNibble w).toNat with
  | 0x1 => .sknp (fieldX w) (midNibble w)
  | 0xE => .skp (fieldX w) (midNibble w)
  | _ => .nop w

/-- Family 0xF, keyed by the low byte (R79); low bytes above 0x65 have no entry and are NOP (D23, C7). -/
def decodeFamilyF (w : Word) : Instr :=
  match (fieldKk w).toNat with
  | 0x07 => .ldVDt (fieldX w)
  | 0x0A => .ldVK (fieldX w)
  | 0x15 => .ldDtV (fieldX w)
  | 0x18 => .ldStV (fieldX w)
  | 0x1E => .addI (fieldX w)
  | 0x29 => .ldF (fieldX w)
  | 0x33 => .ldB (fieldX w)
  | 0x55 => .stRegs (fieldX w)
  | 0x65 => .ldRegs (fieldX w)
  | _ => .nop w

/-- `Decode(op)` of R84: the handler of every 16-bit word. No word is illegal (R81). The last arm stands for no 4-bit value. -/
def decode (w : Word) : Instr :=
  match (family w).toNat with
  | 0x0 => decodeFamily0 w
  | 0x1 => .jp (fieldNnn w)
  | 0x2 => .call (fieldNnn w)
  | 0x3 => .seK (fieldX w) (fieldKk w)
  | 0x4 => .sneK (fieldX w) (fieldKk w)
  | 0x5 => .seR (fieldX w) (fieldY w) (lowNibble w)
  | 0x6 => .ldK (fieldX w) (fieldKk w)
  | 0x7 => .addK (fieldX w) (fieldKk w)
  | 0x8 => decodeFamily8 w
  | 0x9 => .sneR (fieldX w) (fieldY w) (lowNibble w)
  | 0xA => .ldI (fieldNnn w)
  | 0xB => .jpV0 (fieldNnn w)
  | 0xC => .rnd (fieldX w) (fieldKk w)
  | 0xD => .drw (fieldX w) (fieldY w) (fieldN w)
  | 0xE => decodeFamilyE w
  | 0xF => decodeFamilyF w
  | _ => .nop w

/-- Why a sequence of bytes holds no instruction. -/
inductive DecodeError where
  /-- Fewer than the two bytes of a word are there (R70). -/
  | truncated
deriving DecidableEq, Repr

/-- The instruction at the head of a sequence of bytes, high byte first (R55, R70, R86), and the bytes after it. -/
def decodeBytes : List Byte → Except DecodeError (Instr × List Byte)
  | hi :: lo :: rest => .ok (decode (hi ++ lo), rest)
  | _ => .error .truncated

/-! ## Encoding (R72, R83) -/

/-- A register number as the four bits of its field (R74). -/
def regBits (r : Fin 16) : BitVec 4 := BitVec.ofFin r

/-- The word of an instruction, written from the formats of R72 and the match column of R83. NOP is written with its word
(R85). -/
def encode : Instr → Word
  | .cls ign => 0x0#4 ++ ign ++ 0x0#4
  | .ret ign => 0x0#4 ++ ign ++ 0xE#4
  | .jp nnn => 0x1#4 ++ nnn
  | .call nnn => 0x2#4 ++ nnn
  | .seK x kk => 0x3#4 ++ regBits x ++ kk
  | .sneK x kk => 0x4#4 ++ regBits x ++ kk
  | .seR x y ign => 0x5#4 ++ regBits x ++ regBits y ++ ign
  | .ldK x kk => 0x6#4 ++ regBits x ++ kk
  | .addK x kk => 0x7#4 ++ regBits x ++ kk
  | .ldR x y => 0x8#4 ++ regBits x ++ regBits y ++ 0x0#4
  | .orR x y => 0x8#4 ++ regBits x ++ regBits y ++ 0x1#4
  | .andR x y => 0x8#4 ++ regBits x ++ regBits y ++ 0x2#4
  | .xorR x y => 0x8#4 ++ regBits x ++ regBits y ++ 0x3#4
  | .addR x y => 0x8#4 ++ regBits x ++ regBits y ++ 0x4#4
  | .sub x y => 0x8#4 ++ regBits x ++ regBits y ++ 0x5#4
  | .shr x y => 0x8#4 ++ regBits x ++ regBits y ++ 0x6#4
  | .subn x y => 0x8#4 ++ regBits x ++ regBits y ++ 0x7#4
  | .shl x y => 0x8#4 ++ regBits x ++ regBits y ++ 0xE#4
  | .sneR x y ign => 0x9#4 ++ regBits x ++ regBits y ++ ign
  | .ldI nnn => 0xA#4 ++ nnn
  | .jpV0 nnn => 0xB#4 ++ nnn
  | .rnd x kk => 0xC#4 ++ regBits x ++ kk
  | .drw x y n => 0xD#4 ++ regBits x ++ regBits y ++ regBits n
  | .skp x ign => 0xE#4 ++ regBits x ++ ign ++ 0xE#4
  | .sknp x ign => 0xE#4 ++ regBits x ++ ign ++ 0x1#4
  | .ldVDt x => 0xF#4 ++ regBits x ++ 0x07#8
  | .ldVK x => 0xF#4 ++ regBits x ++ 0x0A#8
  | .ldDtV x => 0xF#4 ++ regBits x ++ 0x15#8
  | .ldStV x => 0xF#4 ++ regBits x ++ 0x18#8
  | .addI x => 0xF#4 ++ regBits x ++ 0x1E#8
  | .ldF x => 0xF#4 ++ regBits x ++ 0x29#8
  | .ldB x => 0xF#4 ++ regBits x ++ 0x33#8
  | .stRegs x => 0xF#4 ++ regBits x ++ 0x55#8
  | .ldRegs x => 0xF#4 ++ regBits x ++ 0x65#8
  | .nop w => w

/-- The high byte of a word, at the lower address in memory (R55, R86). -/
def highByte (w : Word) : Byte := w.extractLsb' 8 8

/-- The low byte of a word. -/
def lowByte (w : Word) : Byte := w.extractLsb' 0 8

/-- An instruction's two bytes in memory order (R55, R86). -/
def encodeBytes (i : Instr) : List Byte := [highByte (encode i), lowByte (encode i)]

/-! ## The opcode map (R83) -/

/-- A row of the opcode map: a word selects it when `op & mask = pattern` (R83). -/
structure OpcodeRow where
  /-- The row's mnemonic, as spec/opcode_table.json spells it. -/
  mnemonic : String
  /-- The column `match` of R83. -/
  pattern : Word
  /-- The column `mask` of R83. -/
  mask : Word
deriving DecidableEq, Repr

/-- Rows 1 to 9 and 19 to 23 of R83: the families that one nibble selects, and family 0x0. -/
def opcodeRowsByNibble : List OpcodeRow := [
  ⟨"CLS", 0x0000, 0xF00F⟩,
  ⟨"RET", 0x000E, 0xF00F⟩,
  ⟨"JP_nnn", 0x1000, 0xF000⟩,
  ⟨"CALL_nnn", 0x2000, 0xF000⟩,
  ⟨"SE_Vx__kk", 0x3000, 0xF000⟩,
  ⟨"SNE_Vx__kk", 0x4000, 0xF000⟩,
  ⟨"SE_Vx__Vy", 0x5000, 0xF000⟩,
  ⟨"LD_Vx__kk", 0x6000, 0xF000⟩,
  ⟨"ADD_Vx__kk", 0x7000, 0xF000⟩,
  ⟨"SNE_Vx__Vy", 0x9000, 0xF000⟩,
  ⟨"LD_I__nnn", 0xA000, 0xF000⟩,
  ⟨"JP_V0__nnn", 0xB000, 0xF000⟩,
  ⟨"RND_Vx__kk", 0xC000, 0xF000⟩,
  ⟨"DRW_Vx__Vy__n", 0xD000, 0xF000⟩]

/-- Rows 10 to 18 of R83: family 0x8. -/
def opcodeRowsFamily8 : List OpcodeRow := [
  ⟨"LD_Vx__Vy", 0x8000, 0xF00F⟩,
  ⟨"OR_Vx__Vy", 0x8001, 0xF00F⟩,
  ⟨"AND_Vx__Vy", 0x8002, 0xF00F⟩,
  ⟨"XOR_Vx__Vy", 0x8003, 0xF00F⟩,
  ⟨"ADD_Vx__Vy", 0x8004, 0xF00F⟩,
  ⟨"SUB_Vx__Vy", 0x8005, 0xF00F⟩,
  ⟨"SHR_Vx____Vy", 0x8006, 0xF00F⟩,
  ⟨"SUBN_Vx__Vy", 0x8007, 0xF00F⟩,
  ⟨"SHL_Vx____Vy", 0x800E, 0xF00F⟩]

/-- Rows 24 to 34 of R83: families 0xE and 0xF. -/
def opcodeRowsFamilyEF : List OpcodeRow := [
  ⟨"SKP_Vx", 0xE00E, 0xF00F⟩,
  ⟨"SKNP_Vx", 0xE001, 0xF00F⟩,
  ⟨"LD_Vx__DT", 0xF007, 0xF0FF⟩,
  ⟨"LD_Vx__K", 0xF00A, 0xF0FF⟩,
  ⟨"LD_DT__Vx", 0xF015, 0xF0FF⟩,
  ⟨"LD_ST__Vx", 0xF018, 0xF0FF⟩,
  ⟨"ADD_I__Vx", 0xF01E, 0xF0FF⟩,
  ⟨"LD_F__Vx", 0xF029, 0xF0FF⟩,
  ⟨"LD_B__Vx", 0xF033, 0xF0FF⟩,
  ⟨"LD__I___Vx", 0xF055, 0xF0FF⟩,
  ⟨"LD_Vx___I", 0xF065, 0xF0FF⟩]

/-- The 34 rows of R83; a word that matches none is NOP, the 35th. -/
def opcodeMap : List OpcodeRow := opcodeRowsByNibble ++ opcodeRowsFamily8 ++ opcodeRowsFamilyEF

/-- `(op & mask) == match` of R83. -/
def OpcodeRow.matches (row : OpcodeRow) (w : Word) : Bool := w &&& row.mask == row.pattern

/-- Whether some row of the opcode map takes the word (R83); an unpopulated word is NOP (R81). -/
def populated (w : Word) : Bool := opcodeMap.any (fun row => row.matches w)

/-- The mnemonic of an instruction's row in spec/opcode_table.json. -/
def Instr.mnemonic : Instr → String
  | .cls _ => "CLS"
  | .ret _ => "RET"
  | .jp _ => "JP_nnn"
  | .call _ => "CALL_nnn"
  | .seK _ _ => "SE_Vx__kk"
  | .sneK _ _ => "SNE_Vx__kk"
  | .seR _ _ _ => "SE_Vx__Vy"
  | .ldK _ _ => "LD_Vx__kk"
  | .addK _ _ => "ADD_Vx__kk"
  | .ldR _ _ => "LD_Vx__Vy"
  | .orR _ _ => "OR_Vx__Vy"
  | .andR _ _ => "AND_Vx__Vy"
  | .xorR _ _ => "XOR_Vx__Vy"
  | .addR _ _ => "ADD_Vx__Vy"
  | .sub _ _ => "SUB_Vx__Vy"
  | .shr _ _ => "SHR_Vx____Vy"
  | .subn _ _ => "SUBN_Vx__Vy"
  | .shl _ _ => "SHL_Vx____Vy"
  | .sneR _ _ _ => "SNE_Vx__Vy"
  | .ldI _ => "LD_I__nnn"
  | .jpV0 _ => "JP_V0__nnn"
  | .rnd _ _ => "RND_Vx__kk"
  | .drw _ _ _ => "DRW_Vx__Vy__n"
  | .skp _ _ => "SKP_Vx"
  | .sknp _ _ => "SKNP_Vx"
  | .ldVDt _ => "LD_Vx__DT"
  | .ldVK _ => "LD_Vx__K"
  | .ldDtV _ => "LD_DT__Vx"
  | .ldStV _ => "LD_ST__Vx"
  | .addI _ => "ADD_I__Vx"
  | .ldF _ => "LD_F__Vx"
  | .ldB _ => "LD_B__Vx"
  | .stRegs _ => "LD__I___Vx"
  | .ldRegs _ => "LD_Vx___I"
  | .nop _ => "NOP"

/-! ## The host's reading of a table word -/

/-- The instruction the decoder reads from a table word of `nbits` bits, bit 0 the least significant of the word: its bytes
are laid out as memory holds them, high byte first (R55), and given to `decodeBytes`. The core has one length of 16 bits
(R70), so a longer word is no instruction; the bits of a shorter one above `nbits` are 0. -/
def decodeTableWord (nbits w : Nat) : Option Instr :=
  if nbits ≤ 16 then
    let word : Word := BitVec.ofNat 16 (w % 2 ^ nbits)
    match decodeBytes [highByte word, lowByte word] with
    | .ok (i, _) => some i
    | .error _ => none
  else none

end Sys2Proof
end

