-- ==== Sys2Proof/Config.lean ====
section
/-! DEFINITION. What an implementation of the core fixes: the layout constants of 00_scope.md R6, the parameters that R6
leaves selectable, and the one free value, the multiplier of the random-byte generator. -/

namespace Sys2Proof

/-- OFFSCREEN_POLICY: what a set sprite bit outside the 64 x 32 grid does (R6, R185, D8). -/
inductive OffscreenPolicy where
  /-- It raises SPRITE_OFF_SCREEN (the spec's default). -/
  | fault
  /-- It is skipped: it toggles nothing and counts as no collision. -/
  | clip
  /-- It addresses the row-major buffer of 2048 pixels, and faults past index 2047. -/
  | flat
deriving DecidableEq, Repr

/-- VF_ALIAS_ORDER: whether SUB, SUBN, SHR and SHL read their result's operands again after the flag write (R6, R132, D11). -/
inductive VfAliasOrder where
  /-- Every operand is read once, before either write (the spec's default). -/
  | snapshot
  /-- The result's operands are read again after VF is written. -/
  | sequential
deriving DecidableEq, Repr

/-- SHIFT_SOURCE: the register SHR and SHL shift (R6, R141, R143, D13). -/
inductive ShiftSource where
  /-- `V[x]` (the spec's default). -/
  | vx
  /-- `V[y]`. -/
  | vy
deriving DecidableEq, Repr

/-- The implementation parameters with a default and other legal values (R6). They are fixed for a machine; State carries
them so that every statement over all states is a statement over all legal values (DESIGN CHOICE, log 3). -/
structure Params where
  /-- OFFSCREEN_POLICY. -/
  offscreen : OffscreenPolicy
  /-- VF_ALIAS_ORDER. -/
  aliasOrder : VfAliasOrder
  /-- SHIFT_SOURCE. -/
  shiftSource : ShiftSource
  /-- LOGIC_RESETS_VF (R136 to R138, D14). -/
  logicResetsVf : Bool
  /-- LOADSTORE_INCREMENTS_I (R164, R165, D15). -/
  loadStoreIncrementsI : Bool
  /-- FONT: the bytes of glyphs 1 to F, five a glyph, top row first; glyph 0 is fixed by the source (R180, D19). -/
  font : Vector Byte 75
deriving DecidableEq, Repr

/-- MEM_SIZE: the number of bytes of memory; legal addresses are below it (R6, R50). -/
abbrev Config.memSize : Nat := 4096

/-- FONT_BASE: where the font table begins (R6, R51). -/
abbrev Config.fontBase : Nat := 0x050

/-- ENTRY: the pc after `create` and the load address of a ROM (R6, R242, R244). -/
abbrev Config.entry : Nat := 0x200

/-- The longest ROM: MEM_SIZE - ENTRY bytes (R7, R244). -/
abbrev Config.maxRom : Nat := 3584

/-- STACK_DEPTH: the number of stack entries (R6, R25). -/
abbrev Config.stackDepth : Nat := 16

/-- FREE VALUE. The upper 63 bits of RNG_MULT, which is OPEN: "a fixed odd 64-bit constant" with no value in the source
(R6, R130, D20). No body, so nothing can be proved of its value (DESIGN CHOICE of the form, log 4). -/
opaque Config.rngMultHigh : BitVec 63

end Sys2Proof
end

