-- ==== Sys2Proof/Machine/Params.lean ====
section
/-! DEFINITION. The values the machine's parameters take by default (00_scope.md R6), the multiplier of the generator (R130),
and the contents of memory at reset (R33, R180). -/

namespace Sys2Proof.Machine

/-- RNG_MULT, "a fixed odd 64-bit constant" (R130): the free upper bits above a bit 0 of 1 (log 4). -/
def rngMult : RngWord := Config.rngMultHigh ++ 1#1

/-- Glyph 0 of the font, the one glyph the source gives (R180); no legal FONT changes it (D19). -/
def fontGlyph0 : List Byte := [0xF0, 0x90, 0x90, 0x90, 0xF0]

/-- Glyphs 1 to 3 of the default font (R180, D19; the spec's default from general knowledge, log 5). -/
def fontGlyphs13 : List Byte := [
  0x20, 0x60, 0x20, 0x20, 0x70,
  0xF0, 0x10, 0xF0, 0x80, 0xF0,
  0xF0, 0x10, 0xF0, 0x10, 0xF0]

/-- Glyphs 4 to 7 of the default font (R180, D19; log 5). -/
def fontGlyphs47 : List Byte := [
  0x90, 0x90, 0xF0, 0x10, 0x10,
  0xF0, 0x80, 0xF0, 0x10, 0xF0,
  0xF0, 0x80, 0xF0, 0x90, 0xF0,
  0xF0, 0x10, 0x20, 0x40, 0x40]

/-- Glyphs 8 to B of the default font (R180, D19; log 5). -/
def fontGlyphs8B : List Byte := [
  0xF0, 0x90, 0xF0, 0x90, 0xF0,
  0xF0, 0x90, 0xF0, 0x10, 0xF0,
  0xF0, 0x90, 0xF0, 0x90, 0x90,
  0xE0, 0x90, 0xE0, 0x90, 0xE0]

/-- Glyphs C to F of the default font (R180, D19; log 5). -/
def fontGlyphsCF : List Byte := [
  0xF0, 0x80, 0x80, 0x80, 0xF0,
  0xE0, 0x90, 0x90, 0x90, 0xE0,
  0xF0, 0x80, 0xF0, 0x80, 0xF0,
  0xF0, 0x80, 0xF0, 0x80, 0x80]

/-- FONT's default: glyphs 1 to F of the table of R180 (D19, log 5). -/
def defaultFont : Vector Byte 75 := ⟨(fontGlyphs13 ++ fontGlyphs47 ++ fontGlyphs8B ++ fontGlyphsCF).toArray, rfl⟩

/-- The defaults of R6 for the parameters that have one. -/
def defaultParams : Params where
  offscreen := .fault
  aliasOrder := .snapshot
  shiftSource := .vx
  logicResetsVf := false
  loadStoreIncrementsI := false
  font := defaultFont

/-- The 80 bytes `create` installs: glyph 0, and the machine's FONT for the others (R180, R240, D19). -/
def fontTable (p : Params) : List Byte := fontGlyph0 ++ p.font.toList

/-- What an address that memory does not list reads as: the byte `create` leaves there on a machine with the default font, the
font at 0x050 to 0x09F and 0 elsewhere (R33, R240, log 6). -/
def resetByte (a : Nat) : Byte :=
  if Config.fontBase ≤ a then (fontTable defaultParams).getD (a - Config.fontBase) 0 else 0

end Sys2Proof.Machine
end

