-- ==== Sys2Proof/Machine/State.lean ====
section
/-! DEFINITION. The machine's state (10_state.md), the state `create` leaves (R33, R240), and the reasons a step of the model
can stop. -/

namespace Sys2Proof.Machine

/-- The 4096-byte memory (20_memory.md R50): its cells that differ from `resetByte`, at rising addresses (log 6). -/
abbrev Memory := List Host.Cell

/-- The 64 x 32 frame buffer, a row of 64 pixels for each of the 32 rows; true = lit (10_state.md R28). -/
abbrev Video := Vector (Vector Bool 64) 32

/-- A pixel of the grid: column, row (R28, R181). -/
abbrev Pixel := Fin 64 × Fin 32

/-- The fault codes (60_exceptions.md R221). -/
inductive FaultCode where
  /-- Code 1, the fetch of every step: pc > 0xFFE. -/
  | fetchOutOfRange
  /-- Code 2, Dxyn, Fx33, Fx55, Fx65: an accessed address > 0xFFF. -/
  | memOutOfRange
  /-- Code 3, 2nnn: sp = 16. -/
  | stackOverflow
  /-- Code 4, 00EE: sp = 0. -/
  | stackUnderflow
  /-- Code 5, Ex9E, ExA1: V[x] > 0xF. -/
  | keyIndexOutOfRange
  /-- Code 6, Dxyn: a set sprite bit off the grid (policy fault), or past index 2047 (policy flat). -/
  | spriteOffScreen
deriving DecidableEq, Repr

/-- The fault record's contents (10_state.md R31). -/
structure FaultRecord where
  /-- One of the codes of R221. -/
  code : FaultCode
  /-- pc at the start of the faulting cycle. -/
  fpc : Word
  /-- The fetched word; none for a fetch fault. -/
  fop : Option Word
  /-- The offending address, stack pointer, key value or pixel index. -/
  info : Nat
deriving DecidableEq, Repr

/-- The machine state: the flat aggregate of 10_state.md R20, and the model's own `params` (log 3). -/
structure State where
  /-- The general registers V0 to VF; VF is the flag register (R21, R22). -/
  v : Vector Byte 16
  /-- The memory (R50). -/
  mem : Memory
  /-- The index register I (R23). -/
  index : Word
  /-- The program counter (R24). -/
  pc : Word
  /-- The return stack (R25). -/
  stack : Vector Word 16
  /-- The number of active stack entries, 0 to 16 (R25, R34). -/
  sp : Fin 17
  /-- The delay timer DT (R26). -/
  dt : Byte
  /-- The sound timer ST (R26). -/
  st : Byte
  /-- The keypad; true = down (R27). -/
  keys : Vector Bool 16
  /-- The video frame buffer (R28). -/
  vid : Video
  /-- `current_opcode`, the word last fetched (R29). -/
  op : Word
  /-- The state of the random-byte generator (R30). -/
  rngState : RngWord
  /-- The fault record (R31). -/
  fault : Option FaultRecord
  /-- The machine's parameters, fixed; no field of the spec's state (R6, log 3). -/
  params : Params
deriving DecidableEq, Repr

/-- The state `create` leaves on a machine with the default parameters (R33, R240, R241): every field zero, the font in memory, pc
at ENTRY. On a machine with another FONT it is `State.create` (HostPort.lean). -/
def State.reset : State where
  v := Vector.replicate 16 0
  mem := []
  index := 0
  pc := BitVec.ofNat 16 Config.entry
  stack := Vector.replicate 16 0
  sp := 0
  dt := 0
  st := 0
  keys := Vector.replicate 16 false
  vid := Vector.replicate 32 (Vector.replicate 64 false)
  op := 0
  rngState := 0
  fault := none
  params := defaultParams

/-- The reasons a step of the model can end without a next state. There is none: every fault of the spec is a next state with
the fault record written (R90, R97, R222), so no one raises a value of this type (safe: nothing is left out; log 1). -/
inductive Fault where
deriving DecidableEq, Repr

/-- The reasons the model can refuse an instruction. -/
inductive Refusal where
  /-- The instruction has no meaning in the model yet; raised only by an arm of `exec` (safe). No arm raises it now. -/
  | notModelled (mnemonic : String)
deriving DecidableEq, Repr

/-- The outcome of a step of this machine. -/
abbrev Outcome := Host.Outcome State Fault Refusal

end Sys2Proof.Machine
end

