-- ==== Sys2Proof/Machine/Ops.lean ====
section
/-! DEFINITION. The named operations every meaning is built from: the registers, the memory with its canonical form
(20_memory.md R53, R54, R67), the return stack, the frame buffer, the random-byte generator, and taking a fault
(60_exceptions.md R222). -/

namespace Sys2Proof.Machine

/-! ## Registers (10_state.md R20 to R26) -/

/-- `V[r]` (R10). -/
def State.reg (s : State) (r : Reg) : Byte := s.v[r]

/-- `V[r] <- b` (R10). No register is hard-wired (R21). -/
def State.setReg (s : State) (r : Reg) (b : Byte) : State := { s with v := s.v.set r b }

/-- `I <- w` (R23). -/
def State.setIndex (s : State) (w : Word) : State := { s with index := w }

/-- `pc <- w` (R24). -/
def State.setPc (s : State) (w : Word) : State := { s with pc := w }

/-- `DT <- b` (R26). -/
def State.setDt (s : State) (b : Byte) : State := { s with dt := b }

/-- `ST <- b` (R26). -/
def State.setSt (s : State) (b : Byte) : State := { s with st := b }

/-- `op <- w` (R29, R92). -/
def State.setOp (s : State) (w : Word) : State := { s with op := w }

/-- `vid <- v` (R28). -/
def State.setVid (s : State) (v : Video) : State := { s with vid := v }

/-- `mem <- m` (R50). -/
def State.setMem (s : State) (m : Memory) : State := { s with mem := m }

/-- `rng_state <- w` (R30). -/
def State.setRng (s : State) (w : RngWord) : State := { s with rngState := w }

/-! ## Faults (60_exceptions.md R220 to R225)

There is no return from a fault (R223): only the host's `create` leaves one (R224, HostPort.lean). -/

/-- What `raise Fault(code, info)` names (R10). -/
structure Raise where
  /-- The code (R221). -/
  code : FaultCode
  /-- The information recorded (R221). -/
  info : Nat
deriving DecidableEq, Repr

/-- Fault entry (R222): the record is written and nothing else changes. Control does not transfer (R223). -/
def State.enterFault (s : State) (f : FaultRecord) : State := { s with fault := some f }

/-- TAKING A FAULT in phase 3 of a cycle: the record of R222, whose `fpc` is the pc at the start of the step, the advanced pc
less 2 (R93), and whose `fop` is the fetched word. The cycle restores the rest of the state of the start of the step
(`endCycle`, R97; DEDUCED, log 2). -/
def State.raise (s : State) (r : Raise) : State :=
  s.enterFault { code := r.code, fpc := s.pc - 2, fop := some s.op, info := r.info }

/-- The outcome of a handler that ran from `s`: its next state, or the fault it raised taken in `s`, since nothing a raising
handler did survives (R97, R222). -/
def settle (s : State) : Except Raise State → Outcome
  | .ok t => .next t
  | .error r => .next (s.raise r)

/-! ## Memory (20_memory.md) -/

/-- The byte a memory holds at an address. -/
def Memory.get : Memory → Nat → Byte
  | [], a => resetByte a
  | (k, b) :: rest, a => if k = a then b else Memory.get rest a

/-- A memory with one byte changed, in canonical form: rising addresses, no cell that equals what its address reads as
unlisted. -/
def Memory.set : Memory → Nat → Byte → Memory
  | [], a, b => if b = resetByte a then [] else [(a, b)]
  | (k, c) :: rest, a, b =>
    if k < a then (k, c) :: Memory.set rest a b
    else if k = a then (if b = resetByte a then rest else (a, b) :: rest)
    else if b = resetByte a then (k, c) :: rest
    else (a, b) :: (k, c) :: rest

/-- The canonical form from an address on: strictly rising, inside the 4096 bytes, no redundant cell. -/
def Memory.wfFrom : Nat → Memory → Bool
  | _, [] => true
  | lo, (k, b) :: rest => lo ≤ k && k < Config.memSize && b != resetByte k && Memory.wfFrom (k + 1) rest

/-- The canonical form of a memory. -/
def Memory.wf (m : Memory) : Bool := Memory.wfFrom 0 m

/-- `mem[a]` (R10, R50). -/
def State.byteAt (s : State) (a : Nat) : Byte := s.mem.get a

/-- `mem[a] <- b` (R50). -/
def State.setByte (s : State) (a : Nat) (b : Byte) : State := s.setMem (s.mem.set a b)

/-- `CheckRange(a, len)` of R67, for `len ≥ 1`: it records the lowest address of the access that lies outside memory. -/
def checkRange (a len : Nat) : Except Raise Unit :=
  if a + len - 1 > 0xFFF then .error ⟨.memOutOfRange, max a 0x1000⟩ else .ok ()

/-- `MemRead(a, 1)` of R53. -/
def memRead (s : State) (a : Nat) : Except Raise Byte :=
  if a > 0xFFF then .error ⟨.memOutOfRange, a⟩ else .ok (s.byteAt a)

/-- `MemWrite(a, 1, b)` of R54. -/
def memWrite (a : Nat) (b : Byte) (s : State) : Except Raise State :=
  if a > 0xFFF then .error ⟨.memOutOfRange, a⟩ else .ok (s.setByte a b)

/-- `n` calls of MemRead at ascending addresses from `a` (R56). -/
def memReadMany (s : State) (a : Nat) : Nat → Except Raise (List Byte)
  | 0 => .ok []
  | n + 1 => do
    let b ← memRead s a
    let bs ← memReadMany s (a + 1) n
    .ok (b :: bs)

/-- Calls of MemWrite at ascending addresses from `a`, one for each byte (R56). -/
def memWriteMany (a : Nat) : List Byte → State → Except Raise State
  | [], s => .ok s
  | b :: bs, s => do
    let t ← memWrite a b s
    memWriteMany (a + 1) bs t

/-! ## The return stack (10_state.md R25) -/

/-- `stack[sp] <- w; sp <- sp + 1`, for a stack that is not full. -/
def State.push (s : State) (w : Word) (room : s.sp.val < Config.stackDepth) : State :=
  { s with stack := s.stack.set s.sp.val w room, sp := ⟨s.sp.val + 1, Nat.succ_lt_succ room⟩ }

/-- `sp <- sp - 1; pc <- stack[sp]`, for a stack that is not empty. -/
def State.popPc (s : State) : State :=
  { s with
    sp := ⟨s.sp.val - 1, Nat.lt_of_le_of_lt (Nat.sub_le _ _) s.sp.isLt⟩
    pc := s.stack[s.sp.val - 1]'(by have := s.sp.isLt; omega) }

/-! ## The frame buffer (10_state.md R28, 44_display.md) -/

/-- `vid[c, r]` (R10). -/
def Video.pixel (v : Video) (p : Pixel) : Bool := (v[p.2])[p.1]

/-- `vid[c, r] <- b`. -/
def Video.setPixel (v : Video) (p : Pixel) (b : Bool) : Video := v.set p.2 ((v[p.2]).set p.1 b)

/-- The frame buffer with every pixel unlit (R33, R183). -/
def Video.clear : Video := Vector.replicate 32 (Vector.replicate 64 false)

/-! ## The random-byte generator (42_arith_logic.md R130) -/

/-- The generator's next state: `trunc_64(rng_state * RNG_MULT + 1)`. -/
def nextRng (r : RngWord) : RngWord := r * rngMult + 1

/-- `RandomByte()`: it advances the generator and returns bits 63:56 of the new state. -/
def randomByte (s : State) : Byte × State :=
  ((nextRng s.rngState).extractLsb' 56 8, s.setRng (nextRng s.rngState))

end Sys2Proof.Machine
end

