-- ==== Sys2Proof/Machine/Flags.lean ====
section
/-! DEFINITION. VF as a flag (10_state.md R22) and every flag the instructions compute (42_arith_logic.md R131, R132). -/

namespace Sys2Proof.Machine

/-- The number of VF. -/
abbrev regF : Reg := 0xF

/-- `Bool→u8(b)` (R11). -/
def boolByte (b : Bool) : Byte := if b then 1 else 0

/-- `V[0xF] <- Bool→u8(b)`: a flag is an ordinary write of 0 or 1 to VF (R22). -/
def State.setVf (s : State) (b : Bool) : State := s.setReg regF (boolByte b)

/-- The carry of 8xy4: the true sum exceeds 255 (R139). -/
def carry (a b : Byte) : Bool := a.toNat + b.toNat > 255

/-- The no-borrow flag of `a - b`: `a >= b` (R140; R142 with the operands exchanged). -/
def noBorrow (a b : Byte) : Bool := a.toNat ≥ b.toNat

/-- The bit SHR shifts out: bit 0 (R141). -/
def shiftedOutRight (b : Byte) : Bool := b.getLsbD 0

/-- The bit SHL shifts out: bit 7 (R143). -/
def shiftedOutLeft (b : Byte) : Bool := b.getLsbD 7

/-- The VF write of OR, AND and XOR, after the result's: 0 when LOGIC_RESETS_VF, none otherwise (R136 to R138, D14). -/
def State.logicFlag (s : State) : State := if s.params.logicResetsVf then s.setReg regF 0 else s

end Sys2Proof.Machine
end

