-- ==== Sys2Proof/Machine/Operands.lean ====
section
/-! DEFINITION. The operand forms: immediates (30_encoding.md R73), the operands read again after a flag write
(42_arith_logic.md R132), the shift source (R141, R143), the effective addresses (43_memory_index.md R162, R166), register
ranges (R164, R165), the decimal digits (R163), keys (45_input_timers.md R203) and sprite pixels (44_display.md R182, R184,
R185). -/

namespace Sys2Proof.Machine

/-- `zext_16(nnn)` (R73). -/
def zext16 (nnn : BitVec 12) : Word := nnn.zeroExtend 16

/-- A byte as a 16-bit value: `zext_16` (R73). -/
def byteWord (b : Byte) : Word := b.zeroExtend 16

/-- The state the result's operands are read from, when `before` is the state before the flag write and `after` the one after
it (VF_ALIAS_ORDER, R132). -/
def aliasState (before after : State) : State :=
  match before.params.aliasOrder with
  | .snapshot => before
  | .sequential => after

/-- `src()` of SHR and SHL: the register SHIFT_SOURCE names, read in `s` (R141, R143). -/
def shiftOperand (x y : Reg) (s : State) : Byte :=
  match s.params.shiftSource with
  | .vx => s.reg x
  | .vy => s.reg y

/-- The skip of the flow-control and key instructions: `pc <- trunc_16(pc + 2)` when `cond` holds (R110). -/
def State.skipIf (s : State) (cond : Bool) : State := if cond then s.setPc (s.pc + 2) else s

/-- The effective address `I` of a memory access, a natural: offsets are added with no wrap (R166). -/
def State.indexAddr (s : State) : Nat := s.index.toNat

/-- `FONT_BASE + 5 * V[x]`, the address of a glyph; the whole byte is used (R162, D17). -/
def glyphAddr (b : Byte) : Word := BitVec.ofNat 16 (Config.fontBase + 5 * b.toNat)

/-- `V[0] .. V[x]`, in order (R164). -/
def State.regsTo (s : State) (x : Reg) : List Byte := s.v.toList.take (x.val + 1)

/-- `V[i] <- bytes[i]` for every `i` that `bytes` has (R165). -/
def State.loadRegs (s : State) (bytes : List Byte) : State :=
  { s with v := Vector.ofFn fun i : Fin 16 => (bytes[i.val]?).getD s.v[i] }

/-- `I <- trunc_16(I + x + 1)` after a register transfer when LOADSTORE_INCREMENTS_I, no change otherwise (R164, R165). -/
def State.advanceIndex (s : State) (x : Reg) : State :=
  if s.params.loadStoreIncrementsI then s.setIndex (s.index + BitVec.ofNat 16 (x.val + 1)) else s

/-- The hundreds, tens and ones digits of a byte (R163). -/
def bcdDigits (b : Byte) : List Byte :=
  [BitVec.ofNat 8 (b.toNat / 100), BitVec.ofNat 8 (b.toNat / 10 % 10), BitVec.ofNat 8 (b.toNat % 10)]

/-- The key a byte names; the keypad has 16 entries, and a larger number raises KEY_INDEX_OUT_OF_RANGE (R200, R201, D9). -/
def keyNumber (b : Byte) : Except Raise (Fin 16) :=
  if h : b.toNat < 16 then .ok ⟨b.toNat, h⟩ else .error ⟨.keyIndexOutOfRange, b.toNat⟩

/-- `min { k | key[k] }`, if some key is down (R203, D10). -/
def State.lowestKey (s : State) : Option (Fin 16) := (List.finRange 16).find? fun k => s.keys[k]

/-- The anchor's column: `V[x] mod 64` (R184). -/
def spriteColumn (b : Byte) : Nat := b.toNat % 64

/-- The anchor's row: `V[y] mod 32` (R184). -/
def spriteRow (b : Byte) : Nat := b.toNat % 32

/-- The column offsets of the set bits of a sprite byte, ascending; bit 7 is column 0 (R182). -/
def setColumns (b : Byte) : List Nat := (List.range 8).filter fun c => b.getLsbD (7 - c)

/-- The target coordinates (column, row) of the set bits of a sprite drawn at (xs, ys), on or off the grid, in loop order:
rows ascending, then columns (R184). -/
def spriteBits (xs ys : Nat) : List Byte → List (Nat × Nat)
  | [] => []
  | b :: rest => (setColumns b).map (fun c => (xs + c, ys)) ++ spriteBits xs (ys + 1) rest

/-- Where a set sprite bit at (px, py) lands: its pixel, no pixel, or the fault of `OffScreen` (R184, R185). -/
def targetPixel (policy : OffscreenPolicy) (px py : Nat) : Except Raise (Option Pixel) :=
  if h : px < 64 ∧ py < 32 then .ok (some (⟨px, h.1⟩, ⟨py, h.2⟩))
  else
    match policy with
    | .fault => .error ⟨.spriteOffScreen, py * 64 + px⟩
    | .clip => .ok none
    | .flat =>
      if k : py * 64 + px < 2048 then
        .ok (some (⟨(py * 64 + px) % 64, Nat.mod_lt _ (by decide)⟩, ⟨(py * 64 + px) / 64, by omega⟩))
      else .error ⟨.spriteOffScreen, py * 64 + px⟩

/-- The list T of R184: the target pixels in loop order. The first bit that raises decides the fault (R185, R225). -/
def targetPixels (policy : OffscreenPolicy) : List (Nat × Nat) → Except Raise (List Pixel)
  | [] => .ok []
  | (px, py) :: rest => do
    let t ← targetPixel policy px py
    let ts ← targetPixels policy rest
    .ok (t.toList ++ ts)

/-- The loop over T of R184: every target pixel is toggled, and a lit one that is turned off is a collision. -/
def xorPixels : List Pixel → Video → Bool → Video × Bool
  | [], v, collide => (v, collide)
  | p :: rest, v, collide => xorPixels rest (v.setPixel p (!v.pixel p)) (collide || v.pixel p)

end Sys2Proof.Machine
end

