-- ==== Sys2Proof/Machine/Cycle.lean ====
section
/-! DEFINITION. The phases of the execution cycle around the handler (40_execution_cycle.md R91 to R97). -/

namespace Sys2Proof.Machine

/-- Whether the two bytes of the word at pc are in memory (R55, R91). -/
def State.canFetch (s : State) : Bool := s.pc.toNat ≤ 0xFFE

/-- The word at pc, big-endian (R55, R91). -/
def State.fetchWord (s : State) : Word := s.byteAt s.pc.toNat ++ s.byteAt (s.pc.toNat + 1)

/-- The fetch fault: it is taken before anything is fetched, so the record holds no word (R91, R222). -/
def State.fetchFault (s : State) : State :=
  s.enterFault { code := .fetchOutOfRange, fpc := s.pc, fop := none, info := s.pc.toNat }

/-- The state phase 3 begins in: `op <- w; pc <- trunc_16(pc + 2)` (R92, R93). -/
def State.beginCycle (s : State) : State := (s.setOp s.fetchWord).setPc (s.pc + 2)

/-- A timer's decrement, floor at 0 (R95). -/
def tick (b : Byte) : Byte := if b = 0 then 0 else b - 1

/-- Phase 4: both timers tick, whichever instruction ran (R95). -/
def State.tickTimers (s : State) : State := (s.setDt (tick s.dt)).setSt (tick s.st)

/-- The end of a cycle that began in `s0` (whose fault record is `none`) and whose handler left `t`: phase 4, or, if the handler
raised, the state of the start of the step with the fault record written (R95, R97, R222). -/
def endCycle (s0 t : State) : State :=
  match t.fault with
  | none => t.tickTimers
  | some f => s0.enterFault f

end Sys2Proof.Machine
end

