-- ==== Sys2Proof/Machine/ArithLogic.lean ====
section
/-! DEFINITION. Arithmetic, logic and the random byte (42_arith_logic.md). In the flag-setting instructions VF is written first
and the result second, so when x = F the result lands last (R132). -/

namespace Sys2Proof.Machine

/-- `6xkk` LD Vx, kk (R133). -/
def execLdK (x : Reg) (kk : Byte) (s : State) : Outcome := .next (s.setReg x kk)

/-- `7xkk` ADD Vx, kk: no flag (R134). -/
def execAddK (x : Reg) (kk : Byte) (s : State) : Outcome := .next (s.setReg x (s.reg x + kk))

/-- `8xy0` LD Vx, Vy (R135). -/
def execLdR (x y : Reg) (s : State) : Outcome := .next (s.setReg x (s.reg y))

/-- `8xy1` OR Vx, Vy (R136). -/
def execOrR (x y : Reg) (s : State) : Outcome := .next (s.setReg x (s.reg x ||| s.reg y)).logicFlag

/-- `8xy2` AND Vx, Vy (R137). -/
def execAndR (x y : Reg) (s : State) : Outcome := .next (s.setReg x (s.reg x &&& s.reg y)).logicFlag

/-- `8xy3` XOR Vx, Vy (R138). -/
def execXorR (x y : Reg) (s : State) : Outcome := .next (s.setReg x (s.reg x ^^^ s.reg y)).logicFlag

/-- `8xy4` ADD Vx, Vy: the wide sum exists before the flag write in both alias orders (R132, R139). -/
def execAddR (x y : Reg) (s : State) : Outcome :=
  let sum := s.reg x + s.reg y
  .next ((s.setVf (carry (s.reg x) (s.reg y))).setReg x sum)

/-- `8xy5` SUB Vx, Vy (R140). -/
def execSub (x y : Reg) (s : State) : Outcome :=
  let flagged := s.setVf (noBorrow (s.reg x) (s.reg y))
  let src := aliasState s flagged
  .next (flagged.setReg x (src.reg x - src.reg y))

/-- `8xy6` SHR Vx {, Vy} (R141). -/
def execShr (x y : Reg) (s : State) : Outcome :=
  let flagged := s.setVf (shiftedOutRight (shiftOperand x y s))
  .next (flagged.setReg x (shiftOperand x y (aliasState s flagged) >>> 1))

/-- `8xy7` SUBN Vx, Vy (R142). -/
def execSubn (x y : Reg) (s : State) : Outcome :=
  let flagged := s.setVf (noBorrow (s.reg y) (s.reg x))
  let src := aliasState s flagged
  .next (flagged.setReg x (src.reg y - src.reg x))

/-- `8xyE` SHL Vx {, Vy} (R143). -/
def execShl (x y : Reg) (s : State) : Outcome :=
  let flagged := s.setVf (shiftedOutLeft (shiftOperand x y s))
  .next (flagged.setReg x (shiftOperand x y (aliasState s flagged) <<< 1))

/-- `Cxkk` RND Vx, kk (R144). -/
def execRnd (x : Reg) (kk : Byte) (s : State) : Outcome :=
  let drawn := randomByte s
  .next (drawn.2.setReg x (drawn.1 &&& kk))

end Sys2Proof.Machine
end

