-- ==== Sys2Proof/Machine/Display.lean ====
section
/-! DEFINITION. Clear screen and sprite drawing (44_display.md). -/

namespace Sys2Proof.Machine

/-- `00E0` CLS (R183). -/
def execCls (s : State) : Outcome := .next (s.setVid Video.clear)

/-- `n` sprite rows from memory at I: `CheckRange(I, n)` if `n ≥ 1`, then the reads (R184). -/
def spriteRows (s : State) (n : Nat) : Except Raise (List Byte) := do
  if n ≥ 1 then checkRange s.indexAddr n
  memReadMany s s.indexAddr n

/-- The list T of a DRW: the target pixels of `n` rows drawn at the anchor (R184). -/
def spriteTargets (x y : Reg) (n : Nat) (s : State) : Except Raise (List Pixel) := do
  let rows ← spriteRows s n
  targetPixels s.params.offscreen (spriteBits (spriteColumn (s.reg x)) (spriteRow (s.reg y)) rows)

/-- `Dxyn` DRW Vx, Vy, n: every check comes before the first pixel or VF write (R184). -/
def execDrw (x y : Reg) (n : Fin 16) (s : State) : Outcome :=
  settle s do
    let targets ← spriteTargets x y n.val s
    let drawn := xorPixels targets s.vid false
    .ok ((s.setVid drawn.1).setVf drawn.2)

end Sys2Proof.Machine
end

