-- ==== Sys2Proof/Machine/FlowControl.lean ====
section
/-! DEFINITION. Flow control (41_flow_control.md) and the no-op handler (40_execution_cycle.md R98). Every meaning runs in
phase 3 of a cycle: `op` is latched and pc is the instruction's address plus 2 (R93). -/

namespace Sys2Proof.Machine

/-- `00EE` RET (R111). -/
def execRet (s : State) : Outcome :=
  if s.sp.val = 0 then settle s (.error ⟨.stackUnderflow, s.sp.val⟩) else .next s.popPc

/-- `1nnn` JP nnn (R112). -/
def execJp (nnn : BitVec 12) (s : State) : Outcome := .next (s.setPc (zext16 nnn))

/-- `2nnn` CALL nnn: it pushes the address after the CALL (R113). -/
def execCall (nnn : BitVec 12) (s : State) : Outcome :=
  if h : s.sp.val < Config.stackDepth then .next ((s.push s.pc h).setPc (zext16 nnn))
  else settle s (.error ⟨.stackOverflow, s.sp.val⟩)

/-- `3xkk` SE Vx, kk (R114). -/
def execSeK (x : Reg) (kk : Byte) (s : State) : Outcome := .next (s.skipIf (s.reg x == kk))

/-- `4xkk` SNE Vx, kk (R115). -/
def execSneK (x : Reg) (kk : Byte) (s : State) : Outcome := .next (s.skipIf (s.reg x != kk))

/-- `5xy0` SE Vx, Vy (R116). -/
def execSeR (x y : Reg) (s : State) : Outcome := .next (s.skipIf (s.reg x == s.reg y))

/-- `9xy0` SNE Vx, Vy (R117). -/
def execSneR (x y : Reg) (s : State) : Outcome := .next (s.skipIf (s.reg x != s.reg y))

/-- `Bnnn` JP V0, nnn: no reduction modulo 4096 (R118, D18). -/
def execJpV0 (nnn : BitVec 12) (s : State) : Outcome := .next (s.setPc (zext16 nnn + byteWord (s.reg 0)))

/-- NOP: no effect beyond the cycle's own (R98). -/
def execNop (s : State) : Outcome := .next s

end Sys2Proof.Machine
end

