-- ==== Sys2Proof/Machine/InputTimers.lean ====
section
/-! DEFINITION. Keypad and timer instructions (45_input_timers.md). The cycle's timer tick comes after them (R95). -/

namespace Sys2Proof.Machine

/-- `Ex9E` SKP Vx (R200). -/
def execSkp (x : Reg) (s : State) : Outcome :=
  settle s do
    let k ← keyNumber (s.reg x)
    .ok (s.skipIf s.keys[k])

/-- `ExA1` SKNP Vx (R201). -/
def execSknp (x : Reg) (s : State) : Outcome :=
  settle s do
    let k ← keyNumber (s.reg x)
    .ok (s.skipIf !s.keys[k])

/-- `Fx07` LD Vx, DT (R202). -/
def execLdVDt (x : Reg) (s : State) : Outcome := .next (s.setReg x s.dt)

/-- `Fx0A` LD Vx, K: with no key down pc goes back by 2, so the next step runs the same instruction (R203, R234). -/
def execLdVK (x : Reg) (s : State) : Outcome :=
  match s.lowestKey with
  | some k => .next (s.setReg x (BitVec.ofNat 8 k.val))
  | none => .next (s.setPc (s.pc - 2))

/-- `Fx15` LD DT, Vx (R204). -/
def execLdDtV (x : Reg) (s : State) : Outcome := .next (s.setDt (s.reg x))

/-- `Fx18` LD ST, Vx (R205). -/
def execLdStV (x : Reg) (s : State) : Outcome := .next (s.setSt (s.reg x))

end Sys2Proof.Machine
end

