-- ==== Sys2Proof/Machine/MemoryIndex.lean ====
section
/-! DEFINITION. The index register and memory transfers (43_memory_index.md). A transfer checks its whole range before its
first byte (20_memory.md R67). -/

namespace Sys2Proof.Machine

/-- `Annn` LD I, nnn (R160). -/
def execLdI (nnn : BitVec 12) (s : State) : Outcome := .next (s.setIndex (zext16 nnn))

/-- `Fx1E` ADD I, Vx: VF unchanged (R161, D16). -/
def execAddI (x : Reg) (s : State) : Outcome := .next (s.setIndex (s.index + byteWord (s.reg x)))

/-- `Fx29` LD F, Vx (R162). -/
def execLdF (x : Reg) (s : State) : Outcome := .next (s.setIndex (glyphAddr (s.reg x)))

/-- `Fx33` LD B, Vx (R163). -/
def execLdB (x : Reg) (s : State) : Outcome :=
  settle s do
    checkRange s.indexAddr 3
    memWriteMany s.indexAddr (bcdDigits (s.reg x)) s

/-- `Fx55` LD [I], Vx (R164). -/
def execStRegs (x : Reg) (s : State) : Outcome :=
  settle s do
    checkRange s.indexAddr (x.val + 1)
    let t ← memWriteMany s.indexAddr (s.regsTo x) s
    .ok (t.advanceIndex x)

/-- `Fx65` LD Vx, [I] (R165). -/
def execLdRegs (x : Reg) (s : State) : Outcome :=
  settle s do
    checkRange s.indexAddr (x.val + 1)
    let bytes ← memReadMany s s.indexAddr (x.val + 1)
    .ok ((s.loadRegs bytes).advanceIndex x)

end Sys2Proof.Machine
end

