-- ==== Sys2Proof/Machine/Step.lean ====
section
/-! DEFINITION. One execution cycle (40_execution_cycle.md R96), and the placing of a word where the next cycle fetches it. -/

namespace Sys2Proof.Machine

/-- `Step()` of R96. A faulted core does nothing (R90, R224); otherwise fetch, advance, decode and execute, and the end of the
cycle. -/
def step (s : State) : Host.Outcome State Fault Refusal :=
  if s.fault.isSome then .next s
  else if s.canFetch then
    match exec (decode s.fetchWord) s.beginCycle with
    | .next t => .next (endCycle s t)
    | .fault r => .fault r
    | .refused r => .refused r
  else .next s.fetchFault

/-- The state whose next step fetches and runs the instruction word `w`: its bytes stand at pc and pc + 1, high byte first
(R55). A core that would fetch nothing (a pc above 0xFFE, a fault record) is put at ENTRY, without fault (log 9). The core's
one instruction length is 16 bits (R70), so `nbits` only says that the bits above it are 0. -/
def State.withFetchWord (s : State) (nbits w : Nat) : State :=
  let word : Word := BitVec.ofNat 16 (w % 2 ^ nbits)
  let at0 := if s.canFetch then s else s.setPc (BitVec.ofNat 16 Config.entry)
  let placed := (at0.setByte at0.pc.toNat (highByte word)).setByte (at0.pc.toNat + 1) (lowByte word)
  { placed with fault := none }

end Sys2Proof.Machine
end

