-- ==== Sys2Proof/Machine/HostPort.lean ====
section
/-! DEFINITION. What the host can do to the core between steps, and what it can read (70_reset_and_hazards.md R240 to R246,
44_display.md R186). No step runs any of this (R62, R65; log 8). -/

namespace Sys2Proof.Machine

/-- `mem[a + i] <- bytes[i]`, in order: the host's memory writes (R244, R245). -/
def State.loadBytes (s : State) (a : Nat) : List Byte → State
  | [] => s
  | b :: rest => (s.setByte a b).loadBytes (a + 1) rest

/-- `create` (R240, R243): the state of R33, whatever the state was, with the machine's font installed; the machine's parameters
stay what they are (log 3). -/
def State.create (s : State) : State :=
  ({ State.reset with params := s.params }).loadBytes Config.fontBase (fontTable s.params)

/-- Every move the host has on the state (R246). -/
inductive HostAction where
  /-- The reset strobe (R240). -/
  | create
  /-- A write through `load_we`, `load_addr`, `load_data` (R245). -/
  | writeByte (addr : BitVec 12) (data : Byte)
  /-- The ROM load: the bytes, verbatim from 0x200 (R244). -/
  | loadRom (rom : List Byte)
  /-- The levels of the 16 keys (R245). -/
  | setKeys (keys : Vector Bool 16)
  /-- `rng_state <- seed` (R245). -/
  | seed (value : RngWord)
  /-- A call of `random_byte` (R130, R245). -/
  | randomByte
deriving DecidableEq, Repr

/-- Why the host's move is none the spec has. -/
inductive HostRefusal where
  /-- A ROM of more than 3584 bytes is refused (R244, D27). -/
  | romTooLong
  /-- The memory write port is for addresses from 0x200 up (R245, R246). -/
  | belowEntry
deriving DecidableEq, Repr

/-- The state after a move of the host (R246). -/
def hostAct (a : HostAction) (s : State) : Except HostRefusal State :=
  match a with
  | .create => .ok s.create
  | .writeByte addr data =>
    if addr.toNat < Config.entry then .error .belowEntry else .ok (s.setByte addr.toNat data)
  | .loadRom rom => if rom.length > Config.maxRom then .error .romTooLong else .ok (s.loadBytes Config.entry rom)
  | .setKeys keys => .ok { s with keys := keys }
  | .seed value => .ok (s.setRng value)
  | .randomByte => .ok (Sys2Proof.Machine.randomByte s).2

/-- The port `rnd_byte`: what a call of `random_byte` returns (R245). -/
def rndByte (s : State) : Byte := (randomByte s).1

/-- The number of a fault code (R221). -/
def FaultCode.number : FaultCode → BitVec 3
  | .fetchOutOfRange => 1
  | .memOutOfRange => 2
  | .stackOverflow => 3
  | .stackUnderflow => 4
  | .keyIndexOutOfRange => 5
  | .spriteOffScreen => 6

/-- The output signals of the block (R245). With no fault, and for `fault_op` with no fetched word, the signals of the record
are 0 (DESIGN CHOICE, log 10). -/
structure Outputs where
  /-- `video`: vid[c, r] at bit r * 64 + c. -/
  video : Vector Bool 2048
  /-- `sound_on`: ST ≠ 0. -/
  soundOn : Bool
  /-- `sound_timer`: ST. -/
  soundTimer : Byte
  /-- `fault`. -/
  fault : Bool
  /-- `fault_code`. -/
  faultCode : BitVec 3
  /-- `fault_pc`. -/
  faultPc : Word
  /-- `fault_op`. -/
  faultOp : Word
  /-- `fault_info`. -/
  faultInfo : Word
deriving DecidableEq, Repr

/-- What the host reads between steps (R245, R246). -/
def outputs (s : State) : Outputs where
  video := Vector.ofFn fun k : Fin 2048 =>
    s.vid.pixel (⟨k.val % 64, Nat.mod_lt _ (by decide)⟩, ⟨k.val / 64, by omega⟩)
  soundOn := s.st != 0
  soundTimer := s.st
  fault := s.fault.isSome
  faultCode := (s.fault.map fun f => f.code.number).getD 0
  faultPc := (s.fault.map fun f => f.fpc).getD 0
  faultOp := (s.fault.bind fun f => f.fop).getD 0
  faultInfo := (s.fault.map fun f => BitVec.ofNat 16 f.info).getD 0

/-- A pixel as the renderer receives it: an integer of PIXEL_BITS bits, all set when lit, all clear when unlit (R186, D22); the
width is OPEN and is an argument (log 12). -/
def pixelWord (pixelBits : Nat) (lit : Bool) : BitVec pixelBits := if lit then BitVec.allOnes pixelBits else 0

end Sys2Proof.Machine
end

