-- ==== Sys2Proof/Machine/HostRun.lean ====
section
/-! DEFINITION. Runs of the core with its host: before each step the host makes its moves, the keypad of that step among them
(60_exceptions.md R230, 70_reset_and_hazards.md R246, R250). Between two steps nothing else happens (R62, R65). -/

namespace Sys2Proof.Machine

/-- The moves R246 gives the host within a run, between any two steps: a keypad write, a seed, a call of `random_byte`. `create`
begins a new run (R243), and the ROM is loaded before the first step (R244, R246; log 8). -/
def HostAction.inRun : HostAction → Bool
  | .setKeys _ | .seed _ | .randomByte => true
  | .create | .writeByte _ _ | .loadRom _ => false

/-- The host input of a run: for each step, the host's moves before it, in order. -/
abbrev Schedule := List (List HostAction)

/-- The schedule of a host that presents a keypad at each step and does nothing else: the keypad is the step's input (R230). -/
def keypads (levels : List (Vector Bool 16)) : Schedule := levels.map fun keys => [.setKeys keys]

/-- The host's moves between two steps, in order; the first that is no move of the spec is the answer. -/
def hostMoves : List HostAction → State → Except HostRefusal State
  | [], s => .ok s
  | a :: rest, s =>
    match hostAct a s with
    | .ok t => hostMoves rest t
    | .error r => .error r

/-- One cycle of the core with its host: the host's moves, then one step (R246, R99). -/
def hostedStep (moves : List HostAction) (s : State) : Except HostRefusal Outcome :=
  match hostMoves moves s with
  | .ok t => .ok (step t)
  | .error r => .error r

/-- One hosted step for each entry of the schedule, ending early only where a step ends the model or a move is none of the
spec's. -/
def hostedRun : Schedule → State → Except HostRefusal Outcome
  | [], s => .ok (.next s)
  | moves :: rest, s =>
    match hostedStep moves s with
    | .ok (.next t) => hostedRun rest t
    | .ok (.fault r) => .ok (.fault r)
    | .ok (.refused r) => .ok (.refused r)
    | .error r => .error r

end Sys2Proof.Machine
end

