-- ==== Sys2Proof/WellFormed.lean ====
section
/-! DEFINITION. When a term of `Instr` is an instruction of the core. -/

namespace Sys2Proof

/-- Every operand of every constructor has exactly the width of its field (30_encoding.md R71, R73, R74), so all values of it
are legal (R81); the one check left is that NOP's word is a word that no row of the opcode map takes (R81, R98). -/
def Instr.wellFormed : Instr → Bool
  | .cls _ | .ret _ | .jp _ | .call _ | .seK _ _ | .sneK _ _ | .seR _ _ _ | .ldK _ _ | .addK _ _ => true
  | .ldR _ _ | .orR _ _ | .andR _ _ | .xorR _ _ | .addR _ _ | .sub _ _ | .shr _ _ | .subn _ _ | .shl _ _ => true
  | .sneR _ _ _ | .ldI _ | .jpV0 _ | .rnd _ _ | .drw _ _ _ | .skp _ _ | .sknp _ _ => true
  | .ldVDt _ | .ldVK _ | .ldDtV _ | .ldStV _ | .addI _ | .ldF _ | .ldB _ | .stRegs _ | .ldRegs _ => true
  | .nop w => !populated w

end Sys2Proof
end

