-- ==== Sys2Proof/Safety.lean ====
section
/-! DEFINITION. What counts as a safe run and as the end of one (60_exceptions.md R224, 70_reset_and_hazards.md R250), and the
invariants of the machine. -/

namespace Sys2Proof.Machine

/-- The core is not stopped by a fault (R224). -/
def State.running (s : State) : Prop := s.fault = none

/-- A run takes only the moves R246 gives the host once a run has begun: the keypad, the seed, calls of `random_byte`. -/
def Schedule.allowed (h : Schedule) : Prop := ∀ moves ∈ h, ∀ a ∈ moves, a.inRun = true

/-- `t` is the state after the steps of the schedule `h` from `s`: one step for each entry (R250: the step sequence is the only
clock, R99), each taken after the host's moves of its entry, the keypad levels of that step among them (R230, U9). -/
def reaches (h : Schedule) (s t : State) : Prop := hostedRun h s = .ok (.next t)

/-- pc is at an idle address: an address whose word is `1nnn` jumping to itself (R250). -/
def State.idleAt (s : State) (idle : Word) : Prop :=
  s.pc = idle ∧ s.canFetch = true ∧ ∃ nnn, decode s.fetchWord = .jp nnn ∧ zext16 nnn = idle

/-- The good end of a run after a given number of steps, that of `h`, with no fault (R250, D32). -/
def endsAfter (h : Schedule) (s t : State) : Prop := h.allowed ∧ reaches h s t ∧ t.running

/-- The good end of a run at a named idle address, under the host input `h`: the first step at which pc is at that address with no
fault (R250, D32). Nothing says that the host, the timers or the keypad stop there (R250). -/
def endsAt (h : Schedule) (s t : State) (idle : Word) : Prop :=
  endsAfter h s t ∧ t.idleAt idle ∧ ∀ j < h.length, ∀ u, reaches (h.take j) s u → ¬ (u.idleAt idle ∧ u.running)

/-- No fault in `k` steps, whatever the host does: every keypad at every step, every seed, every call of `random_byte` (R230, U9).
A faulted state refutes every claim of a good end (R224). -/
def safeFor (k : Nat) (s : State) : Prop := ∀ h : Schedule, h.allowed → h.length = k → ∃ t, endsAfter h s t

/-! ## What an instruction leaves unchanged

R12: an instruction rule names its effect, and every field it does not name keeps its value. -/

/-- What a handler may change: the registers and bytes listed, and the fields whose flag is set. The keypad, `op` and the
parameters are never among them (R27, R29). -/
structure Changes where
  /-- General registers that may change. -/
  regs : List Reg := []
  /-- Addresses whose byte may change. -/
  bytes : List Nat := []
  /-- I may change. -/
  index : Bool := false
  /-- pc may change. -/
  pc : Bool := false
  /-- The stack entries may change. -/
  stack : Bool := false
  /-- sp may change. -/
  sp : Bool := false
  /-- DT may change. -/
  dt : Bool := false
  /-- ST may change. -/
  st : Bool := false
  /-- The frame buffer may change. -/
  vid : Bool := false
  /-- The generator's state may change. -/
  rng : Bool := false
deriving DecidableEq, Repr

/-- `t` differs from `s` at most in what `c` lists: every other register, every other byte of memory and every other field is as
it was, and so is the fault record. -/
structure Frame (c : Changes) (s t : State) : Prop where
  /-- The registers not listed. -/
  regs : ∀ r, r ∉ c.regs → t.reg r = s.reg r
  /-- The bytes of memory not listed. -/
  bytes : ∀ a, a ∉ c.bytes → t.byteAt a = s.byteAt a
  /-- I. -/
  index : c.index = false → t.index = s.index
  /-- The program counter. -/
  pc : c.pc = false → t.pc = s.pc
  /-- The return stack. -/
  stack : c.stack = false → t.stack = s.stack
  /-- The stack pointer. -/
  sp : c.sp = false → t.sp = s.sp
  /-- The delay timer. -/
  dt : c.dt = false → t.dt = s.dt
  /-- The sound timer. -/
  st : c.st = false → t.st = s.st
  /-- The frame buffer. -/
  vid : c.vid = false → t.vid = s.vid
  /-- The generator's state. -/
  rng : c.rng = false → t.rngState = s.rngState
  /-- The keypad. -/
  keys : t.keys = s.keys
  /-- The latched word. -/
  op : t.op = s.op
  /-- The fault record. -/
  fault : t.fault = s.fault
  /-- The parameters. -/
  params : t.params = s.params

/-! ## Invariants -/

/-- A fault record describes the state it was taken in: `fpc` is its pc (nothing advances it, R222), the word is missing
exactly for a fetch fault (R31), a fetch fault's information is a pc above 0xFFE (R91), a memory fault's is an address above
0xFFF (R67), and every information fits the 16 bits of its port (R245). -/
def FaultRecord.sound (f : FaultRecord) (s : State) : Prop :=
  f.fpc = s.pc ∧ (f.fop = none ↔ f.code = .fetchOutOfRange) ∧ f.info < 65536 ∧
  (f.code = .fetchOutOfRange → f.info = s.pc.toNat ∧ 0xFFE < f.info) ∧
  (f.code = .memOutOfRange → 0xFFF < f.info) ∧
  (f.code = .stackOverflow → f.info = 16 ∧ s.sp.val = 16) ∧
  (f.code = .stackUnderflow → f.info = 0 ∧ s.sp.val = 0) ∧
  (f.code = .keyIndexOutOfRange → 0xF < f.info ∧ f.info ≤ 0xFF) ∧
  (f.code = .spriteOffScreen → 64 ≤ f.info ∧ f.info ≤ 45 * 64 + 70)

/-- Where the pc and the return addresses can be: no instruction leaves pc above 0x10FE (conflict C3: "skip, jump and Bnnn
semantics, which can produce pc up to 0x10FE"), and a pushed address is an advanced pc, at most 0x1000 (R93). -/
def State.addressesBounded (s : State) : Prop :=
  s.pc.toNat ≤ 0x10FE ∧ ∀ i : Fin 16, (s.stack[i]).toNat ≤ 0x1000

/-- The machine's invariant: memory in canonical form, addresses bounded, and a fault record that describes the state. -/
structure State.Inv (s : State) : Prop where
  /-- Memory is in canonical form. -/
  memory : s.mem.wf = true
  /-- The pc and the stack hold bounded addresses. -/
  addresses : s.addressesBounded
  /-- A fault record describes the state. -/
  record : ∀ f, s.fault = some f → f.sound s

end Sys2Proof.Machine
end

