-- ==== Sys2Proof/Certificates/Slice0/Obligations.lean ====
section
/-! DEFINITION. The statements about the model, for the provers, and the vocabulary they are written in. Each one's docstring
names the rules of spec/ it formalises. -/

namespace Sys2Proof.Claims

open Sys2Proof.Machine

/-- Every word the row of R83 takes decodes to the instruction, with the fields at their places (R71). -/
def Encoded (pattern mask : Word) (form : Word → Instr) : Prop := ∀ w : Word, w &&& mask = pattern → decode w = form w

/-- The instruction the step from `s` executes, when it executes one. -/
def fetched (s : State) : Instr := decode (s.byteAt s.pc.toNat ++ s.byteAt (s.pc.toNat + 1))

/-- The state a handler leaves that raises `Fault(code, info)`: `s` with the fault record written and nothing else changed; pc is
the advanced pc in phase 3, so the record's is 2 less (R93, R222). -/
def faulted (s : State) (code : FaultCode) (info : Nat) : State :=
  { s with fault := some { code := code, fpc := s.pc - 2, fop := some s.op, info := info } }

/-- A fault record with this code. -/
def faultedWith (t : State) (code : FaultCode) : Prop := ∃ f, t.fault = some f ∧ f.code = code

/-- The number a result's operand has after the flag `f` was written: the flag itself if the operand is VF and the alias order is
sequential, the register as it was otherwise (R132). -/
def afterFlag (s : State) (r : Reg) (f : Nat) : Nat :=
  if s.params.aliasOrder = .sequential ∧ r = 0xF then f else (s.reg r).toNat

/-- The register SHR and SHL shift (R141, R143). -/
def shifted (s : State) (x y : Reg) : Reg := if s.params.shiftSource = .vx then x else y

/-- The rows of a DRW are in memory (R184: `if n >= 1: CheckRange(I, n)`). -/
def rowsInMemory (s : State) (n : Fin 16) : Prop := n.val = 0 ∨ s.index.toNat + n.val - 1 ≤ 0xFFF

/-- A set bit of the sprite DRW x, y, n draws stands at column `px` and row `py`: bit 7 - c of the byte at I + i, at column
`V[x] mod 64 + c` and row `V[y] mod 32 + i` (R181, R182, R184). -/
def spriteBit (s : State) (x y : Reg) (n : Fin 16) (px py : Nat) : Prop :=
  ∃ i c : Nat, i < n.val ∧ c < 8 ∧ (s.byteAt (s.index.toNat + i)).getLsbD (7 - c) = true ∧
    px = (s.reg x).toNat % 64 + c ∧ py = (s.reg y).toNat % 32 + i

/-- A set bit at (px, py) raises no fault: on the grid under policy fault, anywhere under clip, inside the flat buffer under flat
(R185). -/
def bitPlaced (policy : OffscreenPolicy) (px py : Nat) : Prop :=
  match policy with
  | .fault => px < 64 ∧ py < 32
  | .clip => True
  | .flat => py * 64 + px < 2048

/-- The pixels DRW toggles: those of the set bits on the grid, and under flat those at the set bits' flat index (R184, R185). -/
def toggles (s : State) (x y : Reg) (n : Fin 16) (p : Pixel) : Prop :=
  match s.params.offscreen with
  | .flat => ∃ px py, spriteBit s x y n px py ∧ py * 64 + px = p.2.val * 64 + p.1.val
  | _ => spriteBit s x y n p.1.val p.2.val

/-- The general registers an instruction may change, VF as a flag included (R22, R35). -/
def mayWriteReg (p : Params) (i : Instr) (r : Reg) : Prop :=
  match i with
  | .ldK x _ | .addK x _ | .ldR x _ | .rnd x _ | .ldVDt x | .ldVK x => r = x
  | .orR x _ | .andR x _ | .xorR x _ => r = x ∨ (p.logicResetsVf = true ∧ r = 0xF)
  | .addR x _ | .sub x _ | .shr x _ | .subn x _ | .shl x _ => r = x ∨ r = 0xF
  | .drw _ _ _ => r = 0xF
  | .ldRegs x => r ≤ x
  | .cls _ | .ret _ | .jp _ | .call _ | .seK _ _ | .sneK _ _ | .seR _ _ _ | .sneR _ _ _ | .ldI _ | .jpV0 _ => False
  | .skp _ _ | .sknp _ _ | .ldDtV _ | .ldStV _ | .addI _ | .ldF _ | .ldB _ | .stRegs _ | .nop _ => False

end Sys2Proof.Claims

open Sys2Proof Sys2Proof.Machine Sys2Proof.Claims

/-! ## Encoding (30_encoding.md) -/

/-- R70 to R86: decoding the word, or the bytes, of a well-formed instruction gives the instruction back, every operand included
(the ignored bits and NOP's word are carried, log 7). -/
def Obligations.DecodeInvertsEncode : Prop :=
  ∀ i : Instr, i.wellFormed = true →
    decode (encode i) = i ∧ ∀ rest : List Byte, decodeBytes (encodeBytes i ++ rest) = .ok (i, rest)

/-- R75, R84: every 16-bit word decodes to a well-formed instruction, and no bit of the word is lost (log 7). -/
def Obligations.EncodeInvertsDecode : Prop :=
  ∀ w : Word, (decode w).wellFormed = true ∧ encode (decode w) = w

/-- R83: the 34 rows are pairwise disjoint, a word selects the row whose `(op & mask) == match`, and a word that matches no row is
NOP. -/
def Obligations.OpcodeMapSelectsTheHandler : Prop :=
  opcodeMap.length = 34 ∧
  ∀ w : Word, (opcodeMap.Pairwise fun a b => ¬ (w &&& a.mask = a.pattern ∧ w &&& b.mask = b.pattern)) ∧
    (∀ row ∈ opcodeMap, (w &&& row.mask = row.pattern ↔ (decode w).mnemonic = row.mnemonic)) ∧
    ((∀ row ∈ opcodeMap, w &&& row.mask ≠ row.pattern) → decode w = .nop w)

/-- Words of 95_test_vectors.md, and of the formats of R72, decode to the instructions they stand for. -/
def Obligations.SampleWordsDecode : Prop :=
  decode 0x00E0 = .cls 0x0E ∧ decode 0x012E = .ret 0x12 ∧ decode 0x1ABC = .jp 0xABC ∧ decode 0x5127 = .seR 1 2 7 ∧
  decode 0x8124 = .addR 1 2 ∧ decode 0xD015 = .drw 0 1 5 ∧ decode 0xE1A1 = .sknp 1 0xA ∧ decode 0xF265 = .ldRegs 2 ∧
  decode 0x8008 = .nop 0x8008 ∧ decode 0xF066 = .nop 0xF066

/-- R72, R76, R78, R80: the bits a format ignores select nothing: the alias words execute as their canonical words.
Derived: R76, R78 and R80 are inferences the spec marks as its own ("[derived: from §4.3 ...]"). -/
def Obligations.IgnoredBitsSelectNothing : Prop :=
  ∀ (w : Word) (s : State),
    (w &&& 0xF00F = 0x0000 → exec (decode w) s = exec (decode 0x00E0) s) ∧
    (w &&& 0xF00F = 0x000E → exec (decode w) s = exec (decode 0x00EE) s) ∧
    (w &&& 0xF000 = 0x5000 → exec (decode w) s = exec (decode (w &&& 0xFFF0)) s) ∧
    (w &&& 0xF000 = 0x9000 → exec (decode w) s = exec (decode (w &&& 0xFFF0)) s) ∧
    (w &&& 0xF00F = 0xE00E → exec (decode w) s = exec (decode (w &&& 0xFF0F ||| 0x0090)) s) ∧
    (w &&& 0xF00F = 0xE001 → exec (decode w) s = exec (decode (w &&& 0xFF0F ||| 0x00A0)) s)

/-- R81: every entry the tables of R76 to R79 leave unpopulated is NOP, low bytes 0x66 to 0xFF of family 0xF included (D23), and NOP
raises nothing and has no effect. -/
def Obligations.UnpopulatedEntriesAreNop : Prop :=
  ∀ w : Word,
    (w &&& 0xF000 = 0x0000 → (w &&& 0x000F).toNat ∉ [0x0, 0xE] → decode w = .nop w) ∧
    (w &&& 0xF000 = 0x8000 → (w &&& 0x000F).toNat ∉ [0x0, 0x1, 0x2, 0x3, 0x4, 0x5, 0x6, 0x7, 0xE] → decode w = .nop w) ∧
    (w &&& 0xF000 = 0xE000 → (w &&& 0x000F).toNat ∉ [0x1, 0xE] → decode w = .nop w) ∧
    (w &&& 0xF000 = 0xF000 → (w &&& 0x00FF).toNat ∉ [0x07, 0x0A, 0x15, 0x18, 0x1E, 0x29, 0x33, 0x55, 0x65] →
      decode w = .nop w) ∧
    ∀ s : State, exec (.nop w) s = .next s

/-! ## The execution cycle (40_execution_cycle.md) and faults (60_exceptions.md) -/

/-- R93 to R97: a step that fetches runs the decoded instruction on the state with the word latched and pc advanced by 2, and then
ticks both timers, or, if the handler raised, gives back the state of the start of the step with the fault record written. -/
def Obligations.StepRunsTheDecodedInstruction : Prop :=
  ∀ (s : State) (i : Instr), s.fault = none → s.pc.toNat ≤ 0xFFE →
    decode (s.byteAt s.pc.toNat ++ s.byteAt (s.pc.toNat + 1)) = i →
    step s =
      match exec i { s with op := s.byteAt s.pc.toNat ++ s.byteAt (s.pc.toNat + 1), pc := s.pc + 2 } with
      | .next t =>
        match t.fault with
        | none => .next { t with dt := if t.dt = 0 then 0 else t.dt - 1, st := if t.st = 0 then 0 else t.st - 1 }
        | some f => .next { s with fault := some f }
      | .fault r => .fault r
      | .refused r => .refused r

/-- R91, R92: the fetch reads the word at pc big-endian and latches it in `op`; a pc above 0xFFE raises FETCH_OUT_OF_RANGE, with no
word in the record, and nothing else happens. -/
def Obligations.FetchIsBigEndianOrFaults : Prop :=
  ∀ s : State, s.fault = none →
    (0xFFE < s.pc.toNat →
      step s = .next { s with fault := some { code := .fetchOutOfRange, fpc := s.pc, fop := none, info := s.pc.toNat } }) ∧
    (s.pc.toNat ≤ 0xFFE → ∃ t, step s = .next t ∧
      ((t.fault = none ∧ t.op.toNat = 256 * (s.byteAt s.pc.toNat).toNat + (s.byteAt (s.pc.toNat + 1)).toNat) ∨
       (∃ f w, t.fault = some f ∧ f.fop = some w ∧
         w.toNat = 256 * (s.byteAt s.pc.toNat).toNat + (s.byteAt (s.pc.toNat + 1)).toNat)))

/-- R224 (D29): a step of a faulted core changes nothing, no host move but `create` clears the fault, `create` does, and a faulted
state refutes every claim of a good end: whatever the host does within the run, the fault stays, with every field the host cannot
write. -/
def Obligations.FaultIsSticky : Prop :=
  (∀ s : State, s.fault ≠ none → step s = .next s) ∧
  (∀ (a : HostAction) (s t : State), hostAct a s = .ok t → a ≠ .create → t.fault = s.fault) ∧
  (∀ s t : State, hostAct .create s = .ok t → t.fault = none) ∧
  (∀ (h : Schedule) (s t : State) (idle : Word), s.fault ≠ none → h.allowed → reaches h s t →
    t = { s with keys := t.keys, rngState := t.rngState } ∧ (h.flatten = [] → t = s) ∧
    ¬ endsAfter h s t ∧ ¬ endsAt h s t idle ∧ ¬ safeFor h.length s)

/-- R90, R97: a step of any state answers a next state: a fault of the spec is one (the model's choice of form, log 1). -/
def Obligations.StepAlwaysAnswersNext : Prop :=
  ∀ s : State, ∃ t, step s = .next t

/-- R97, R222: a step that raises leaves exactly the state it began in, with the fault record written: the code, the pc at the start
of the step, the fetched word (none for a fetch fault), and the information. -/
def Obligations.FaultEntryIsPrecise : Prop :=
  ∀ (s t : State) (f : FaultRecord), s.fault = none → step s = .next t → t.fault = some f →
    t = { s with fault := some f } ∧ f.fpc = s.pc ∧
    f.fop = (if f.code = .fetchOutOfRange then none else some (s.byteAt s.pc.toNat ++ s.byteAt (s.pc.toNat + 1)))

/-- R221 (D3 to D9): a step faults exactly under the conditions of the table, with the code and the information of the table. -/
def Obligations.FaultsAreThoseOfTheTable : Prop :=
  ∀ s t : State, s.fault = none → step s = .next t →
    (∀ f : FaultRecord, t.fault = some f →
      match f.code with
      | .fetchOutOfRange => 0xFFE < s.pc.toNat ∧ f.info = s.pc.toNat
      | .memOutOfRange => s.pc.toNat ≤ 0xFFE ∧ f.info = max s.index.toNat 0x1000 ∧
          ((∃ x y n, fetched s = .drw x y n ∧ ¬ rowsInMemory s n) ∨
           (∃ x, fetched s = .ldB x ∧ 0xFFF < s.index.toNat + 2) ∨
           (∃ x, (fetched s = .stRegs x ∨ fetched s = .ldRegs x) ∧ 0xFFF < s.index.toNat + x.val))
      | .stackOverflow => s.pc.toNat ≤ 0xFFE ∧ (∃ nnn, fetched s = .call nnn) ∧ s.sp.val = 16 ∧ f.info = 16
      | .stackUnderflow => s.pc.toNat ≤ 0xFFE ∧ (∃ m, fetched s = .ret m) ∧ s.sp.val = 0 ∧ f.info = 0
      | .keyIndexOutOfRange => s.pc.toNat ≤ 0xFFE ∧
          ∃ x m, (fetched s = .skp x m ∨ fetched s = .sknp x m) ∧ 0xF < (s.reg x).toNat ∧ f.info = (s.reg x).toNat
      | .spriteOffScreen => s.pc.toNat ≤ 0xFFE ∧
          ∃ x y n px py, fetched s = .drw x y n ∧ rowsInMemory s n ∧ spriteBit s x y n px py ∧
            ¬ bitPlaced s.params.offscreen px py ∧ f.info = py * 64 + px) ∧
    (0xFFE < s.pc.toNat → faultedWith t .fetchOutOfRange) ∧
    (s.pc.toNat ≤ 0xFFE →
      (∀ x y n, fetched s = .drw x y n → ¬ rowsInMemory s n → faultedWith t .memOutOfRange) ∧
      (∀ x, fetched s = .ldB x → 0xFFF < s.index.toNat + 2 → faultedWith t .memOutOfRange) ∧
      (∀ x, fetched s = .stRegs x ∨ fetched s = .ldRegs x → 0xFFF < s.index.toNat + x.val → faultedWith t .memOutOfRange) ∧
      (∀ nnn, fetched s = .call nnn → s.sp.val = 16 → faultedWith t .stackOverflow) ∧
      (∀ m, fetched s = .ret m → s.sp.val = 0 → faultedWith t .stackUnderflow) ∧
      (∀ x m, fetched s = .skp x m ∨ fetched s = .sknp x m → 0xF < (s.reg x).toNat → faultedWith t .keyIndexOutOfRange) ∧
      (∀ x y n px py, fetched s = .drw x y n → rowsInMemory s n → spriteBit s x y n px py → ¬ bitPlaced s.params.offscreen px py →
        faultedWith t .spriteOffScreen))

/-- R95: each timer is decremented by 1, floor at 0, once a step, after the instruction: Fx15 and Fx18 are followed by the tick of
their own cycle, Fx07 reads DT before it, and a faulting step does not tick. -/
def Obligations.TimersTickOnceAStep : Prop :=
  ∀ s t : State, s.fault = none → step s = .next t →
    (t.fault = none →
      (∀ x, fetched s = .ldDtV x → t.dt.toNat = (s.reg x).toNat - 1) ∧
      ((∀ x, fetched s ≠ .ldDtV x) → t.dt.toNat = s.dt.toNat - 1) ∧
      (∀ x, fetched s = .ldStV x → t.st.toNat = (s.reg x).toNat - 1) ∧
      ((∀ x, fetched s ≠ .ldStV x) → t.st.toNat = s.st.toNat - 1) ∧
      (∀ x, fetched s = .ldVDt x → t.reg x = s.dt)) ∧
    (t.fault ≠ none → t.dt = s.dt ∧ t.st = s.st)

/-- R98: every word that matches no row is NOP, NOP changes nothing in phase 3, and its step only latches the word, advances pc by 2
and ticks the timers. -/
def Obligations.NopHasOnlyTheCyclesEffect : Prop :=
  (∀ w : Word, (∀ row ∈ opcodeMap, w &&& row.mask ≠ row.pattern) → decode w = .nop w) ∧
  (∀ (w : Word) (s : State), exec (.nop w) s = .next s) ∧
  (∀ (w : Word) (s : State), s.fault = none → s.pc.toNat ≤ 0xFFE → fetched s = .nop w →
    ∃ t, step s = .next t ∧ t.pc.toNat = s.pc.toNat + 2 ∧ t.op = s.byteAt s.pc.toNat ++ s.byteAt (s.pc.toNat + 1) ∧
      t.dt.toNat = s.dt.toNat - 1 ∧ t.st.toNat = s.st.toNat - 1 ∧
      t = { s with pc := t.pc, op := t.op, dt := t.dt, st := t.st })

/-! ## Flow control (41_flow_control.md) -/

/-- R111: RET pops the most recent entry into pc; with an empty stack it raises STACK_UNDERFLOW. -/
def Obligations.RetPopsOrUnderflows : Prop :=
  Encoded 0x000E 0xF00F (fun w => .ret (midByte w)) ∧
  (∀ (m : BitVec 8) (s : State) (j : Fin 16), s.sp.val = j.val + 1 →
    ∃ t, exec (.ret m) s = .next t ∧ t.sp.val = j.val ∧ t.pc = s.stack[j] ∧ Frame { pc := true, sp := true } s t) ∧
  (∀ (m : BitVec 8) (s : State), s.sp.val = 0 → exec (.ret m) s = .next (faulted s .stackUnderflow 0))

/-- R113: CALL pushes the advanced pc and jumps to nnn; with 16 active entries it raises STACK_OVERFLOW. -/
def Obligations.CallPushesOrOverflows : Prop :=
  Encoded 0x2000 0xF000 (fun w => .call (fieldNnn w)) ∧
  (∀ (nnn : BitVec 12) (s : State) (j : Fin 16), s.sp.val = j.val →
    ∃ t, exec (.call nnn) s = .next t ∧ t.stack[j] = s.pc ∧ (∀ k : Fin 16, k ≠ j → t.stack[k] = s.stack[k]) ∧
      t.sp.val = j.val + 1 ∧ t.pc.toNat = nnn.toNat ∧ Frame { pc := true, sp := true, stack := true } s t) ∧
  (∀ (nnn : BitVec 12) (s : State), s.sp.val = 16 → exec (.call nnn) s = .next (faulted s .stackOverflow 16))

/-- R112, R118: JP sets pc to nnn, JP V0 to nnn + V0, with no reduction modulo 4096. -/
def Obligations.JumpsSetThePc : Prop :=
  Encoded 0x1000 0xF000 (fun w => .jp (fieldNnn w)) ∧ Encoded 0xB000 0xF000 (fun w => .jpV0 (fieldNnn w)) ∧
  ∀ (nnn : BitVec 12) (s : State),
    (∃ t, exec (.jp nnn) s = .next t ∧ t.pc.toNat = nnn.toNat ∧ Frame { pc := true } s t) ∧
    (∃ t, exec (.jpV0 nnn) s = .next t ∧ t.pc.toNat = nnn.toNat + (s.reg 0).toNat ∧ Frame { pc := true } s t)

/-- R114 to R117: the skips add 2 to the advanced pc when their condition holds, and change nothing otherwise. -/
def Obligations.SkipsAddTwoToThePc : Prop :=
  Encoded 0x3000 0xF000 (fun w => .seK (fieldX w) (fieldKk w)) ∧ Encoded 0x4000 0xF000 (fun w => .sneK (fieldX w) (fieldKk w)) ∧
  Encoded 0x5000 0xF000 (fun w => .seR (fieldX w) (fieldY w) (lowNibble w)) ∧
  Encoded 0x9000 0xF000 (fun w => .sneR (fieldX w) (fieldY w) (lowNibble w)) ∧
  ∀ (x y : Reg) (kk : Byte) (m : BitVec 4) (s : State),
    (∃ t, exec (.seK x kk) s = .next t ∧ t.pc = (if s.reg x = kk then s.pc + 2 else s.pc) ∧ Frame { pc := true } s t) ∧
    (∃ t, exec (.sneK x kk) s = .next t ∧ t.pc = (if s.reg x = kk then s.pc else s.pc + 2) ∧ Frame { pc := true } s t) ∧
    (∃ t, exec (.seR x y m) s = .next t ∧ t.pc = (if s.reg x = s.reg y then s.pc + 2 else s.pc) ∧ Frame { pc := true } s t) ∧
    (∃ t, exec (.sneR x y m) s = .next t ∧ t.pc = (if s.reg x = s.reg y then s.pc else s.pc + 2) ∧ Frame { pc := true } s t)

/-- The source's property S5, from R111 and R113: a RET that finds the stack as a CALL left it returns to the address after the CALL
and brings sp back. -/
def Obligations.CallThenRetReturns : Prop :=
  ∀ (nnn : BitVec 12) (m : BitVec 8) (s t u : State), s.sp.val < 16 → exec (.call nnn) s = .next t →
    u.stack = t.stack → u.sp = t.sp → ∃ v, exec (.ret m) u = .next v ∧ v.pc = s.pc ∧ v.sp = s.sp

/-! ## Arithmetic, logic and the random byte (42_arith_logic.md) -/

/-- R133, R135: LD Vx, kk and LD Vx, Vy. -/
def Obligations.RegisterLoads : Prop :=
  Encoded 0x6000 0xF000 (fun w => .ldK (fieldX w) (fieldKk w)) ∧ Encoded 0x8000 0xF00F (fun w => .ldR (fieldX w) (fieldY w)) ∧
  ∀ (x y : Reg) (kk : Byte) (s : State),
    (∃ t, exec (.ldK x kk) s = .next t ∧ t.reg x = kk ∧ Frame { regs := [x] } s t) ∧
    (∃ t, exec (.ldR x y) s = .next t ∧ t.reg x = s.reg y ∧ Frame { regs := [x] } s t)

/-- R134: ADD Vx, kk wraps modulo 256 and writes no flag. -/
def Obligations.AddImmediateWraps : Prop :=
  Encoded 0x7000 0xF000 (fun w => .addK (fieldX w) (fieldKk w)) ∧
  ∀ (x : Reg) (kk : Byte) (s : State),
    ∃ t, exec (.addK x kk) s = .next t ∧ (t.reg x).toNat = ((s.reg x).toNat + kk.toNat) % 256 ∧ Frame { regs := [x] } s t

/-- R136 to R138: OR, AND, XOR, bit by bit; with LOGIC_RESETS_VF they leave VF = 0, also when x = F; without it VF is untouched
unless x = F. -/
def Obligations.LogicIsBitwise : Prop :=
  Encoded 0x8001 0xF00F (fun w => .orR (fieldX w) (fieldY w)) ∧ Encoded 0x8002 0xF00F (fun w => .andR (fieldX w) (fieldY w)) ∧
  Encoded 0x8003 0xF00F (fun w => .xorR (fieldX w) (fieldY w)) ∧
  ∀ (x y : Reg) (s : State),
    ∀ op ∈ [(Instr.orR x y, fun a b : Bool => a || b), (Instr.andR x y, fun a b : Bool => a && b),
        (Instr.xorR x y, fun a b : Bool => a != b)],
      ∃ t, exec op.1 s = .next t ∧
        (¬ (s.params.logicResetsVf = true ∧ x = 0xF) →
          ∀ k : Nat, k < 8 → (t.reg x).getLsbD k = op.2 ((s.reg x).getLsbD k) ((s.reg y).getLsbD k)) ∧
        (s.params.logicResetsVf = true → t.reg 0xF = 0) ∧
        Frame { regs := if s.params.logicResetsVf then [x, 0xF] else [x] } s t

/-- R139: ADD Vx, Vy writes the sum modulo 256, and the carry to VF; when x = F the sum lands last (R132). -/
def Obligations.AddSetsCarry : Prop :=
  Encoded 0x8004 0xF00F (fun w => .addR (fieldX w) (fieldY w)) ∧
  ∀ (x y : Reg) (s : State), ∃ t, exec (.addR x y) s = .next t ∧
    (t.reg x).toNat = ((s.reg x).toNat + (s.reg y).toNat) % 256 ∧
    (x ≠ 0xF → (t.reg 0xF).toNat = if 255 < (s.reg x).toNat + (s.reg y).toNat then 1 else 0) ∧
    Frame { regs := [x, 0xF] } s t

/-- R140: SUB Vx, Vy writes VF = 1 exactly when no borrow occurs, and then the difference modulo 256 of the operands as the alias
order reads them (R132). -/
def Obligations.SubSetsNoBorrow : Prop :=
  Encoded 0x8005 0xF00F (fun w => .sub (fieldX w) (fieldY w)) ∧
  ∀ (x y : Reg) (s : State) (flag : Nat), flag = (if (s.reg y).toNat ≤ (s.reg x).toNat then 1 else 0) →
    ∃ t, exec (.sub x y) s = .next t ∧
      (t.reg x).toNat = (afterFlag s x flag + 256 - afterFlag s y flag) % 256 ∧
      (x ≠ 0xF → (t.reg 0xF).toNat = flag) ∧ Frame { regs := [x, 0xF] } s t

/-- R142: SUBN Vx, Vy, with the operands' roles exchanged. -/
def Obligations.SubnSetsNoBorrow : Prop :=
  Encoded 0x8007 0xF00F (fun w => .subn (fieldX w) (fieldY w)) ∧
  ∀ (x y : Reg) (s : State) (flag : Nat), flag = (if (s.reg x).toNat ≤ (s.reg y).toNat then 1 else 0) →
    ∃ t, exec (.subn x y) s = .next t ∧
      (t.reg x).toNat = (afterFlag s y flag + 256 - afterFlag s x flag) % 256 ∧
      (x ≠ 0xF → (t.reg 0xF).toNat = flag) ∧ Frame { regs := [x, 0xF] } s t

/-- R141: SHR shifts the source register right by one into Vx, and VF gets bit 0. -/
def Obligations.ShrShiftsOutBitZero : Prop :=
  Encoded 0x8006 0xF00F (fun w => .shr (fieldX w) (fieldY w)) ∧
  ∀ (x y : Reg) (s : State) (flag : Nat), flag = (s.reg (shifted s x y)).toNat % 2 →
    ∃ t, exec (.shr x y) s = .next t ∧ (t.reg x).toNat = afterFlag s (shifted s x y) flag / 2 ∧
      (x ≠ 0xF → (t.reg 0xF).toNat = flag) ∧ Frame { regs := [x, 0xF] } s t

/-- R143: SHL shifts the source register left by one into Vx, and VF gets bit 7. -/
def Obligations.ShlShiftsOutBitSeven : Prop :=
  Encoded 0x800E 0xF00F (fun w => .shl (fieldX w) (fieldY w)) ∧
  ∀ (x y : Reg) (s : State) (flag : Nat), flag = (s.reg (shifted s x y)).toNat / 128 →
    ∃ t, exec (.shl x y) s = .next t ∧ (t.reg x).toNat = afterFlag s (shifted s x y) flag * 2 % 256 ∧
      (x ≠ 0xF → (t.reg 0xF).toNat = flag) ∧ Frame { regs := [x, 0xF] } s t

/-- R130, R144: RND advances the generator by `state * K + 1` with K odd and writes its top byte AND kk; from state 0 the first byte
is 0 whatever K is. K is a free value (log 4). -/
def Obligations.RndAdvancesTheGenerator : Prop :=
  Encoded 0xC000 0xF000 (fun w => .rnd (fieldX w) (fieldKk w)) ∧ rngMult.toNat % 2 = 1 ∧
  ∀ (x : Reg) (kk : Byte) (s : State), ∃ t, exec (.rnd x kk) s = .next t ∧
    t.rngState.toNat = (s.rngState.toNat * rngMult.toNat + 1) % 2 ^ 64 ∧
    t.reg x = BitVec.ofNat 8 (t.rngState.toNat / 2 ^ 56) &&& kk ∧
    (s.rngState = 0 → t.rngState = 1 ∧ t.reg x = 0) ∧ Frame { regs := [x], rng := true } s t

/-! ## The index register and memory (43_memory_index.md, 20_memory.md) -/

/-- R160 to R162: LD I, ADD I (modulo 65536, no flag) and LD F (the whole byte, no mask). -/
def Obligations.IndexInstructions : Prop :=
  Encoded 0xA000 0xF000 (fun w => .ldI (fieldNnn w)) ∧ Encoded 0xF01E 0xF0FF (fun w => .addI (fieldX w)) ∧
  Encoded 0xF029 0xF0FF (fun w => .ldF (fieldX w)) ∧
  ∀ (nnn : BitVec 12) (x : Reg) (s : State),
    (∃ t, exec (.ldI nnn) s = .next t ∧ t.index.toNat = nnn.toNat ∧ Frame { index := true } s t) ∧
    (∃ t, exec (.addI x) s = .next t ∧ t.index.toNat = (s.index.toNat + (s.reg x).toNat) % 65536 ∧
      Frame { index := true } s t) ∧
    (∃ t, exec (.ldF x) s = .next t ∧ t.index.toNat = 0x050 + 5 * (s.reg x).toNat ∧ Frame { index := true } s t)

/-- R163: LD B stores the hundreds, tens and ones digits of Vx at I, I + 1 and I + 2; past the end of memory it raises
MEM_OUT_OF_RANGE and writes nothing. The memory is canonical, an invariant of the machine (StepKeepsTheInvariant). -/
def Obligations.BcdStore : Prop :=
  Encoded 0xF033 0xF0FF (fun w => .ldB (fieldX w)) ∧
  ∀ (x : Reg) (s : State),
    (s.mem.wf = true → s.index.toNat + 2 ≤ 0xFFF → ∃ t, exec (.ldB x) s = .next t ∧
      (t.byteAt s.index.toNat).toNat = (s.reg x).toNat / 100 ∧
      (t.byteAt (s.index.toNat + 1)).toNat = (s.reg x).toNat / 10 % 10 ∧
      (t.byteAt (s.index.toNat + 2)).toNat = (s.reg x).toNat % 10 ∧ t.mem.wf = true ∧
      Frame { bytes := [s.index.toNat, s.index.toNat + 1, s.index.toNat + 2] } s t) ∧
    (0xFFF < s.index.toNat + 2 → exec (.ldB x) s = .next (faulted s .memOutOfRange (max s.index.toNat 0x1000)))

/-- R164: LD [I], Vx stores V0 to Vx from I up, and advances I only with LOADSTORE_INCREMENTS_I; past the end of memory it raises
MEM_OUT_OF_RANGE and writes nothing. -/
def Obligations.RegisterDump : Prop :=
  Encoded 0xF055 0xF0FF (fun w => .stRegs (fieldX w)) ∧
  ∀ (x : Reg) (s : State),
    (s.mem.wf = true → s.index.toNat + x.val ≤ 0xFFF → ∃ t, exec (.stRegs x) s = .next t ∧
      (∀ k : Reg, k ≤ x → t.byteAt (s.index.toNat + k.val) = s.reg k) ∧ t.mem.wf = true ∧
      t.index = (if s.params.loadStoreIncrementsI then s.index + BitVec.ofNat 16 (x.val + 1) else s.index) ∧
      Frame { bytes := List.range' s.index.toNat (x.val + 1), index := true } s t) ∧
    (0xFFF < s.index.toNat + x.val →
      exec (.stRegs x) s = .next (faulted s .memOutOfRange (max s.index.toNat 0x1000)))

/-- R165: LD Vx, [I] loads V0 to Vx from I up, and advances I only with LOADSTORE_INCREMENTS_I; past the end of memory it raises
MEM_OUT_OF_RANGE and loads nothing. -/
def Obligations.RegisterRestore : Prop :=
  Encoded 0xF065 0xF0FF (fun w => .ldRegs (fieldX w)) ∧
  ∀ (x : Reg) (s : State),
    (s.index.toNat + x.val ≤ 0xFFF → ∃ t, exec (.ldRegs x) s = .next t ∧
      (∀ k : Reg, k ≤ x → t.reg k = s.byteAt (s.index.toNat + k.val)) ∧
      t.index = (if s.params.loadStoreIncrementsI then s.index + BitVec.ofNat 16 (x.val + 1) else s.index) ∧
      Frame { regs := (List.finRange 16).filter (fun k => k ≤ x), index := true } s t) ∧
    (0xFFF < s.index.toNat + x.val →
      exec (.ldRegs x) s = .next (faulted s .memOutOfRange (max s.index.toNat 0x1000)))

/-- R164, R165: loading back from where the registers were dumped gives them back. -/
def Obligations.DumpThenRestore : Prop :=
  ∀ (x : Reg) (s t u : State), s.mem.wf = true → s.index.toNat + x.val ≤ 0xFFF → exec (.stRegs x) s = .next t →
    u.mem = t.mem → u.index = s.index →
    ∃ v, exec (.ldRegs x) u = .next v ∧ (∀ k : Reg, k ≤ x → v.reg k = s.reg k) ∧ ∀ k : Reg, x < k → v.reg k = u.reg k

/-- R63 (an inference the spec marks as its own, "[derived: from rules R55 and R60 ...]"): a store is seen by the next fetch: after
LD [I], Vx the word at I + k is V[k], V[k + 1], big-endian. -/
def Obligations.StoreIsSeenByTheNextFetch : Prop :=
  ∀ (x : Reg) (s t u : State) (k j : Reg), s.mem.wf = true → s.index.toNat + x.val ≤ 0xFFF → exec (.stRegs x) s = .next t →
    j.val = k.val + 1 → j ≤ x → u.mem = t.mem → u.pc.toNat = s.index.toNat + k.val → u.fault = none →
    ∃ v, step u = .next v ∧ (v.fault = none → v.op = s.reg k ++ s.reg j)

/-- R60: a read gives the value of the last write to its address, and a write leaves every other address alone (the memory canonical,
log 6). -/
def Obligations.ReadSeesTheLastWrite : Prop :=
  ∀ (s t : State) (a b : Nat) (v : Byte), s.mem.wf = true → memWrite a v s = .ok t →
    t.mem.wf = true ∧ memRead t b = if b = a then .ok v else memRead s b

/-- Log 6: memories in canonical form that read the same are the same data. -/
def Obligations.CanonicalMemoryIsUnique : Prop :=
  ∀ m n : Memory, m.wf = true → n.wf = true → (∀ a : Nat, a ≤ 0xFFF → m.get a = n.get a) → m = n

/-! ## The display (44_display.md) -/

/-- R183: CLS turns every pixel off and changes nothing else. -/
def Obligations.ClsClearsTheScreen : Prop :=
  Encoded 0x0000 0xF00F (fun w => .cls (midByte w)) ∧
  ∀ (m : BitVec 8) (s : State), ∃ t, exec (.cls m) s = .next t ∧ (∀ p : Pixel, t.vid.pixel p = false) ∧
    Frame { vid := true } s t

/-- R184, R185 (D8): a DRW whose rows are in memory and whose set bits are all placed toggles exactly the pixels of its set bits, and
VF is 1 if a lit pixel was turned off, 0 otherwise. With a row outside memory it raises MEM_OUT_OF_RANGE; else the first set bit in
loop order that is not placed raises SPRITE_OFF_SCREEN; then no pixel and no register changes. -/
def Obligations.DrwDrawsOrFaults : Prop :=
  Encoded 0xD000 0xF000 (fun w => .drw (fieldX w) (fieldY w) (fieldN w)) ∧
  ∀ (x y : Reg) (n : Fin 16) (s : State),
    (rowsInMemory s n → (∀ px py, spriteBit s x y n px py → bitPlaced s.params.offscreen px py) →
      ∃ t, exec (.drw x y n) s = .next t ∧
        (∀ p : Pixel,
          (toggles s x y n p → t.vid.pixel p = !s.vid.pixel p) ∧ (¬ toggles s x y n p → t.vid.pixel p = s.vid.pixel p)) ∧
        ((∃ p, toggles s x y n p ∧ s.vid.pixel p = true) → t.reg 0xF = 1) ∧
        ((¬ ∃ p, toggles s x y n p ∧ s.vid.pixel p = true) → t.reg 0xF = 0) ∧
        Frame { regs := [0xF], vid := true } s t) ∧
    (¬ rowsInMemory s n → exec (.drw x y n) s = .next (faulted s .memOutOfRange (max s.index.toNat 0x1000))) ∧
    (∀ px py : Nat, rowsInMemory s n → spriteBit s x y n px py → ¬ bitPlaced s.params.offscreen px py →
      (∀ qx qy : Nat, spriteBit s x y n qx qy → qy < py ∨ (qy = py ∧ qx < px) → bitPlaced s.params.offscreen qx qy) →
      exec (.drw x y n) s = .next (faulted s .spriteOffScreen (py * 64 + px)))

/-- R184 and the source's property S8: drawing the same sprite twice at the same place restores the video, and the second draw collides
exactly when some pixel of the sprite was unlit before the first; so over a clear screen VF = 1 for a sprite with a pixel. With x or y
F the first draw's flag moves the second sprite, so it is not at the same place; DrwDrawsOrFaults says what each of the two does. -/
def Obligations.DrawingTwiceRestores : Prop :=
  ∀ (x y : Reg) (n : Fin 16) (s : State), x ≠ 0xF → y ≠ 0xF → rowsInMemory s n →
    (∀ px py, spriteBit s x y n px py → bitPlaced s.params.offscreen px py) →
    ∃ t u, exec (.drw x y n) s = .next t ∧ exec (.drw x y n) t = .next u ∧ u.vid = s.vid ∧
      ((∃ p, toggles s x y n p ∧ s.vid.pixel p = false) → u.reg 0xF = 1) ∧
      ((¬ ∃ p, toggles s x y n p ∧ s.vid.pixel p = false) → u.reg 0xF = 0)

/-! ## Keypad and timers (45_input_timers.md) -/

/-- R200, R201: SKP skips when the key Vx names is down, SKNP when it is up; a number above 0xF raises KEY_INDEX_OUT_OF_RANGE. -/
def Obligations.KeySkips : Prop :=
  Encoded 0xE00E 0xF00F (fun w => .skp (fieldX w) (midNibble w)) ∧ Encoded 0xE001 0xF00F (fun w => .sknp (fieldX w) (midNibble w)) ∧
  ∀ (x : Reg) (m : BitVec 4) (s : State),
    (∀ k : Fin 16, (s.reg x).toNat = k.val →
      (∃ t, exec (.skp x m) s = .next t ∧ t.pc = (if s.keys[k] then s.pc + 2 else s.pc) ∧ Frame { pc := true } s t) ∧
      (∃ t, exec (.sknp x m) s = .next t ∧ t.pc = (if s.keys[k] then s.pc else s.pc + 2) ∧ Frame { pc := true } s t)) ∧
    (0xF < (s.reg x).toNat →
      exec (.skp x m) s = .next (faulted s .keyIndexOutOfRange (s.reg x).toNat) ∧
      exec (.sknp x m) s = .next (faulted s .keyIndexOutOfRange (s.reg x).toNat))

/-- R203, R234: LD Vx, K stores the lowest key that is down; with no key down its step leaves pc at the instruction, so the next step
runs it again, while the timers tick. -/
def Obligations.WaitForKey : Prop :=
  Encoded 0xF00A 0xF0FF (fun w => .ldVK (fieldX w)) ∧
  (∀ (x : Reg) (k : Fin 16) (s : State), s.keys[k] = true → (∀ j : Fin 16, j < k → s.keys[j] = false) →
    ∃ t, exec (.ldVK x) s = .next t ∧ (t.reg x).toNat = k.val ∧ Frame { regs := [x] } s t) ∧
  (∀ (x : Reg) (s : State), (∀ k : Fin 16, s.keys[k] = false) →
    ∃ t, exec (.ldVK x) s = .next t ∧ t.pc = s.pc - 2 ∧ Frame { pc := true } s t) ∧
  (∀ (x : Reg) (s : State), s.fault = none → s.pc.toNat ≤ 0xFFE → fetched s = .ldVK x → (∀ k : Fin 16, s.keys[k] = false) →
    ∃ t, step s = .next t ∧ t.pc = s.pc ∧ t.fault = none ∧ (∀ r, t.reg r = s.reg r) ∧
      t.dt.toNat = s.dt.toNat - 1 ∧ t.st.toNat = s.st.toNat - 1)

/-- R202, R204, R205: the transfers between Vx and the timers, and the values the tick of the same cycle leaves. -/
def Obligations.TimerTransfers : Prop :=
  Encoded 0xF007 0xF0FF (fun w => .ldVDt (fieldX w)) ∧ Encoded 0xF015 0xF0FF (fun w => .ldDtV (fieldX w)) ∧
  Encoded 0xF018 0xF0FF (fun w => .ldStV (fieldX w)) ∧
  ∀ (x : Reg) (s : State),
    (∃ t, exec (.ldVDt x) s = .next t ∧ t.reg x = s.dt ∧ Frame { regs := [x] } s t) ∧
    (∃ t, exec (.ldDtV x) s = .next t ∧ t.dt = s.reg x ∧ Frame { dt := true } s t) ∧
    (∃ t, exec (.ldStV x) s = .next t ∧ t.st = s.reg x ∧ Frame { st := true } s t) ∧
    (s.fault = none → s.pc.toNat ≤ 0xFFE →
      (fetched s = .ldVDt x → ∃ t, step s = .next t ∧ t.reg x = s.dt ∧ t.dt.toNat = s.dt.toNat - 1) ∧
      (fetched s = .ldDtV x → ∃ t, step s = .next t ∧ t.dt.toNat = (s.reg x).toNat - 1) ∧
      (fetched s = .ldStV x → ∃ t, step s = .next t ∧ t.st.toNat = (s.reg x).toNat - 1 ∧
        ((outputs t).soundOn = true ↔ 1 < (s.reg x).toNat)))

/-! ## Rules of the whole machine -/

/-- The invariant of the model that every step keeps: canonical memory (log 6), bounded pc and return addresses (C3, R93), and a fault
record that describes the state (R31, R221, R222). -/
def Obligations.StepKeepsTheInvariant : Prop :=
  ∀ s t : State, s.Inv → step s = .next t → t.Inv

/-- The invariant holds at reset. -/
def Obligations.ResetMeetsTheInvariant : Prop :=
  State.reset.Inv

/-- R22, and R35 (an inference the spec marks as its own): a step changes a general register only if its instruction names it as destination or writes it as the flag; VF is written
as a flag by no other instructions. -/
def Obligations.RegistersChangeOnlyAsNamed : Prop :=
  ∀ (s t : State) (r : Reg), step s = .next t → ¬ mayWriteReg s.params (fetched s) r → t.reg r = s.reg r

/-- R50, R58 (inferences the spec marks as its own): only Fx33 and Fx55 change memory, and only the bytes they store to. -/
def Obligations.MemoryChangesOnlyByStores : Prop :=
  ∀ (s t : State) (a : Nat), step s = .next t → t.byteAt a ≠ s.byteAt a →
    (∃ x, fetched s = .ldB x ∧ s.index.toNat ≤ a ∧ a ≤ s.index.toNat + 2) ∨
    (∃ x, fetched s = .stRegs x ∧ s.index.toNat ≤ a ∧ a ≤ s.index.toNat + x.val)

/-- R28, R186: no instruction other than CLS and DRW changes the video. -/
def Obligations.VideoChangesOnlyByClsAndDrw : Prop :=
  ∀ s t : State, step s = .next t → t.vid ≠ s.vid → (∃ m, fetched s = .cls m) ∨ ∃ x y n, fetched s = .drw x y n

/-- R30: the generator's state is advanced only when a random-byte instruction executes. -/
def Obligations.GeneratorAdvancesOnlyInRnd : Prop :=
  ∀ s t : State, step s = .next t → t.rngState ≠ s.rngState → ∃ x kk, fetched s = .rnd x kk

/-- R27: no instruction writes the keypad; and (log 3) none changes the parameters. -/
def Obligations.KeypadBelongsToTheHost : Prop :=
  ∀ s t : State, step s = .next t → t.keys = s.keys ∧ t.params = s.params

/-- R25, and R35 (an inference the spec marks as its own): only CALL changes a stack entry, the one at sp, and only CALL and RET change sp, by one. -/
def Obligations.StackChangesOnlyByCallAndRet : Prop :=
  ∀ s t : State, step s = .next t →
    (∀ j : Fin 16, t.stack[j] ≠ s.stack[j] → s.sp.val = j.val ∧ ∃ nnn, fetched s = .call nnn) ∧
    (t.sp ≠ s.sp → (t.sp.val = s.sp.val + 1 ∧ ∃ nnn, fetched s = .call nnn) ∨
      (t.sp.val + 1 = s.sp.val ∧ ∃ m, fetched s = .ret m))

/-- R23, R35, R166 (inferences the spec marks as its own): I is written by Annn, Fx1E and Fx29, and by Fx55 and Fx65 only with LOADSTORE_INCREMENTS_I. -/
def Obligations.IndexChangesOnlyAsNamed : Prop :=
  ∀ s t : State, step s = .next t → t.index ≠ s.index →
    (∃ nnn, fetched s = .ldI nnn) ∨ (∃ x, fetched s = .addI x ∨ fetched s = .ldF x) ∨
    (s.params.loadStoreIncrementsI = true ∧ ∃ x, fetched s = .stRegs x ∨ fetched s = .ldRegs x)

/-! ## Reset and the host (70_reset_and_hazards.md) -/

/-- R33, R180, R240: every field of the reset state, the font included. The bytes from 0x055 to 0x09F are the model's choice among the
legal values of FONT: the default the spec takes from general knowledge (D19; log 5). -/
def Obligations.ResetState : Prop :=
  (∀ r : Reg, State.reset.reg r = 0) ∧ State.reset.index = 0 ∧ State.reset.pc = 0x200 ∧
  (∀ j : Fin 16, State.reset.stack[j] = 0) ∧ State.reset.sp.val = 0 ∧ State.reset.dt = 0 ∧ State.reset.st = 0 ∧
  (∀ k : Fin 16, State.reset.keys[k] = false) ∧ (∀ p : Pixel, State.reset.vid.pixel p = false) ∧
  State.reset.op = 0 ∧ State.reset.rngState = 0 ∧ State.reset.fault = none ∧
  (∀ a : Nat, a < 0x050 ∨ 0x0A0 ≤ a → State.reset.byteAt a = 0) ∧
  ((List.range 16).map fun d => (List.range 5).map fun r => State.reset.byteAt (0x050 + 5 * d + r)) =
    [[0xF0, 0x90, 0x90, 0x90, 0xF0], [0x20, 0x60, 0x20, 0x20, 0x70], [0xF0, 0x10, 0xF0, 0x80, 0xF0],
     [0xF0, 0x10, 0xF0, 0x10, 0xF0], [0x90, 0x90, 0xF0, 0x10, 0x10], [0xF0, 0x80, 0xF0, 0x10, 0xF0],
     [0xF0, 0x80, 0xF0, 0x90, 0xF0], [0xF0, 0x10, 0x20, 0x40, 0x40], [0xF0, 0x90, 0xF0, 0x90, 0xF0],
     [0xF0, 0x90, 0xF0, 0x10, 0xF0], [0xF0, 0x90, 0xF0, 0x90, 0x90], [0xE0, 0x90, 0xE0, 0x90, 0xE0],
     [0xF0, 0x80, 0x80, 0x80, 0xF0], [0xE0, 0x90, 0x90, 0x90, 0xE0], [0xF0, 0x80, 0xF0, 0x80, 0xF0],
     [0xF0, 0x80, 0xF0, 0x80, 0x80]]

/-- R240, R243 (D19, D31): `create` returns the state to that of R33 whatever it was, with the machine's own font at 0x050: glyph 0
of the source, then the 75 bytes of FONT. With the default FONT that is the reset state. The parameters stay (log 3). -/
def Obligations.CreateResetsTheState : Prop :=
  ∀ s : State, ∃ t, hostAct .create s = .ok t ∧ t = { State.reset with params := s.params, mem := t.mem } ∧ t.mem.wf = true ∧
    (∀ a : Nat, a < 0x050 ∨ 0x0A0 ≤ a → t.byteAt a = 0) ∧
    ((List.range 5).map fun r => t.byteAt (0x050 + r)) = [0xF0, 0x90, 0x90, 0x90, 0xF0] ∧
    (∀ i : Fin 75, t.byteAt (0x055 + i.val) = s.params.font[i]) ∧
    (s.params.font = State.reset.params.font → t = { State.reset with params := s.params })

/-- R244: the ROM's bytes go verbatim to 0x200 and up, and nothing else changes; a ROM of more than 3584 bytes is refused. When the
host may load is its duty, not checked (log 8). -/
def Obligations.RomLoadPlacesItsBytes : Prop :=
  ∀ (rom : List Byte) (s : State),
    (rom.length ≤ 3584 → s.mem.wf = true → ∃ t, hostAct (.loadRom rom) s = .ok t ∧
      (∀ (i : Nat) (h : i < rom.length), t.byteAt (0x200 + i) = rom[i]) ∧
      (∀ a : Nat, a < 0x200 ∨ 0x200 + rom.length ≤ a → t.byteAt a = s.byteAt a) ∧
      t.mem.wf = true ∧ t = { s with mem := t.mem }) ∧
    (3584 < rom.length → hostAct (.loadRom rom) s = .error .romTooLong)

/-- R245, R246: the host's other moves touch only their own field: the write port one byte from 0x200 up, the keypad levels, the seed,
and `random_byte`, which advances the generator as RND does (R130). -/
def Obligations.HostMovesTouchOnlyTheirField : Prop :=
  ∀ s : State,
    (∀ (addr : BitVec 12) (data : Byte), 0x200 ≤ addr.toNat → s.mem.wf = true → ∃ t, hostAct (.writeByte addr data) s = .ok t ∧
      t.byteAt addr.toNat = data ∧ (∀ a, a ≠ addr.toNat → t.byteAt a = s.byteAt a) ∧ t = { s with mem := t.mem }) ∧
    (∀ (addr : BitVec 12) (data : Byte), addr.toNat < 0x200 → hostAct (.writeByte addr data) s = .error .belowEntry) ∧
    (∀ keys : Vector Bool 16, hostAct (.setKeys keys) s = .ok { s with keys := keys }) ∧
    (∀ seed : RngWord, hostAct (.seed seed) s = .ok { s with rngState := seed }) ∧
    (∃ t, hostAct .randomByte s = .ok t ∧ t = { s with rngState := t.rngState } ∧
      t.rngState.toNat = (s.rngState.toNat * rngMult.toNat + 1) % 2 ^ 64 ∧
      (rndByte s).toNat = t.rngState.toNat / 2 ^ 56)

/-- R245, R229: the output signals read the state: pixel (c, r) at bit r * 64 + c of `video`, the tone while ST is not 0, and the fault
record. What the record's signals read without one is not stated (log 10). -/
def Obligations.OutputsReadTheState : Prop :=
  ∀ s : State,
    (∀ (p : Pixel) (k : Fin 2048), k.val = p.2.val * 64 + p.1.val → (outputs s).video[k] = s.vid.pixel p) ∧
    ((outputs s).soundOn = true ↔ s.st ≠ 0) ∧ (outputs s).soundTimer = s.st ∧
    ((outputs s).fault = true ↔ s.fault ≠ none) ∧
    (∀ f, s.fault = some f → (outputs s).faultPc = f.fpc ∧ (∀ w, f.fop = some w → (outputs s).faultOp = w) ∧
      (f.info < 65536 → (outputs s).faultInfo.toNat = f.info) ∧
      (outputs s).faultCode.toNat = match f.code with
        | .fetchOutOfRange => 1
        | .memOutOfRange => 2
        | .stackOverflow => 3
        | .stackUnderflow => 4
        | .keyIndexOutOfRange => 5
        | .spriteOffScreen => 6)

/-- Log 9, from R55 and R242: a word placed where the next step fetches is what it fetches, and a core that could already fetch keeps
everything but its memory. -/
def Obligations.PlacedWordIsFetched : Prop :=
  ∀ (s : State) (w : Nat), w < 65536 → s.mem.wf = true →
    fetched (s.withFetchWord 16 w) = decode (BitVec.ofNat 16 w) ∧ (s.withFetchWord 16 w).fault = none ∧
    (s.withFetchWord 16 w).pc.toNat ≤ 0xFFE ∧ (s.withFetchWord 16 w).mem.wf = true ∧
    (s.fault = none → s.pc.toNat ≤ 0xFFE →
      s.withFetchWord 16 w = { s with mem := (s.withFetchWord 16 w).mem } ∧
      ∀ a, a ≠ s.pc.toNat → a ≠ s.pc.toNat + 1 → (s.withFetchWord 16 w).byteAt a = s.byteAt a)

/-! ## Runs with the host (60_exceptions.md R230, 70_reset_and_hazards.md R250) -/

/-- R203, R230: the keypad is the input of each step: LD Vx, K waits through any number of steps with no key down, and in the step
whose keypad has one it stores the lowest. The state is then that of before, with the timers one tick a step lower, the keypad the
host's last, and the word latched. -/
def Obligations.KeyWaitTakesTheKeypadOfItsStep : Prop :=
  ∀ (x : Reg) (k : Fin 16) (keys : Vector Bool 16) (n : Nat) (s : State), s.fault = none → s.pc.toNat ≤ 0xFFE →
    fetched s = .ldVK x → keys[k] = true → (∀ j : Fin 16, j < k → keys[j] = false) →
    reaches (keypads (List.replicate n (Vector.replicate 16 false) ++ [keys])) s
      { s with
        v := (s.setReg x (BitVec.ofNat 8 k.val)).v
        pc := s.pc + 2
        op := s.byteAt s.pc.toNat ++ s.byteAt (s.pc.toNat + 1)
        keys := keys
        dt := BitVec.ofNat 8 (s.dt.toNat - (n + 1))
        st := BitVec.ofNat 8 (s.st.toNat - (n + 1)) }

/-- R230: Ex9E, ExA1 and Fx0A read the keypad, and no other step depends on it: with another keypad it leaves the same state but for
the keypad. -/
def Obligations.OnlyKeyInstructionsReadTheKeypad : Prop :=
  ∀ (s t : State) (keys : Vector Bool 16), (∀ x m, fetched s ≠ .skp x m) → (∀ x m, fetched s ≠ .sknp x m) →
    (∀ x, fetched s ≠ .ldVK x) → step s = .next t → step { s with keys := keys } = .next { t with keys := keys }

/-- A run with its host, whatever moves the host makes, `create` and the ROM load among them (R246), leads from a state that meets the
invariant of StepKeepsTheInvariant to one that does. -/
def Obligations.HostedRunKeepsTheInvariant : Prop :=
  ∀ (h : Schedule) (s t : State), s.Inv → reaches h s t → t.Inv
end

