-- ==== Sys2Proof/Laws/Encoding.lean ====
section
/-! SUPPORT. The fields of a word, as numbers and as bits (30_encoding.md R71, R72), and what the masks of R83 fix. -/

namespace Sys2Proof

/-- An append, in numbers. -/
theorem toNat_append_add {n m : Nat} (x : BitVec n) (y : BitVec m) : (x ++ y).toNat = x.toNat * 2 ^ m + y.toNat := by
  rw [BitVec.toNat_append, ← Nat.shiftLeft_add_eq_or_of_lt y.isLt, Nat.shiftLeft_eq]

@[simp] theorem regBits_toFin (r : Fin 16) : (regBits r).toFin = r := rfl
@[simp] theorem regBits_toNat (r : Fin 16) : (regBits r).toNat = r.val := rfl

/-! ## The fields in numbers (R71) -/

theorem family_toNat (w : Word) : (family w).toNat = w.toNat / 4096 := by
  have := w.isLt
  simp only [family, BitVec.extractLsb'_toNat, Nat.shiftRight_eq_div_pow]
  omega

theorem fieldX_val (w : Word) : (fieldX w).val = w.toNat / 256 % 16 := by
  have h : (fieldX w).val = (w.extractLsb' 8 4).toNat := rfl
  rw [h, BitVec.extractLsb'_toNat, Nat.shiftRight_eq_div_pow]

theorem fieldY_val (w : Word) : (fieldY w).val = w.toNat / 16 % 16 := by
  have h : (fieldY w).val = (w.extractLsb' 4 4).toNat := rfl
  rw [h, BitVec.extractLsb'_toNat, Nat.shiftRight_eq_div_pow]

theorem fieldN_val (w : Word) : (fieldN w).val = w.toNat % 16 := by
  have h : (fieldN w).val = (w.extractLsb' 0 4).toNat := rfl
  rw [h, BitVec.extractLsb'_toNat, Nat.shiftRight_eq_div_pow]
  simp

theorem lowNibble_toNat (w : Word) : (lowNibble w).toNat = w.toNat % 16 := by
  simp [lowNibble, BitVec.extractLsb'_toNat]

theorem midNibble_toNat (w : Word) : (midNibble w).toNat = w.toNat / 16 % 16 := by
  simp [midNibble, BitVec.extractLsb'_toNat, Nat.shiftRight_eq_div_pow]

theorem midByte_toNat (w : Word) : (midByte w).toNat = w.toNat / 16 % 256 := by
  simp [midByte, BitVec.extractLsb'_toNat, Nat.shiftRight_eq_div_pow]

theorem fieldKk_toNat (w : Word) : (fieldKk w).toNat = w.toNat % 256 := by
  simp [fieldKk, BitVec.extractLsb'_toNat]

theorem fieldNnn_toNat (w : Word) : (fieldNnn w).toNat = w.toNat % 4096 := by
  simp [fieldNnn, BitVec.extractLsb'_toNat]

/-! ## The fields of a word put together from fields (R72) -/

section Shapes
variable (f x y d : BitVec 4) (m : BitVec 8) (nnn : BitVec 12)

@[simp] theorem family_xyd : family (f ++ x ++ y ++ d) = f := by
  apply BitVec.eq_of_toNat_eq
  rw [family_toNat]
  simp only [toNat_append_add]
  omega

@[simp] theorem fieldX_xyd : fieldX (f ++ x ++ y ++ d) = x.toFin := by
  apply Fin.ext
  rw [fieldX_val]
  have := x.isLt; have := y.isLt; have := d.isLt
  simp only [toNat_append_add, BitVec.val_toFin]
  omega

@[simp] theorem fieldY_xyd : fieldY (f ++ x ++ y ++ d) = y.toFin := by
  apply Fin.ext
  rw [fieldY_val]
  have := y.isLt; have := d.isLt
  simp only [toNat_append_add, BitVec.val_toFin]
  omega

@[simp] theorem fieldN_xyd : fieldN (f ++ x ++ y ++ d) = d.toFin := by
  apply Fin.ext
  rw [fieldN_val]
  have := d.isLt
  simp only [toNat_append_add, BitVec.val_toFin]
  omega

@[simp] theorem midNibble_xyd : midNibble (f ++ x ++ y ++ d) = y := by
  apply BitVec.eq_of_toNat_eq
  rw [midNibble_toNat]
  have := y.isLt; have := d.isLt
  simp only [toNat_append_add]
  omega

@[simp] theorem lowNibble_xyd : lowNibble (f ++ x ++ y ++ d) = d := by
  apply BitVec.eq_of_toNat_eq
  rw [lowNibble_toNat]
  have := d.isLt
  simp only [toNat_append_add]
  omega

@[simp] theorem family_xkk : family (f ++ x ++ m) = f := by
  apply BitVec.eq_of_toNat_eq
  rw [family_toNat]
  have := x.isLt; have := m.isLt
  simp only [toNat_append_add]
  omega

@[simp] theorem fieldX_xkk : fieldX (f ++ x ++ m) = x.toFin := by
  apply Fin.ext
  rw [fieldX_val]
  have := x.isLt; have := m.isLt
  simp only [toNat_append_add, BitVec.val_toFin]
  omega

@[simp] theorem fieldKk_xkk : fieldKk (f ++ x ++ m) = m := by
  apply BitVec.eq_of_toNat_eq
  rw [fieldKk_toNat]
  have := m.isLt
  simp only [toNat_append_add]
  omega

@[simp] theorem family_nnn : family (f ++ nnn) = f := by
  apply BitVec.eq_of_toNat_eq
  rw [family_toNat]
  have := nnn.isLt
  simp only [toNat_append_add]
  omega

@[simp] theorem fieldNnn_nnn : fieldNnn (f ++ nnn) = nnn := by
  apply BitVec.eq_of_toNat_eq
  rw [fieldNnn_toNat]
  have := nnn.isLt
  simp only [toNat_append_add]
  omega

@[simp] theorem family_md : family (f ++ m ++ d) = f := by
  apply BitVec.eq_of_toNat_eq
  rw [family_toNat]
  have := m.isLt; have := d.isLt
  simp only [toNat_append_add]
  omega

@[simp] theorem midByte_md : midByte (f ++ m ++ d) = m := by
  apply BitVec.eq_of_toNat_eq
  rw [midByte_toNat]
  have := m.isLt; have := d.isLt
  simp only [toNat_append_add]
  omega

@[simp] theorem lowNibble_md : lowNibble (f ++ m ++ d) = d := by
  apply BitVec.eq_of_toNat_eq
  rw [lowNibble_toNat]
  have := d.isLt
  simp only [toNat_append_add]
  omega

end Shapes

/-! ## What the masks of the opcode map fix (R83) -/

theorem masked_family (w : Word) : w &&& 0xF000 = family w ++ 0#12 := by
  apply BitVec.eq_of_getLsbD_eq
  intro i hi
  rw [BitVec.getLsbD_and, BitVec.getLsbD_append, family]
  interval_cases i <;> simp

theorem masked_family_nibble (w : Word) : w &&& 0xF00F = family w ++ 0#8 ++ lowNibble w := by
  apply BitVec.eq_of_getLsbD_eq
  intro i hi
  rw [BitVec.getLsbD_and, BitVec.getLsbD_append, BitVec.getLsbD_append, family, lowNibble]
  interval_cases i <;> simp

theorem masked_family_byte (w : Word) : w &&& 0xF0FF = family w ++ 0#4 ++ fieldKk w := by
  apply BitVec.eq_of_getLsbD_eq
  intro i hi
  rw [BitVec.getLsbD_and, BitVec.getLsbD_append, BitVec.getLsbD_append, family, fieldKk]
  interval_cases i <;> simp

/-- A mask of 0xF000 fixes the family. -/
theorem masked_family_iff (w p : Word) (hp : p.toNat % 4096 = 0) :
    w &&& 0xF000 = p ↔ (family w).toNat = p.toNat / 4096 := by
  rw [masked_family, ← BitVec.toNat_inj, toNat_append_add]
  have : (0#12).toNat = 0 := rfl
  omega

/-- A mask of 0xF00F fixes the family and the low nibble. -/
theorem masked_family_nibble_iff (w p : Word) (hp : p.toNat / 16 % 256 = 0) :
    w &&& 0xF00F = p ↔ (family w).toNat = p.toNat / 4096 ∧ (lowNibble w).toNat = p.toNat % 16 := by
  rw [masked_family_nibble, ← BitVec.toNat_inj, toNat_append_add, toNat_append_add]
  have : (0#8).toNat = 0 := rfl
  have := (lowNibble w).isLt
  omega

/-- A mask of 0xF0FF fixes the family and the low byte. -/
theorem masked_family_byte_iff (w p : Word) (hp : p.toNat / 256 % 16 = 0) :
    w &&& 0xF0FF = p ↔ (family w).toNat = p.toNat / 4096 ∧ (fieldKk w).toNat = p.toNat % 256 := by
  rw [masked_family_byte, ← BitVec.toNat_inj, toNat_append_add, toNat_append_add]
  have : (0#4).toNat = 0 := rfl
  have := (fieldKk w).isLt
  omega

end Sys2Proof
end

