-- ==== Sys2Proof/Laws/State.lean ====
section
/-! SUPPORT. What each update of State does to each field: one lemma a field and update, true by unfolding, so that no proof
unfolds a record update. -/

namespace Sys2Proof.Machine

variable (s : State)

/-! ## setReg -/

@[simp] theorem State.setReg_v (r : Reg) (b : Byte) : (s.setReg r b).v = s.v.set r b := rfl
@[simp] theorem State.setReg_mem (r : Reg) (b : Byte) : (s.setReg r b).mem = s.mem := rfl
@[simp] theorem State.setReg_index (r : Reg) (b : Byte) : (s.setReg r b).index = s.index := rfl
@[simp] theorem State.setReg_pc (r : Reg) (b : Byte) : (s.setReg r b).pc = s.pc := rfl
@[simp] theorem State.setReg_stack (r : Reg) (b : Byte) : (s.setReg r b).stack = s.stack := rfl
@[simp] theorem State.setReg_sp (r : Reg) (b : Byte) : (s.setReg r b).sp = s.sp := rfl
@[simp] theorem State.setReg_dt (r : Reg) (b : Byte) : (s.setReg r b).dt = s.dt := rfl
@[simp] theorem State.setReg_st (r : Reg) (b : Byte) : (s.setReg r b).st = s.st := rfl
@[simp] theorem State.setReg_keys (r : Reg) (b : Byte) : (s.setReg r b).keys = s.keys := rfl
@[simp] theorem State.setReg_vid (r : Reg) (b : Byte) : (s.setReg r b).vid = s.vid := rfl
@[simp] theorem State.setReg_op (r : Reg) (b : Byte) : (s.setReg r b).op = s.op := rfl
@[simp] theorem State.setReg_rngState (r : Reg) (b : Byte) : (s.setReg r b).rngState = s.rngState := rfl
@[simp] theorem State.setReg_fault (r : Reg) (b : Byte) : (s.setReg r b).fault = s.fault := rfl
@[simp] theorem State.setReg_params (r : Reg) (b : Byte) : (s.setReg r b).params = s.params := rfl
@[simp] theorem State.setReg_byteAt (r : Reg) (b : Byte) (q : Nat) : (s.setReg r b).byteAt q = s.byteAt q := rfl

/-! ## setIndex -/

@[simp] theorem State.setIndex_v (w : Word) : (s.setIndex w).v = s.v := rfl
@[simp] theorem State.setIndex_mem (w : Word) : (s.setIndex w).mem = s.mem := rfl
@[simp] theorem State.setIndex_index (w : Word) : (s.setIndex w).index = w := rfl
@[simp] theorem State.setIndex_pc (w : Word) : (s.setIndex w).pc = s.pc := rfl
@[simp] theorem State.setIndex_stack (w : Word) : (s.setIndex w).stack = s.stack := rfl
@[simp] theorem State.setIndex_sp (w : Word) : (s.setIndex w).sp = s.sp := rfl
@[simp] theorem State.setIndex_dt (w : Word) : (s.setIndex w).dt = s.dt := rfl
@[simp] theorem State.setIndex_st (w : Word) : (s.setIndex w).st = s.st := rfl
@[simp] theorem State.setIndex_keys (w : Word) : (s.setIndex w).keys = s.keys := rfl
@[simp] theorem State.setIndex_vid (w : Word) : (s.setIndex w).vid = s.vid := rfl
@[simp] theorem State.setIndex_op (w : Word) : (s.setIndex w).op = s.op := rfl
@[simp] theorem State.setIndex_rngState (w : Word) : (s.setIndex w).rngState = s.rngState := rfl
@[simp] theorem State.setIndex_fault (w : Word) : (s.setIndex w).fault = s.fault := rfl
@[simp] theorem State.setIndex_params (w : Word) : (s.setIndex w).params = s.params := rfl
@[simp] theorem State.setIndex_reg (w : Word) (q : Reg) : (s.setIndex w).reg q = s.reg q := rfl
@[simp] theorem State.setIndex_byteAt (w : Word) (q : Nat) : (s.setIndex w).byteAt q = s.byteAt q := rfl

/-! ## setPc -/

@[simp] theorem State.setPc_v (w : Word) : (s.setPc w).v = s.v := rfl
@[simp] theorem State.setPc_mem (w : Word) : (s.setPc w).mem = s.mem := rfl
@[simp] theorem State.setPc_index (w : Word) : (s.setPc w).index = s.index := rfl
@[simp] theorem State.setPc_pc (w : Word) : (s.setPc w).pc = w := rfl
@[simp] theorem State.setPc_stack (w : Word) : (s.setPc w).stack = s.stack := rfl
@[simp] theorem State.setPc_sp (w : Word) : (s.setPc w).sp = s.sp := rfl
@[simp] theorem State.setPc_dt (w : Word) : (s.setPc w).dt = s.dt := rfl
@[simp] theorem State.setPc_st (w : Word) : (s.setPc w).st = s.st := rfl
@[simp] theorem State.setPc_keys (w : Word) : (s.setPc w).keys = s.keys := rfl
@[simp] theorem State.setPc_vid (w : Word) : (s.setPc w).vid = s.vid := rfl
@[simp] theorem State.setPc_op (w : Word) : (s.setPc w).op = s.op := rfl
@[simp] theorem State.setPc_rngState (w : Word) : (s.setPc w).rngState = s.rngState := rfl
@[simp] theorem State.setPc_fault (w : Word) : (s.setPc w).fault = s.fault := rfl
@[simp] theorem State.setPc_params (w : Word) : (s.setPc w).params = s.params := rfl
@[simp] theorem State.setPc_reg (w : Word) (q : Reg) : (s.setPc w).reg q = s.reg q := rfl
@[simp] theorem State.setPc_byteAt (w : Word) (q : Nat) : (s.setPc w).byteAt q = s.byteAt q := rfl

/-! ## setDt -/

@[simp] theorem State.setDt_v (b : Byte) : (s.setDt b).v = s.v := rfl
@[simp] theorem State.setDt_mem (b : Byte) : (s.setDt b).mem = s.mem := rfl
@[simp] theorem State.setDt_index (b : Byte) : (s.setDt b).index = s.index := rfl
@[simp] theorem State.setDt_pc (b : Byte) : (s.setDt b).pc = s.pc := rfl
@[simp] theorem State.setDt_stack (b : Byte) : (s.setDt b).stack = s.stack := rfl
@[simp] theorem State.setDt_sp (b : Byte) : (s.setDt b).sp = s.sp := rfl
@[simp] theorem State.setDt_dt (b : Byte) : (s.setDt b).dt = b := rfl
@[simp] theorem State.setDt_st (b : Byte) : (s.setDt b).st = s.st := rfl
@[simp] theorem State.setDt_keys (b : Byte) : (s.setDt b).keys = s.keys := rfl
@[simp] theorem State.setDt_vid (b : Byte) : (s.setDt b).vid = s.vid := rfl
@[simp] theorem State.setDt_op (b : Byte) : (s.setDt b).op = s.op := rfl
@[simp] theorem State.setDt_rngState (b : Byte) : (s.setDt b).rngState = s.rngState := rfl
@[simp] theorem State.setDt_fault (b : Byte) : (s.setDt b).fault = s.fault := rfl
@[simp] theorem State.setDt_params (b : Byte) : (s.setDt b).params = s.params := rfl
@[simp] theorem State.setDt_reg (b : Byte) (q : Reg) : (s.setDt b).reg q = s.reg q := rfl
@[simp] theorem State.setDt_byteAt (b : Byte) (q : Nat) : (s.setDt b).byteAt q = s.byteAt q := rfl

/-! ## setSt -/

@[simp] theorem State.setSt_v (b : Byte) : (s.setSt b).v = s.v := rfl
@[simp] theorem State.setSt_mem (b : Byte) : (s.setSt b).mem = s.mem := rfl
@[simp] theorem State.setSt_index (b : Byte) : (s.setSt b).index = s.index := rfl
@[simp] theorem State.setSt_pc (b : Byte) : (s.setSt b).pc = s.pc := rfl
@[simp] theorem State.setSt_stack (b : Byte) : (s.setSt b).stack = s.stack := rfl
@[simp] theorem State.setSt_sp (b : Byte) : (s.setSt b).sp = s.sp := rfl
@[simp] theorem State.setSt_dt (b : Byte) : (s.setSt b).dt = s.dt := rfl
@[simp] theorem State.setSt_st (b : Byte) : (s.setSt b).st = b := rfl
@[simp] theorem State.setSt_keys (b : Byte) : (s.setSt b).keys = s.keys := rfl
@[simp] theorem State.setSt_vid (b : Byte) : (s.setSt b).vid = s.vid := rfl
@[simp] theorem State.setSt_op (b : Byte) : (s.setSt b).op = s.op := rfl
@[simp] theorem State.setSt_rngState (b : Byte) : (s.setSt b).rngState = s.rngState := rfl
@[simp] theorem State.setSt_fault (b : Byte) : (s.setSt b).fault = s.fault := rfl
@[simp] theorem State.setSt_params (b : Byte) : (s.setSt b).params = s.params := rfl
@[simp] theorem State.setSt_reg (b : Byte) (q : Reg) : (s.setSt b).reg q = s.reg q := rfl
@[simp] theorem State.setSt_byteAt (b : Byte) (q : Nat) : (s.setSt b).byteAt q = s.byteAt q := rfl

/-! ## setOp -/

@[simp] theorem State.setOp_v (w : Word) : (s.setOp w).v = s.v := rfl
@[simp] theorem State.setOp_mem (w : Word) : (s.setOp w).mem = s.mem := rfl
@[simp] theorem State.setOp_index (w : Word) : (s.setOp w).index = s.index := rfl
@[simp] theorem State.setOp_pc (w : Word) : (s.setOp w).pc = s.pc := rfl
@[simp] theorem State.setOp_stack (w : Word) : (s.setOp w).stack = s.stack := rfl
@[simp] theorem State.setOp_sp (w : Word) : (s.setOp w).sp = s.sp := rfl
@[simp] theorem State.setOp_dt (w : Word) : (s.setOp w).dt = s.dt := rfl
@[simp] theorem State.setOp_st (w : Word) : (s.setOp w).st = s.st := rfl
@[simp] theorem State.setOp_keys (w : Word) : (s.setOp w).keys = s.keys := rfl
@[simp] theorem State.setOp_vid (w : Word) : (s.setOp w).vid = s.vid := rfl
@[simp] theorem State.setOp_op (w : Word) : (s.setOp w).op = w := rfl
@[simp] theorem State.setOp_rngState (w : Word) : (s.setOp w).rngState = s.rngState := rfl
@[simp] theorem State.setOp_fault (w : Word) : (s.setOp w).fault = s.fault := rfl
@[simp] theorem State.setOp_params (w : Word) : (s.setOp w).params = s.params := rfl
@[simp] theorem State.setOp_reg (w : Word) (q : Reg) : (s.setOp w).reg q = s.reg q := rfl
@[simp] theorem State.setOp_byteAt (w : Word) (q : Nat) : (s.setOp w).byteAt q = s.byteAt q := rfl

/-! ## setVid -/

@[simp] theorem State.setVid_v (g : Video) : (s.setVid g).v = s.v := rfl
@[simp] theorem State.setVid_mem (g : Video) : (s.setVid g).mem = s.mem := rfl
@[simp] theorem State.setVid_index (g : Video) : (s.setVid g).index = s.index := rfl
@[simp] theorem State.setVid_pc (g : Video) : (s.setVid g).pc = s.pc := rfl
@[simp] theorem State.setVid_stack (g : Video) : (s.setVid g).stack = s.stack := rfl
@[simp] theorem State.setVid_sp (g : Video) : (s.setVid g).sp = s.sp := rfl
@[simp] theorem State.setVid_dt (g : Video) : (s.setVid g).dt = s.dt := rfl
@[simp] theorem State.setVid_st (g : Video) : (s.setVid g).st = s.st := rfl
@[simp] theorem State.setVid_keys (g : Video) : (s.setVid g).keys = s.keys := rfl
@[simp] theorem State.setVid_vid (g : Video) : (s.setVid g).vid = g := rfl
@[simp] theorem State.setVid_op (g : Video) : (s.setVid g).op = s.op := rfl
@[simp] theorem State.setVid_rngState (g : Video) : (s.setVid g).rngState = s.rngState := rfl
@[simp] theorem State.setVid_fault (g : Video) : (s.setVid g).fault = s.fault := rfl
@[simp] theorem State.setVid_params (g : Video) : (s.setVid g).params = s.params := rfl
@[simp] theorem State.setVid_reg (g : Video) (q : Reg) : (s.setVid g).reg q = s.reg q := rfl
@[simp] theorem State.setVid_byteAt (g : Video) (q : Nat) : (s.setVid g).byteAt q = s.byteAt q := rfl

/-! ## setMem -/

@[simp] theorem State.setMem_v (m : Memory) : (s.setMem m).v = s.v := rfl
@[simp] theorem State.setMem_mem (m : Memory) : (s.setMem m).mem = m := rfl
@[simp] theorem State.setMem_index (m : Memory) : (s.setMem m).index = s.index := rfl
@[simp] theorem State.setMem_pc (m : Memory) : (s.setMem m).pc = s.pc := rfl
@[simp] theorem State.setMem_stack (m : Memory) : (s.setMem m).stack = s.stack := rfl
@[simp] theorem State.setMem_sp (m : Memory) : (s.setMem m).sp = s.sp := rfl
@[simp] theorem State.setMem_dt (m : Memory) : (s.setMem m).dt = s.dt := rfl
@[simp] theorem State.setMem_st (m : Memory) : (s.setMem m).st = s.st := rfl
@[simp] theorem State.setMem_keys (m : Memory) : (s.setMem m).keys = s.keys := rfl
@[simp] theorem State.setMem_vid (m : Memory) : (s.setMem m).vid = s.vid := rfl
@[simp] theorem State.setMem_op (m : Memory) : (s.setMem m).op = s.op := rfl
@[simp] theorem State.setMem_rngState (m : Memory) : (s.setMem m).rngState = s.rngState := rfl
@[simp] theorem State.setMem_fault (m : Memory) : (s.setMem m).fault = s.fault := rfl
@[simp] theorem State.setMem_params (m : Memory) : (s.setMem m).params = s.params := rfl
@[simp] theorem State.setMem_reg (m : Memory) (q : Reg) : (s.setMem m).reg q = s.reg q := rfl

/-! ## setRng -/

@[simp] theorem State.setRng_v (w : RngWord) : (s.setRng w).v = s.v := rfl
@[simp] theorem State.setRng_mem (w : RngWord) : (s.setRng w).mem = s.mem := rfl
@[simp] theorem State.setRng_index (w : RngWord) : (s.setRng w).index = s.index := rfl
@[simp] theorem State.setRng_pc (w : RngWord) : (s.setRng w).pc = s.pc := rfl
@[simp] theorem State.setRng_stack (w : RngWord) : (s.setRng w).stack = s.stack := rfl
@[simp] theorem State.setRng_sp (w : RngWord) : (s.setRng w).sp = s.sp := rfl
@[simp] theorem State.setRng_dt (w : RngWord) : (s.setRng w).dt = s.dt := rfl
@[simp] theorem State.setRng_st (w : RngWord) : (s.setRng w).st = s.st := rfl
@[simp] theorem State.setRng_keys (w : RngWord) : (s.setRng w).keys = s.keys := rfl
@[simp] theorem State.setRng_vid (w : RngWord) : (s.setRng w).vid = s.vid := rfl
@[simp] theorem State.setRng_op (w : RngWord) : (s.setRng w).op = s.op := rfl
@[simp] theorem State.setRng_rngState (w : RngWord) : (s.setRng w).rngState = w := rfl
@[simp] theorem State.setRng_fault (w : RngWord) : (s.setRng w).fault = s.fault := rfl
@[simp] theorem State.setRng_params (w : RngWord) : (s.setRng w).params = s.params := rfl
@[simp] theorem State.setRng_reg (w : RngWord) (q : Reg) : (s.setRng w).reg q = s.reg q := rfl
@[simp] theorem State.setRng_byteAt (w : RngWord) (q : Nat) : (s.setRng w).byteAt q = s.byteAt q := rfl

/-! ## setByte -/

@[simp] theorem State.setByte_v (a : Nat) (b : Byte) : (s.setByte a b).v = s.v := rfl
@[simp] theorem State.setByte_mem (a : Nat) (b : Byte) : (s.setByte a b).mem = s.mem.set a b := rfl
@[simp] theorem State.setByte_index (a : Nat) (b : Byte) : (s.setByte a b).index = s.index := rfl
@[simp] theorem State.setByte_pc (a : Nat) (b : Byte) : (s.setByte a b).pc = s.pc := rfl
@[simp] theorem State.setByte_stack (a : Nat) (b : Byte) : (s.setByte a b).stack = s.stack := rfl
@[simp] theorem State.setByte_sp (a : Nat) (b : Byte) : (s.setByte a b).sp = s.sp := rfl
@[simp] theorem State.setByte_dt (a : Nat) (b : Byte) : (s.setByte a b).dt = s.dt := rfl
@[simp] theorem State.setByte_st (a : Nat) (b : Byte) : (s.setByte a b).st = s.st := rfl
@[simp] theorem State.setByte_keys (a : Nat) (b : Byte) : (s.setByte a b).keys = s.keys := rfl
@[simp] theorem State.setByte_vid (a : Nat) (b : Byte) : (s.setByte a b).vid = s.vid := rfl
@[simp] theorem State.setByte_op (a : Nat) (b : Byte) : (s.setByte a b).op = s.op := rfl
@[simp] theorem State.setByte_rngState (a : Nat) (b : Byte) : (s.setByte a b).rngState = s.rngState := rfl
@[simp] theorem State.setByte_fault (a : Nat) (b : Byte) : (s.setByte a b).fault = s.fault := rfl
@[simp] theorem State.setByte_params (a : Nat) (b : Byte) : (s.setByte a b).params = s.params := rfl
@[simp] theorem State.setByte_reg (a : Nat) (b : Byte) (q : Reg) : (s.setByte a b).reg q = s.reg q := rfl

/-! ## setVf -/

@[simp] theorem State.setVf_v (b : Bool) : (s.setVf b).v = s.v.set regF (boolByte b) := rfl
@[simp] theorem State.setVf_mem (b : Bool) : (s.setVf b).mem = s.mem := rfl
@[simp] theorem State.setVf_index (b : Bool) : (s.setVf b).index = s.index := rfl
@[simp] theorem State.setVf_pc (b : Bool) : (s.setVf b).pc = s.pc := rfl
@[simp] theorem State.setVf_stack (b : Bool) : (s.setVf b).stack = s.stack := rfl
@[simp] theorem State.setVf_sp (b : Bool) : (s.setVf b).sp = s.sp := rfl
@[simp] theorem State.setVf_dt (b : Bool) : (s.setVf b).dt = s.dt := rfl
@[simp] theorem State.setVf_st (b : Bool) : (s.setVf b).st = s.st := rfl
@[simp] theorem State.setVf_keys (b : Bool) : (s.setVf b).keys = s.keys := rfl
@[simp] theorem State.setVf_vid (b : Bool) : (s.setVf b).vid = s.vid := rfl
@[simp] theorem State.setVf_op (b : Bool) : (s.setVf b).op = s.op := rfl
@[simp] theorem State.setVf_rngState (b : Bool) : (s.setVf b).rngState = s.rngState := rfl
@[simp] theorem State.setVf_fault (b : Bool) : (s.setVf b).fault = s.fault := rfl
@[simp] theorem State.setVf_params (b : Bool) : (s.setVf b).params = s.params := rfl
@[simp] theorem State.setVf_byteAt (b : Bool) (q : Nat) : (s.setVf b).byteAt q = s.byteAt q := rfl

/-! ## enterFault -/

@[simp] theorem State.enterFault_v (f : FaultRecord) : (s.enterFault f).v = s.v := rfl
@[simp] theorem State.enterFault_mem (f : FaultRecord) : (s.enterFault f).mem = s.mem := rfl
@[simp] theorem State.enterFault_index (f : FaultRecord) : (s.enterFault f).index = s.index := rfl
@[simp] theorem State.enterFault_pc (f : FaultRecord) : (s.enterFault f).pc = s.pc := rfl
@[simp] theorem State.enterFault_stack (f : FaultRecord) : (s.enterFault f).stack = s.stack := rfl
@[simp] theorem State.enterFault_sp (f : FaultRecord) : (s.enterFault f).sp = s.sp := rfl
@[simp] theorem State.enterFault_dt (f : FaultRecord) : (s.enterFault f).dt = s.dt := rfl
@[simp] theorem State.enterFault_st (f : FaultRecord) : (s.enterFault f).st = s.st := rfl
@[simp] theorem State.enterFault_keys (f : FaultRecord) : (s.enterFault f).keys = s.keys := rfl
@[simp] theorem State.enterFault_vid (f : FaultRecord) : (s.enterFault f).vid = s.vid := rfl
@[simp] theorem State.enterFault_op (f : FaultRecord) : (s.enterFault f).op = s.op := rfl
@[simp] theorem State.enterFault_rngState (f : FaultRecord) : (s.enterFault f).rngState = s.rngState := rfl
@[simp] theorem State.enterFault_fault (f : FaultRecord) : (s.enterFault f).fault = some f := rfl
@[simp] theorem State.enterFault_params (f : FaultRecord) : (s.enterFault f).params = s.params := rfl
@[simp] theorem State.enterFault_reg (f : FaultRecord) (q : Reg) : (s.enterFault f).reg q = s.reg q := rfl
@[simp] theorem State.enterFault_byteAt (f : FaultRecord) (q : Nat) : (s.enterFault f).byteAt q = s.byteAt q := rfl

/-! ## raise -/

@[simp] theorem State.raise_v (r : Raise) : (s.raise r).v = s.v := rfl
@[simp] theorem State.raise_mem (r : Raise) : (s.raise r).mem = s.mem := rfl
@[simp] theorem State.raise_index (r : Raise) : (s.raise r).index = s.index := rfl
@[simp] theorem State.raise_pc (r : Raise) : (s.raise r).pc = s.pc := rfl
@[simp] theorem State.raise_stack (r : Raise) : (s.raise r).stack = s.stack := rfl
@[simp] theorem State.raise_sp (r : Raise) : (s.raise r).sp = s.sp := rfl
@[simp] theorem State.raise_dt (r : Raise) : (s.raise r).dt = s.dt := rfl
@[simp] theorem State.raise_st (r : Raise) : (s.raise r).st = s.st := rfl
@[simp] theorem State.raise_keys (r : Raise) : (s.raise r).keys = s.keys := rfl
@[simp] theorem State.raise_vid (r : Raise) : (s.raise r).vid = s.vid := rfl
@[simp] theorem State.raise_op (r : Raise) : (s.raise r).op = s.op := rfl
@[simp] theorem State.raise_rngState (r : Raise) : (s.raise r).rngState = s.rngState := rfl
@[simp] theorem State.raise_fault (r : Raise) : (s.raise r).fault = some ⟨r.code, s.pc - 2, some s.op, r.info⟩ := rfl
@[simp] theorem State.raise_params (r : Raise) : (s.raise r).params = s.params := rfl
@[simp] theorem State.raise_reg (r : Raise) (q : Reg) : (s.raise r).reg q = s.reg q := rfl
@[simp] theorem State.raise_byteAt (r : Raise) (q : Nat) : (s.raise r).byteAt q = s.byteAt q := rfl

/-! ## push -/

@[simp] theorem State.push_v (w : Word) (h : s.sp.val < Config.stackDepth) : (s.push w h).v = s.v := rfl
@[simp] theorem State.push_mem (w : Word) (h : s.sp.val < Config.stackDepth) : (s.push w h).mem = s.mem := rfl
@[simp] theorem State.push_index (w : Word) (h : s.sp.val < Config.stackDepth) : (s.push w h).index = s.index := rfl
@[simp] theorem State.push_pc (w : Word) (h : s.sp.val < Config.stackDepth) : (s.push w h).pc = s.pc := rfl
@[simp] theorem State.push_stack (w : Word) (h : s.sp.val < Config.stackDepth) : (s.push w h).stack = s.stack.set s.sp.val w h := rfl
@[simp] theorem State.push_dt (w : Word) (h : s.sp.val < Config.stackDepth) : (s.push w h).dt = s.dt := rfl
@[simp] theorem State.push_st (w : Word) (h : s.sp.val < Config.stackDepth) : (s.push w h).st = s.st := rfl
@[simp] theorem State.push_keys (w : Word) (h : s.sp.val < Config.stackDepth) : (s.push w h).keys = s.keys := rfl
@[simp] theorem State.push_vid (w : Word) (h : s.sp.val < Config.stackDepth) : (s.push w h).vid = s.vid := rfl
@[simp] theorem State.push_op (w : Word) (h : s.sp.val < Config.stackDepth) : (s.push w h).op = s.op := rfl
@[simp] theorem State.push_rngState (w : Word) (h : s.sp.val < Config.stackDepth) : (s.push w h).rngState = s.rngState := rfl
@[simp] theorem State.push_fault (w : Word) (h : s.sp.val < Config.stackDepth) : (s.push w h).fault = s.fault := rfl
@[simp] theorem State.push_params (w : Word) (h : s.sp.val < Config.stackDepth) : (s.push w h).params = s.params := rfl
@[simp] theorem State.push_reg (w : Word) (h : s.sp.val < Config.stackDepth) (q : Reg) : (s.push w h).reg q = s.reg q := rfl
@[simp] theorem State.push_byteAt (w : Word) (h : s.sp.val < Config.stackDepth) (q : Nat) : (s.push w h).byteAt q = s.byteAt q := rfl

/-! ## popPc -/

@[simp] theorem State.popPc_v : (s.popPc).v = s.v := rfl
@[simp] theorem State.popPc_mem : (s.popPc).mem = s.mem := rfl
@[simp] theorem State.popPc_index : (s.popPc).index = s.index := rfl
@[simp] theorem State.popPc_stack : (s.popPc).stack = s.stack := rfl
@[simp] theorem State.popPc_dt : (s.popPc).dt = s.dt := rfl
@[simp] theorem State.popPc_st : (s.popPc).st = s.st := rfl
@[simp] theorem State.popPc_keys : (s.popPc).keys = s.keys := rfl
@[simp] theorem State.popPc_vid : (s.popPc).vid = s.vid := rfl
@[simp] theorem State.popPc_op : (s.popPc).op = s.op := rfl
@[simp] theorem State.popPc_rngState : (s.popPc).rngState = s.rngState := rfl
@[simp] theorem State.popPc_fault : (s.popPc).fault = s.fault := rfl
@[simp] theorem State.popPc_params : (s.popPc).params = s.params := rfl
@[simp] theorem State.popPc_reg (q : Reg) : (s.popPc).reg q = s.reg q := rfl
@[simp] theorem State.popPc_byteAt (q : Nat) : (s.popPc).byteAt q = s.byteAt q := rfl

/-! ## loadRegs -/

@[simp] theorem State.loadRegs_mem (bs : List Byte) : (s.loadRegs bs).mem = s.mem := rfl
@[simp] theorem State.loadRegs_index (bs : List Byte) : (s.loadRegs bs).index = s.index := rfl
@[simp] theorem State.loadRegs_pc (bs : List Byte) : (s.loadRegs bs).pc = s.pc := rfl
@[simp] theorem State.loadRegs_stack (bs : List Byte) : (s.loadRegs bs).stack = s.stack := rfl
@[simp] theorem State.loadRegs_sp (bs : List Byte) : (s.loadRegs bs).sp = s.sp := rfl
@[simp] theorem State.loadRegs_dt (bs : List Byte) : (s.loadRegs bs).dt = s.dt := rfl
@[simp] theorem State.loadRegs_st (bs : List Byte) : (s.loadRegs bs).st = s.st := rfl
@[simp] theorem State.loadRegs_keys (bs : List Byte) : (s.loadRegs bs).keys = s.keys := rfl
@[simp] theorem State.loadRegs_vid (bs : List Byte) : (s.loadRegs bs).vid = s.vid := rfl
@[simp] theorem State.loadRegs_op (bs : List Byte) : (s.loadRegs bs).op = s.op := rfl
@[simp] theorem State.loadRegs_rngState (bs : List Byte) : (s.loadRegs bs).rngState = s.rngState := rfl
@[simp] theorem State.loadRegs_fault (bs : List Byte) : (s.loadRegs bs).fault = s.fault := rfl
@[simp] theorem State.loadRegs_params (bs : List Byte) : (s.loadRegs bs).params = s.params := rfl
@[simp] theorem State.loadRegs_byteAt (bs : List Byte) (q : Nat) : (s.loadRegs bs).byteAt q = s.byteAt q := rfl

/-! ## The values of push and popPc -/

@[simp] theorem State.push_sp_val (w : Word) (h : s.sp.val < Config.stackDepth) : (s.push w h).sp.val = s.sp.val + 1 := rfl
@[simp] theorem State.popPc_sp_val : s.popPc.sp.val = s.sp.val - 1 := rfl
theorem State.popPc_pc : s.popPc.pc = s.stack[s.sp.val - 1]'(by have := s.sp.isLt; omega) := rfl

/-! ## Registers -/

/-- Reading a register after writing one. -/
theorem State.setReg_reg (r q : Reg) (b : Byte) : (s.setReg r b).reg q = if q = r then b else s.reg q := by
  simp only [State.reg, State.setReg_v, Fin.getElem_fin, Vector.getElem_set, Fin.val_inj, eq_comm]

@[simp] theorem State.setReg_reg_same (r : Reg) (b : Byte) : (s.setReg r b).reg r = b := by simp [State.setReg_reg]

theorem State.setReg_reg_ne (r q : Reg) (b : Byte) (h : q ≠ r) : (s.setReg r b).reg q = s.reg q := by
  simp [State.setReg_reg, h]

/-- Reading a register after a flag write. -/
theorem State.setVf_reg (q : Reg) (b : Bool) : (s.setVf b).reg q = if q = regF then boolByte b else s.reg q :=
  State.setReg_reg s regF q (boolByte b)

/-- Two states with the same registers are the same registers read one by one. -/
theorem State.v_eq_of_reg {s t : State} (h : ∀ r, t.reg r = s.reg r) : t.v = s.v := by
  refine Vector.ext fun i hi => ?_
  exact h ⟨i, hi⟩

/-- The registers after a register-range load (R165): those the bytes reach. -/
theorem State.loadRegs_reg (bs : List Byte) (q : Reg) : (s.loadRegs bs).reg q = (bs[q.val]?).getD (s.reg q) := by
  simp [State.reg, State.loadRegs]

/-! ## The operations that may or may not write -/

@[simp] theorem State.skipIf_pc (c : Bool) : (s.skipIf c).pc = if c then s.pc + 2 else s.pc := by
  cases c <;> rfl

/-- A skip changes nothing but the pc. -/
theorem State.skipIf_eq (c : Bool) : s.skipIf c = s.setPc (if c then s.pc + 2 else s.pc) := by
  cases c <;> rfl

/-- The logic operations' flag write changes nothing but VF. -/
theorem State.logicFlag_eq : s.logicFlag = if s.params.logicResetsVf then s.setReg regF 0 else s := rfl

/-- The register transfers' index update changes nothing but I. -/
theorem State.advanceIndex_eq (x : Reg) :
    s.advanceIndex x = s.setIndex (if s.params.loadStoreIncrementsI then s.index + BitVec.ofNat 16 (x.val + 1) else s.index) := by
  unfold State.advanceIndex
  split <;> rfl

/-! ## The cycle's phases -/

@[simp] theorem State.beginCycle_pc : s.beginCycle.pc = s.pc + 2 := rfl
@[simp] theorem State.beginCycle_op : s.beginCycle.op = s.fetchWord := rfl

@[simp] theorem State.beginCycle_v : s.beginCycle.v = s.v := rfl
@[simp] theorem State.beginCycle_mem : s.beginCycle.mem = s.mem := rfl
@[simp] theorem State.beginCycle_index : s.beginCycle.index = s.index := rfl
@[simp] theorem State.beginCycle_stack : s.beginCycle.stack = s.stack := rfl
@[simp] theorem State.beginCycle_sp : s.beginCycle.sp = s.sp := rfl
@[simp] theorem State.beginCycle_dt : s.beginCycle.dt = s.dt := rfl
@[simp] theorem State.beginCycle_st : s.beginCycle.st = s.st := rfl
@[simp] theorem State.beginCycle_keys : s.beginCycle.keys = s.keys := rfl
@[simp] theorem State.beginCycle_vid : s.beginCycle.vid = s.vid := rfl
@[simp] theorem State.beginCycle_rngState : s.beginCycle.rngState = s.rngState := rfl
@[simp] theorem State.beginCycle_fault : s.beginCycle.fault = s.fault := rfl
@[simp] theorem State.beginCycle_params : s.beginCycle.params = s.params := rfl
@[simp] theorem State.beginCycle_reg (q : Reg) : s.beginCycle.reg q = s.reg q := rfl
@[simp] theorem State.beginCycle_byteAt (q : Nat) : s.beginCycle.byteAt q = s.byteAt q := rfl

@[simp] theorem State.tickTimers_dt : s.tickTimers.dt = tick s.dt := rfl
@[simp] theorem State.tickTimers_st : s.tickTimers.st = tick s.st := rfl
@[simp] theorem State.tickTimers_v : s.tickTimers.v = s.v := rfl
@[simp] theorem State.tickTimers_mem : s.tickTimers.mem = s.mem := rfl
@[simp] theorem State.tickTimers_index : s.tickTimers.index = s.index := rfl
@[simp] theorem State.tickTimers_pc : s.tickTimers.pc = s.pc := rfl
@[simp] theorem State.tickTimers_stack : s.tickTimers.stack = s.stack := rfl
@[simp] theorem State.tickTimers_sp : s.tickTimers.sp = s.sp := rfl
@[simp] theorem State.tickTimers_keys : s.tickTimers.keys = s.keys := rfl
@[simp] theorem State.tickTimers_vid : s.tickTimers.vid = s.vid := rfl
@[simp] theorem State.tickTimers_op : s.tickTimers.op = s.op := rfl
@[simp] theorem State.tickTimers_rngState : s.tickTimers.rngState = s.rngState := rfl
@[simp] theorem State.tickTimers_fault : s.tickTimers.fault = s.fault := rfl
@[simp] theorem State.tickTimers_params : s.tickTimers.params = s.params := rfl
@[simp] theorem State.tickTimers_reg (q : Reg) : s.tickTimers.reg q = s.reg q := rfl
@[simp] theorem State.tickTimers_byteAt (q : Nat) : s.tickTimers.byteAt q = s.byteAt q := rfl

/-- The timer tick in numbers: one less, floor at 0 (R95). -/
theorem tick_toNat (b : Byte) : (tick b).toNat = b.toNat - 1 := by
  unfold tick
  split
  · simp_all
  · next h =>
    have : b.toNat ≠ 0 := fun h0 => h (BitVec.eq_of_toNat_eq (by simpa using h0))
    rw [BitVec.toNat_sub]
    have := b.isLt
    have one : (1 : Byte).toNat = 1 := rfl
    omega

/-- The end of a cycle whose handler raised nothing. -/
theorem endCycle_of_none (s0 t : State) (h : t.fault = none) : endCycle s0 t = t.tickTimers := by
  simp [endCycle, h]

/-- The end of a cycle whose handler raised. -/
theorem endCycle_of_some (s0 t : State) (f : FaultRecord) (h : t.fault = some f) : endCycle s0 t = s0.enterFault f := by
  simp [endCycle, h]

end Sys2Proof.Machine
end

