-- ==== Sys2Proof/Laws/Memory.lean ====
section
/-! SUPPORT. The laws of memory: reading after writing, and the canonical form that every write keeps (log 6). -/

namespace Sys2Proof.Machine

/-! ## Lists of cells -/

/-- Below the first address of a canonical memory every byte is the reset byte. -/
theorem Memory.get_below : ∀ (m : Memory) (lo a : Nat), Memory.wfFrom lo m = true → a < lo → m.get a = resetByte a
  | [], _, _, _, _ => rfl
  | (k, b) :: rest, lo, a, hwf, ha => by
    simp only [Memory.wfFrom, Bool.and_eq_true, decide_eq_true_eq] at hwf
    obtain ⟨⟨⟨hlo, -⟩, -⟩, hrest⟩ := hwf
    rw [Memory.get, if_neg (by omega)]
    exact Memory.get_below rest (k + 1) a hrest (by omega)

/-- A canonical memory is canonical from any lower address on. -/
theorem Memory.wfFrom_mono : ∀ (m : Memory) (lo lo' : Nat), lo' ≤ lo → Memory.wfFrom lo m = true →
    Memory.wfFrom lo' m = true
  | [], _, _, _, _ => rfl
  | (k, b) :: rest, lo, lo', hle, hwf => by
    simp only [Memory.wfFrom, Bool.and_eq_true, decide_eq_true_eq] at hwf ⊢
    obtain ⟨⟨⟨h1, h2⟩, h3⟩, h4⟩ := hwf
    exact ⟨⟨⟨by omega, h2⟩, h3⟩, h4⟩

/-- A write leaves every other address alone, in any memory. -/
theorem Memory.get_set_ne (m : Memory) (a b : Nat) (v : Byte) (h : b ≠ a) : (m.set a v).get b = m.get b := by
  induction m with
  | nil =>
    simp only [Memory.set]
    split
    · rfl
    · simp [Memory.get, Ne.symm h]
  | cons cell rest ih =>
    obtain ⟨k, c⟩ := cell
    simp only [Memory.set]
    split
    · simp [Memory.get, ih]
    · split
      · next hk =>
        subst hk
        split <;> simp [Memory.get, Ne.symm h]
      · split <;> simp [Memory.get, Ne.symm h]

/-- A read of the address just written gives the value written, in a canonical memory. -/
theorem Memory.get_set_same : ∀ (m : Memory) (lo a : Nat) (v : Byte), Memory.wfFrom lo m = true →
    (m.set a v).get a = v
  | [], _, a, v, _ => by
    simp only [Memory.set]
    split
    · next h => simp [Memory.get, h]
    · simp [Memory.get]
  | (k, c) :: rest, lo, a, v, hwf => by
    simp only [Memory.wfFrom, Bool.and_eq_true, decide_eq_true_eq] at hwf
    obtain ⟨-, hrest⟩ := hwf
    simp only [Memory.set]
    split
    · next hlt =>
      rw [Memory.get, if_neg (by omega)]
      exact Memory.get_set_same rest (k + 1) a v hrest
    · split
      · next hk =>
        subst hk
        split
        · next hv => rw [Memory.get_below rest (k + 1) k hrest (by omega), hv]
        · simp [Memory.get]
      · split
        · next hv =>
          rw [Memory.get, if_neg (by omega), Memory.get_below rest (k + 1) a hrest (by omega), hv]
        · simp [Memory.get]

/-- A write inside the 4096 bytes keeps the canonical form. -/
theorem Memory.wfFrom_set : ∀ (m : Memory) (lo a : Nat) (v : Byte), Memory.wfFrom lo m = true → lo ≤ a →
    a < Config.memSize → Memory.wfFrom lo (m.set a v) = true
  | [], lo, a, v, _, hlo, ha => by
    simp only [Memory.set]
    split
    · rfl
    · next hv => simpa [Memory.wfFrom, hlo, hv] using ha
  | (k, c) :: rest, lo, a, v, hwf, hlo, ha => by
    have hwf' := hwf
    simp only [Memory.wfFrom, Bool.and_eq_true, decide_eq_true_eq] at hwf
    obtain ⟨⟨⟨h1, h2⟩, h3⟩, h4⟩ := hwf
    simp only [Memory.set]
    split
    · simp only [Memory.wfFrom, Bool.and_eq_true, decide_eq_true_eq]
      exact ⟨⟨⟨h1, h2⟩, h3⟩, Memory.wfFrom_set rest (k + 1) a v h4 (by omega) ha⟩
    · split
      · next hk =>
        subst hk
        split
        · exact Memory.wfFrom_mono rest (k + 1) lo (by omega) h4
        · next hv =>
          simp only [Memory.wfFrom, Bool.and_eq_true, decide_eq_true_eq, bne_iff_ne]
          exact ⟨⟨⟨h1, ha⟩, hv⟩, h4⟩
      · split
        · exact hwf'
        · next hv =>
          simp only [Memory.wfFrom, Bool.and_eq_true, decide_eq_true_eq, bne_iff_ne] at h3 ⊢
          exact ⟨⟨⟨hlo, ha⟩, hv⟩, ⟨⟨by omega, h2⟩, h3⟩, h4⟩

/-- A write inside the 4096 bytes keeps the canonical form of a whole memory. -/
theorem Memory.wf_set (m : Memory) (a : Nat) (v : Byte) (h : m.wf = true) (ha : a ≤ 0xFFF) : (m.set a v).wf = true :=
  Memory.wfFrom_set m 0 a v h (Nat.zero_le a) (by simp only [Config.memSize]; omega)

/-- The memory of the reset state is canonical. -/
theorem reset_memory_wf : State.reset.mem.wf = true := rfl

/-! ## One byte of the state -/

/-- Reading another byte after a write. -/
theorem State.setByte_byteAt_ne (s : State) (a b : Nat) (v : Byte) (h : b ≠ a) : (s.setByte a v).byteAt b = s.byteAt b :=
  Memory.get_set_ne s.mem a b v h

/-- Reading the byte just written. -/
theorem State.setByte_byteAt_same (s : State) (a : Nat) (v : Byte) (h : s.mem.wf = true) : (s.setByte a v).byteAt a = v :=
  Memory.get_set_same s.mem 0 a v h

/-! ## Sequences of bytes -/

/-- A checked range passes exactly when its last byte is in memory (R67). -/
theorem checkRange_ok (a len : Nat) (h : a + len - 1 ≤ 0xFFF) : checkRange a len = .ok () := by
  simp only [checkRange]
  rw [if_neg (by omega)]

/-- A range past the end of memory raises with its lowest address outside memory (R67). -/
theorem checkRange_error (a len : Nat) (h : 0xFFF < a + len - 1) :
    checkRange a len = .error ⟨.memOutOfRange, max a 0x1000⟩ := by
  simp only [checkRange]
  rw [if_pos (by omega)]

/-- Reads inside memory raise nothing and give the bytes in ascending order (R53, R56). -/
theorem memReadMany_ok (s : State) : ∀ (n a : Nat), a + n ≤ 0x1000 →
    memReadMany s a n = .ok ((List.range' a n).map s.byteAt)
  | 0, _, _ => rfl
  | n + 1, a, h => by
    have hread : memRead s a = .ok (s.byteAt a) := by
      simp only [memRead]
      rw [if_neg (by omega)]
    simp only [memReadMany, hread, memReadMany_ok s n (a + 1) (by omega), List.range'_succ, List.map_cons]
    rfl

/-- The state after bytes are stored at ascending addresses. -/
def State.stored (s : State) (a : Nat) : List Byte → State
  | [] => s
  | b :: bs => (s.setByte a b).stored (a + 1) bs

/-- Writes inside memory raise nothing and store the bytes in ascending order (R54, R56). -/
theorem memWriteMany_ok : ∀ (bs : List Byte) (a : Nat) (s : State), a + bs.length ≤ 0x1000 →
    memWriteMany a bs s = .ok (s.stored a bs)
  | [], _, _, _ => rfl
  | b :: bs, a, s, h => by
    have hlen : (b :: bs).length = bs.length + 1 := rfl
    have hwrite : memWrite a b s = .ok (s.setByte a b) := by
      simp only [memWrite]
      rw [if_neg (by omega)]
    simp only [memWriteMany, hwrite]
    exact memWriteMany_ok bs (a + 1) (s.setByte a b) (by omega)

/-- A store changes nothing but memory. -/
theorem State.stored_eq : ∀ (bs : List Byte) (a : Nat) (s : State), s.stored a bs = s.setMem (s.stored a bs).mem
  | [], _, _ => rfl
  | b :: bs, a, s => by
    rw [State.stored, State.stored_eq bs (a + 1) (s.setByte a b)]
    rfl

/-- A store leaves every byte outside it alone. -/
theorem State.stored_byteAt_outside : ∀ (bs : List Byte) (a : Nat) (s : State) (q : Nat),
    q < a ∨ a + bs.length ≤ q → (s.stored a bs).byteAt q = s.byteAt q
  | [], _, _, _, _ => rfl
  | b :: bs, a, s, q, h => by
    have hlen : (b :: bs).length = bs.length + 1 := rfl
    rw [State.stored, State.stored_byteAt_outside bs (a + 1) _ q (by omega)]
    exact State.setByte_byteAt_ne s a q b (by omega)

/-- A store in a canonical memory keeps it canonical. -/
theorem State.stored_wf : ∀ (bs : List Byte) (a : Nat) (s : State), s.mem.wf = true → a + bs.length ≤ 0x1000 →
    (s.stored a bs).mem.wf = true
  | [], _, _, h, _ => h
  | b :: bs, a, s, h, hlen => by
    have hl : (b :: bs).length = bs.length + 1 := rfl
    exact State.stored_wf bs (a + 1) _ (Memory.wf_set s.mem a b h (by omega)) (by omega)

/-- A store puts each byte at its address. -/
theorem State.stored_byteAt : ∀ (bs : List Byte) (a : Nat) (s : State), s.mem.wf = true → a + bs.length ≤ 0x1000 →
    ∀ (i : Nat) (hi : i < bs.length), (s.stored a bs).byteAt (a + i) = bs[i]
  | [], _, _, _, _, i, hi => absurd hi (Nat.not_lt_zero i)
  | b :: bs, a, s, h, hlen, 0, _ => by
    rw [State.stored, State.stored_byteAt_outside bs (a + 1) _ (a + 0) (by omega)]
    exact State.setByte_byteAt_same s a b h
  | b :: bs, a, s, h, hlen, i + 1, hi => by
    have hl : (b :: bs).length = bs.length + 1 := rfl
    have hwf : (s.setByte a b).mem.wf = true := Memory.wf_set s.mem a b h (by omega)
    have := State.stored_byteAt bs (a + 1) (s.setByte a b) hwf (by omega) i (by omega)
    rw [State.stored, show a + (i + 1) = a + 1 + i by omega]
    simpa using this

end Sys2Proof.Machine
end

