-- ==== Sys2Proof/Laws/Operands.lean ====
section
/-! SUPPORT. One lemma for each shared operand operation: settling a handler's result, keys, register ranges, and the sprite's
set bits, targets and drawing. -/

namespace Sys2Proof.Machine

/-! ## Settling (R97, R222) -/

@[simp] theorem settle_ok (s t : State) : settle s (.ok t) = .next t := rfl
@[simp] theorem settle_error (s : State) (r : Raise) : settle s (.error r) = .next (s.raise r) := rfl

/-- A settled handler answers a next state: its own, or the fault it raised taken in the state it ran from. -/
theorem settle_next {s t : State} {e : Except Raise State} (h : settle s e = .next t) :
    e = .ok t ∨ ∃ r, e = .error r ∧ t = s.raise r := by
  cases e with
  | ok u => left; simpa using h
  | error r => right; exact ⟨r, rfl, by simpa using h.symm⟩

@[simp] theorem except_ok_bind {ε α β : Type} (a : α) (f : α → Except ε β) : (Except.ok a >>= f) = f a := rfl
@[simp] theorem except_error_bind {ε α β : Type} (e : ε) (f : α → Except ε β) : (Except.error e >>= f) = Except.error e := rfl

/-! ## Flags and operands (R11, R132, R141) -/

@[simp] theorem boolByte_toNat (b : Bool) : (boolByte b).toNat = if b then 1 else 0 := by cases b <;> rfl

/-- The register a result's operand is read from, after a flag write (R132). -/
theorem aliasState_reg (s : State) (b : Bool) (r : Reg) :
    (aliasState s (s.setVf b)).reg r = if s.params.aliasOrder = .sequential ∧ r = regF then boolByte b else s.reg r := by
  unfold aliasState
  cases s.params.aliasOrder <;> simp [State.setVf_reg]

/-- The shift's operand is the register SHIFT_SOURCE names (R141, R143). -/
theorem shiftOperand_eq (x y : Reg) (s : State) :
    shiftOperand x y s = s.reg (if s.params.shiftSource = .vx then x else y) := by
  unfold shiftOperand
  cases s.params.shiftSource <;> rfl

/-! ## Keys (R200, R201, R203) -/

theorem keyNumber_ok (b : Byte) (k : Fin 16) (h : b.toNat = k.val) : keyNumber b = .ok k := by
  have hk : b.toNat < 16 := h ▸ k.isLt
  simp only [keyNumber, hk, dite_true]
  exact congrArg Except.ok (Fin.ext h)

theorem keyNumber_error (b : Byte) (h : 0xF < b.toNat) : keyNumber b = .error ⟨.keyIndexOutOfRange, b.toNat⟩ := by
  simp only [keyNumber]
  rw [dif_neg (by omega)]

/-- The key Fx0A stores is the lowest one that is down (R203). -/
theorem State.lowestKey_some (s : State) (k : Fin 16) (h : s.keys[k] = true) (hmin : ∀ j : Fin 16, j < k → s.keys[j] = false) :
    s.lowestKey = some k := by
  rw [State.lowestKey, List.find?_eq_some_iff_append]
  have split16 : ∀ k : Fin 16, List.finRange 16 = (List.finRange 16).take k ++ k :: (List.finRange 16).drop (k + 1) := by
    decide
  have below : ∀ k j : Fin 16, j ∈ (List.finRange 16).take k → j < k := by decide
  exact ⟨h, (List.finRange 16).take k, (List.finRange 16).drop (k + 1), split16 k,
    fun j hj => by simpa using hmin j (below k j hj)⟩

theorem State.lowestKey_none (s : State) (h : ∀ k : Fin 16, s.keys[k] = false) : s.lowestKey = none := by
  rw [State.lowestKey, List.find?_eq_none]
  intro k _
  simpa using h k

/-! ## Register ranges (R164, R165) -/

theorem State.regsTo_length (s : State) (x : Reg) : (s.regsTo x).length = x.val + 1 := by
  have := x.isLt
  simp only [State.regsTo, List.length_take, Vector.length_toList]
  omega

theorem State.regsTo_getElem (s : State) (x k : Reg) (h : k ≤ x) :
    (s.regsTo x)[k.val]'(by rw [State.regsTo_length]; have : k.val ≤ x.val := h; omega) = s.reg k := by
  simp [State.regsTo, State.reg]

/-! ## Sprites (R182, R184, R185) -/

/-- The set bits of a sprite byte, by column. -/
theorem mem_setColumns (b : Byte) (c : Nat) : c ∈ setColumns b ↔ c < 8 ∧ b.getLsbD (7 - c) = true := by
  simp [setColumns]

/-- The target coordinates of a sprite are those of its set bits. -/
theorem mem_spriteBits (xs : Nat) : ∀ (rows : List Byte) (ys px py : Nat), (px, py) ∈ spriteBits xs ys rows ↔
    ∃ (i c : Nat) (hi : i < rows.length), c < 8 ∧ (rows[i]).getLsbD (7 - c) = true ∧ px = xs + c ∧ py = ys + i
  | [], ys, px, py => by simp [spriteBits]
  | b :: rest, ys, px, py => by
    rw [spriteBits, List.mem_append, mem_spriteBits xs rest (ys + 1) px py]
    constructor
    · rintro (h | ⟨i, c, hi, hc, hb, hx, hy⟩)
      · simp only [List.mem_map, mem_setColumns, Prod.mk.injEq] at h
        obtain ⟨c, ⟨hc, hb⟩, hx, hy⟩ := h
        exact ⟨0, c, by simp, hc, by simpa using hb, hx.symm, by omega⟩
      · exact ⟨i + 1, c, by simpa using hi, hc, by simpa using hb, hx, by omega⟩
    · rintro ⟨i, c, hi, hc, hb, hx, hy⟩
      cases i with
      | zero =>
        left
        simp only [List.mem_map, mem_setColumns, Prod.mk.injEq]
        exact ⟨c, ⟨hc, by simpa using hb⟩, hx.symm, by omega⟩
      | succ i => right; exact ⟨i, c, by simpa using hi, hc, by simpa using hb, hx, by omega⟩

/-- Row r before row r', and columns ascending inside a row: the loop order of R184. -/
def drawnBefore (p q : Nat × Nat) : Prop := p.2 < q.2 ∨ p.2 = q.2 ∧ p.1 < q.1

/-- The target coordinates of a sprite stand in loop order. -/
theorem spriteBits_pairwise (xs : Nat) : ∀ (rows : List Byte) (ys : Nat), (spriteBits xs ys rows).Pairwise drawnBefore
  | [], _ => List.Pairwise.nil
  | b :: rest, ys => by
    rw [spriteBits, List.pairwise_append]
    refine ⟨?_, spriteBits_pairwise xs rest (ys + 1), ?_⟩
    · rw [List.pairwise_map]
      refine List.Pairwise.imp ?_ (List.Pairwise.filter _ (List.pairwise_lt_range (n := 8)))
      intro c d h
      exact Or.inr ⟨rfl, Nat.add_lt_add_left h xs⟩
    · rintro ⟨px, py⟩ hp ⟨qx, qy⟩ hq
      simp only [List.mem_map, Prod.mk.injEq] at hp
      obtain ⟨c, -, -, hpy⟩ := hp
      obtain ⟨i, -, -, -, -, -, hqy⟩ := (mem_spriteBits xs rest (ys + 1) qx qy).1 hq
      exact Or.inl (by simp only; omega)

/-- Where a target that raises nothing lands, and which fault one that raises names (R185). -/
theorem targetPixel_cases (policy : OffscreenPolicy) (px py : Nat) :
    (∃ p : Pixel, targetPixel policy px py = .ok (some p) ∧ p.2.val * 64 + p.1.val = py * 64 + px ∧
      (px < 64 ∧ py < 32 → p.1.val = px ∧ p.2.val = py) ∧ (policy ≠ .flat → px < 64 ∧ py < 32)) ∨
    (policy = .clip ∧ ¬ (px < 64 ∧ py < 32) ∧ targetPixel policy px py = .ok none) ∨
    (¬ (px < 64 ∧ py < 32) ∧ (policy = .fault ∨ policy = .flat ∧ 2048 ≤ py * 64 + px) ∧
      targetPixel policy px py = .error ⟨.spriteOffScreen, py * 64 + px⟩) := by
  by_cases h : px < 64 ∧ py < 32
  · left
    exact ⟨(⟨px, h.1⟩, ⟨py, h.2⟩), by simp [targetPixel, h], rfl, fun _ => ⟨rfl, rfl⟩, fun _ => h⟩
  · cases policy with
    | fault => right; right; exact ⟨h, Or.inl rfl, by simp only [targetPixel]; rw [dif_neg h]⟩
    | clip => right; left; exact ⟨rfl, h, by simp only [targetPixel]; rw [dif_neg h]⟩
    | flat =>
      by_cases k : py * 64 + px < 2048
      · left
        refine ⟨(⟨(py * 64 + px) % 64, Nat.mod_lt _ (by decide)⟩, ⟨(py * 64 + px) / 64, by omega⟩), ?_, ?_, ?_, ?_⟩
        · simp only [targetPixel]
          rw [dif_neg h, dif_pos k]
        · simp only
          omega
        · exact fun h' => absurd h' h
        · exact fun h' => absurd rfl h'
      · right; right
        refine ⟨h, Or.inr ⟨rfl, by omega⟩, ?_⟩
        simp only [targetPixel]
        rw [dif_neg h, dif_neg k]

/-- A set bit at (px, py) raises SPRITE_OFF_SCREEN: off the grid under fault, past the flat buffer under flat (R185). -/
def raisesAt (policy : OffscreenPolicy) (px py : Nat) : Prop :=
  ¬ (px < 64 ∧ py < 32) ∧ (policy = .fault ∨ policy = .flat ∧ 2048 ≤ py * 64 + px)

/-- A set bit at `q` lands on the pixel `p`: they have one flat index, and without flat `q` is on the grid. -/
def landsOn (policy : OffscreenPolicy) (q : Nat × Nat) (p : Pixel) : Prop :=
  q.2 * 64 + q.1 = p.2.val * 64 + p.1.val ∧ (policy = .flat ∨ q.1 < 64 ∧ q.2 < 32)

/-- The flat index names the pixel. -/
theorem pixel_eq_of_flat {p q : Pixel} (h : p.2.val * 64 + p.1.val = q.2.val * 64 + q.1.val) : p = q := by
  obtain ⟨a, b⟩ := p
  obtain ⟨c, d⟩ := q
  have := a.isLt
  have := c.isLt
  simp only at h
  refine Prod.ext (Fin.ext ?_) (Fin.ext ?_) <;> simp only <;> omega

/-- The set bits of one sprite have rising flat indices: a row is 8 pixels wide, less than 64. -/
theorem spriteBits_flat (xs ys : Nat) (rows : List Byte) :
    (spriteBits xs ys rows).Pairwise fun p q => p.2 * 64 + p.1 < q.2 * 64 + q.1 := by
  refine (spriteBits_pairwise xs rows ys).imp_of_mem ?_
  rintro ⟨px, py⟩ ⟨qx, qy⟩ hp hq h
  rw [mem_spriteBits] at hp hq
  obtain ⟨i, c, -, hc, -, rfl, rfl⟩ := hp
  obtain ⟨j, d, -, hd, -, rfl, rfl⟩ := hq
  simp only [drawnBefore] at *
  omega

/-- Targets of which none raises: the pixels the set bits land on, each once (R184). -/
theorem targetPixels_ok (policy : OffscreenPolicy) : ∀ bits : List (Nat × Nat),
    (∀ px py, (px, py) ∈ bits → ¬ raisesAt policy px py) →
    bits.Pairwise (fun p q => p.2 * 64 + p.1 < q.2 * 64 + q.1) →
    ∃ ts, targetPixels policy bits = .ok ts ∧ (∀ p, p ∈ ts ↔ ∃ q ∈ bits, landsOn policy q p) ∧ ts.Nodup
  | [], _, _ => ⟨[], rfl, by simp, List.nodup_nil⟩
  | (px, py) :: rest, h, hp => by
    obtain ⟨hlt, hrest⟩ := List.pairwise_cons.1 hp
    obtain ⟨ts, h1, h2, h3⟩ := targetPixels_ok policy rest (fun a b hab => h a b (List.mem_cons_of_mem _ hab)) hrest
    rcases targetPixel_cases policy px py with ⟨p, hp1, hp2, -, hp4⟩ | ⟨hc, hn, he⟩ | ⟨hn, hc, -⟩
    · refine ⟨p :: ts, ?_, fun q => ?_, List.nodup_cons.2 ⟨?_, h3⟩⟩
      · simp only [targetPixels, hp1, h1, except_ok_bind]
        rfl
      · simp only [List.mem_cons, h2]
        constructor
        · rintro (rfl | ⟨r, hr, hl⟩)
          · refine ⟨(px, py), Or.inl rfl, hp2.symm, ?_⟩
            by_cases hf : policy = .flat
            · exact Or.inl hf
            · exact Or.inr (hp4 hf)
          · exact ⟨r, Or.inr hr, hl⟩
        · rintro ⟨r, rfl | hr, hl⟩
          · exact Or.inl (pixel_eq_of_flat (hl.1.symm.trans hp2.symm))
          · exact Or.inr ⟨r, hr, hl⟩
      · rw [h2]
        rintro ⟨r, hr, hl⟩
        have := hlt r hr
        have := hl.1
        simp only at *
        omega
    · refine ⟨ts, ?_, fun q => ?_, h3⟩
      · simp only [targetPixels, he, h1, except_ok_bind]
        rfl
      · rw [h2]
        constructor
        · rintro ⟨r, hr, hl⟩
          exact ⟨r, List.mem_cons_of_mem _ hr, hl⟩
        · rintro ⟨r, hr, hl⟩
          rcases List.mem_cons.1 hr with rfl | hr
          · rcases hl.2 with e | e
            · exact absurd (hc.symm.trans e) (by decide)
            · exact absurd e hn
          · exact ⟨r, hr, hl⟩
    · exact absurd ⟨hn, hc⟩ (h px py List.mem_cons_self)

/-- Targets of which the first that raises is at (px, py) (R185, R225). -/
theorem targetPixels_error (policy : OffscreenPolicy) (px py : Nat) (hr : raisesAt policy px py) : ∀ bits : List (Nat × Nat),
    (px, py) ∈ bits → bits.Pairwise drawnBefore →
    (∀ qx qy : Nat, (qx, qy) ∈ bits → drawnBefore (qx, qy) (px, py) → ¬ raisesAt policy qx qy) →
    targetPixels policy bits = .error ⟨.spriteOffScreen, py * 64 + px⟩
  | [], h, _, _ => by simp at h
  | (qx, qy) :: rest, h, hp, hq => by
    obtain ⟨hlt, hrest⟩ := List.pairwise_cons.1 hp
    rcases List.mem_cons.1 h with e | hm
    · obtain ⟨rfl, rfl⟩ : px = qx ∧ py = qy := by simpa using e
      obtain ⟨hn, hpol⟩ := hr
      rcases targetPixel_cases policy px py with ⟨p, -, hp2, -, hp4⟩ | ⟨hc, -, -⟩ | ⟨-, -, he⟩
      · have := p.1.isLt
        have := p.2.isLt
        rcases hpol with rfl | ⟨-, h2048⟩
        · exact absurd (hp4 (by decide)) hn
        · omega
      · subst hc
        simp at hpol
      · simp only [targetPixels, he]
        rfl
    · have ih := targetPixels_error policy px py hr rest hm hrest fun a b hab => hq a b (List.mem_cons_of_mem _ hab)
      have hnq := hq qx qy List.mem_cons_self (hlt _ hm)
      rcases targetPixel_cases policy qx qy with ⟨p, hp1, -⟩ | ⟨-, -, he⟩ | ⟨hn, hc, -⟩
      · simp only [targetPixels, hp1, ih, except_ok_bind]
        rfl
      · simp only [targetPixels, he, ih, except_ok_bind]
        rfl
      · exact absurd ⟨hn, hc⟩ hnq

/-- If targets raise nothing, no set bit does. -/
theorem not_raisesAt_of_targetPixels_ok (policy : OffscreenPolicy) : ∀ (bits : List (Nat × Nat)) (ts : List Pixel),
    targetPixels policy bits = .ok ts → ∀ px py, (px, py) ∈ bits → ¬ raisesAt policy px py
  | [], _, _, _, _, hm => by simp at hm
  | (qx, qy) :: rest, ts, h, px, py, hm => by
    simp only [targetPixels] at h
    cases hq : targetPixel policy qx qy with
    | error r => simp [hq] at h
    | ok o =>
      cases ht : targetPixels policy rest with
      | error r => simp [hq, ht] at h
      | ok us =>
        rcases List.mem_cons.1 hm with e | hm
        · obtain ⟨rfl, rfl⟩ : px = qx ∧ py = qy := by simpa using e
          rintro ⟨hn, hpol⟩
          rcases targetPixel_cases policy px py with ⟨p, -, hp2, -, hp4⟩ | ⟨hc, -, -⟩ | ⟨-, -, he⟩
          · have := p.1.isLt
            have := p.2.isLt
            rcases hpol with rfl | ⟨-, h2048⟩
            · exact absurd (hp4 (by decide)) hn
            · omega
          · subst hc
            simp at hpol
          · simp [he] at hq
        · exact not_raisesAt_of_targetPixels_ok policy rest us ht px py hm

/-- Targets raise nothing, or the fault of a set bit that raises. -/
theorem targetPixels_cases (policy : OffscreenPolicy) : ∀ bits : List (Nat × Nat),
    (∃ ts, targetPixels policy bits = .ok ts) ∨
    ∃ px py, (px, py) ∈ bits ∧ raisesAt policy px py ∧ targetPixels policy bits = .error ⟨.spriteOffScreen, py * 64 + px⟩
  | [] => Or.inl ⟨[], rfl⟩
  | (px, py) :: rest => by
    rcases targetPixel_cases policy px py with ⟨p, ht, -⟩ | ⟨-, -, ht⟩ | ⟨hn, hc, he⟩
    case inr.inr => exact Or.inr ⟨px, py, List.mem_cons_self, ⟨hn, hc⟩, by simp only [targetPixels, he]; rfl⟩
    all_goals
      rcases targetPixels_cases policy rest with ⟨ts, h⟩ | ⟨qx, qy, hm, hr, he⟩
      · exact Or.inl ⟨_, by simp only [targetPixels, ht, h, except_ok_bind]; rfl⟩
      · exact Or.inr ⟨qx, qy, List.mem_cons_of_mem _ hm, hr, by simp only [targetPixels, ht, he, except_ok_bind]; rfl⟩

/-! ## Drawing (R184) -/

theorem Video.setPixel_pixel (v : Video) (p q : Pixel) (b : Bool) :
    (v.setPixel p b).pixel q = if q = p then b else v.pixel q := by
  obtain ⟨c, r⟩ := p
  obtain ⟨c', r'⟩ := q
  simp only [Video.pixel, Video.setPixel, Fin.getElem_fin, Vector.getElem_set, Prod.mk.injEq]
  by_cases hr : r' = r
  · subst hr
    by_cases hc : c' = c
    · subst hc; simp
    · have : ¬ c.val = c'.val := fun h => hc (Fin.ext h.symm)
      simp [hc, this]
  · have : ¬ r.val = r'.val := fun h => hr (Fin.ext h.symm)
    simp [hr, this]

/-- Two frame buffers with the same pixels are the same. -/
theorem Video.ext_pixel {v w : Video} (h : ∀ p, v.pixel p = w.pixel p) : v = w := by
  refine Vector.ext fun r hr => Vector.ext fun c hc => ?_
  exact h (⟨c, hc⟩, ⟨r, hr⟩)

/-- A pixel after drawing: toggled once for each time it stands among the targets. -/
theorem xorPixels_pixel : ∀ (ts : List Pixel) (v : Video) (b : Bool) (q : Pixel),
    (xorPixels ts v b).1.pixel q = (v.pixel q != (ts.count q % 2 == 1))
  | [], v, b, q => by simp [xorPixels]
  | p :: rest, v, b, q => by
    rw [xorPixels, xorPixels_pixel rest, Video.setPixel_pixel, List.count_cons]
    by_cases h : q = p
    · subst h
      simp only [if_true, beq_self_eq_true]
      have : (List.count q rest + 1) % 2 = 1 ↔ ¬ List.count q rest % 2 = 1 := by omega
      cases v.pixel q <;> by_cases h2 : List.count q rest % 2 = 1 <;> simp_all
    · have : ¬ p = q := fun h' => h h'.symm
      simp [h, this]

/-- The collision flag after drawing distinct targets: whether one of them was lit. -/
theorem xorPixels_collide : ∀ (ts : List Pixel) (v : Video) (b : Bool), ts.Nodup →
    (xorPixels ts v b).2 = (b || ts.any v.pixel)
  | [], v, b, _ => by simp [xorPixels]
  | p :: rest, v, b, h => by
    obtain ⟨hp, hrest⟩ := List.nodup_cons.1 h
    rw [xorPixels, xorPixels_collide rest _ _ hrest, List.any_cons]
    have : rest.any (v.setPixel p (!v.pixel p)).pixel = rest.any v.pixel := by
      rw [Bool.eq_iff_iff, List.any_eq_true, List.any_eq_true]
      refine exists_congr fun q => and_congr_right fun hq => ?_
      have hqp : q ≠ p := fun h' => hp (h' ▸ hq)
      rw [Video.setPixel_pixel, if_neg hqp]
    rw [this, Bool.or_assoc]

end Sys2Proof.Machine
end

