-- ==== Sys2Proof/Laws/Exec.lean ====
section
/-! SUPPORT. What any instruction can do: it answers a next state, either the fault it raised taken in the state it ran from, or
a state with the same fault record, latched word, keypad and parameters; and the spec lemmas of the transfers and of DRW. -/

namespace Sys2Proof.Machine

/-! ## Transfers -/

/-- Writes that raise nothing change nothing but memory. -/
theorem memWriteMany_eq : ∀ (bs : List Byte) (a : Nat) (s t : State), memWriteMany a bs s = .ok t → t = s.setMem t.mem
  | [], _, s, t, h => by
    have : s = t := by simpa [memWriteMany] using h
    subst this
    rfl
  | b :: bs, a, s, t, h => by
    simp only [memWriteMany, memWrite] at h
    split at h
    · simp at h
    · rw [except_ok_bind] at h
      rw [memWriteMany_eq bs (a + 1) _ t h]
      rfl

/-- LD B inside memory stores the three digits (R163). -/
theorem execLdB_ok (x : Reg) (s : State) (h : s.indexAddr + 2 ≤ 0xFFF) :
    execLdB x s = .next (s.stored s.indexAddr (bcdDigits (s.reg x))) := by
  have hlen : (bcdDigits (s.reg x)).length = 3 := rfl
  simp only [execLdB, checkRange_ok s.indexAddr 3 (by omega), except_ok_bind,
    memWriteMany_ok (bcdDigits (s.reg x)) s.indexAddr s (by omega), settle_ok]

/-- LD B past the end of memory raises, and stores nothing (R163). -/
theorem execLdB_error (x : Reg) (s : State) (h : 0xFFF < s.indexAddr + 2) :
    execLdB x s = .next (s.raise ⟨.memOutOfRange, max s.indexAddr 0x1000⟩) := by
  simp only [execLdB, checkRange_error s.indexAddr 3 (by omega), except_error_bind, settle_error]

/-- LD [I] inside memory stores V0 to Vx (R164). -/
theorem execStRegs_ok (x : Reg) (s : State) (h : s.indexAddr + x.val ≤ 0xFFF) :
    execStRegs x s = .next ((s.stored s.indexAddr (s.regsTo x)).advanceIndex x) := by
  have hlen := s.regsTo_length x
  simp only [execStRegs, checkRange_ok s.indexAddr (x.val + 1) (by omega), except_ok_bind,
    memWriteMany_ok (s.regsTo x) s.indexAddr s (by omega), settle_ok]

/-- LD [I] past the end of memory raises, and stores nothing (R164). -/
theorem execStRegs_error (x : Reg) (s : State) (h : 0xFFF < s.indexAddr + x.val) :
    execStRegs x s = .next (s.raise ⟨.memOutOfRange, max s.indexAddr 0x1000⟩) := by
  simp only [execStRegs, checkRange_error s.indexAddr (x.val + 1) (by omega), except_error_bind, settle_error]

/-- LD Vx, [I] inside memory loads V0 to Vx (R165). -/
theorem execLdRegs_ok (x : Reg) (s : State) (h : s.indexAddr + x.val ≤ 0xFFF) :
    execLdRegs x s =
      .next ((s.loadRegs ((List.range' s.indexAddr (x.val + 1)).map s.byteAt)).advanceIndex x) := by
  simp only [execLdRegs, checkRange_ok s.indexAddr (x.val + 1) (by omega), except_ok_bind, memReadMany_ok s (x.val + 1) s.indexAddr (by omega),
    settle_ok]

/-- LD Vx, [I] past the end of memory raises, and loads nothing (R165). -/
theorem execLdRegs_error (x : Reg) (s : State) (h : 0xFFF < s.indexAddr + x.val) :
    execLdRegs x s = .next (s.raise ⟨.memOutOfRange, max s.indexAddr 0x1000⟩) := by
  simp only [execLdRegs, checkRange_error s.indexAddr (x.val + 1) (by omega), except_error_bind, settle_error]

/-! ## DRW -/

/-- The rows of a sprite inside memory (R184). -/
theorem spriteRows_ok (s : State) (n : Nat) (h : n = 0 ∨ s.indexAddr + n - 1 ≤ 0xFFF) :
    spriteRows s n = .ok ((List.range' s.indexAddr n).map s.byteAt) := by
  by_cases hn : n = 0
  · subst hn
    rfl
  · have hr : checkRange s.indexAddr n = .ok () := checkRange_ok _ _ (by omega)
    simp only [spriteRows, hr, memReadMany_ok s n s.indexAddr (by omega)]
    split <;> rfl

/-- A sprite whose rows pass the end of memory raises before anything is read (R184). -/
theorem spriteRows_error (s : State) (n : Nat) (hn : 1 ≤ n) (h : 0xFFF < s.indexAddr + n - 1) :
    spriteRows s n = .error ⟨.memOutOfRange, max s.indexAddr 0x1000⟩ := by
  simp only [spriteRows, checkRange_error s.indexAddr n h]
  rw [if_pos hn]
  rfl

/-- The set bits of a DRW in loop order, when its rows are in memory. -/
def State.drawnBits (s : State) (x y : Reg) (n : Nat) : List (Nat × Nat) :=
  spriteBits (spriteColumn (s.reg x)) (spriteRow (s.reg y)) ((List.range' s.indexAddr n).map s.byteAt)

theorem spriteTargets_eq (s : State) (x y : Reg) (n : Nat) (h : n = 0 ∨ s.indexAddr + n - 1 ≤ 0xFFF) :
    spriteTargets x y n s = targetPixels s.params.offscreen (s.drawnBits x y n) := by
  simp only [spriteTargets, spriteRows_ok s n h, except_ok_bind, State.drawnBits]

/-- The set bits of a DRW: bit 7 - c of the byte at I + i, at column xs + c and row ys + i (R182, R184). -/
theorem State.mem_drawnBits (s : State) (x y : Reg) (n px py : Nat) : (px, py) ∈ s.drawnBits x y n ↔
    ∃ i c : Nat, i < n ∧ c < 8 ∧ (s.byteAt (s.indexAddr + i)).getLsbD (7 - c) = true ∧
      px = spriteColumn (s.reg x) + c ∧ py = spriteRow (s.reg y) + i := by
  rw [State.drawnBits, mem_spriteBits]
  constructor
  · rintro ⟨i, c, hi, hc, hb, hx, hy⟩
    have hi' : i < n := by simpa using hi
    exact ⟨i, c, hi', hc, by simpa using hb, hx, hy⟩
  · rintro ⟨i, c, hi, hc, hb, hx, hy⟩
    exact ⟨i, c, by simpa using hi, hc, by simpa using hb, hx, hy⟩

/-- DRW with targets T: they are toggled and VF is the collision (R184). -/
theorem execDrw_ok (x y : Reg) (n : Fin 16) (s : State) (ts : List Pixel) (h : spriteTargets x y n.val s = .ok ts) :
    execDrw x y n s = .next ((s.setVid (xorPixels ts s.vid false).1).setVf (xorPixels ts s.vid false).2) := by
  simp only [execDrw, h, except_ok_bind, settle_ok]

/-- DRW that raises changes nothing but the fault record (R184). -/
theorem execDrw_error (x y : Reg) (n : Fin 16) (s : State) (r : Raise) (h : spriteTargets x y n.val s = .error r) :
    execDrw x y n s = .next (s.raise r) := by
  simp only [execDrw, h, except_error_bind, settle_error]

/-! ## Any instruction -/

/-- An instruction answers a next state: the fault it raised taken in `s`, or a state that keeps the fault record, the latched
word, the keypad and the parameters (R12, R222). -/
theorem exec_cases (i : Instr) (s : State) : ∃ t, exec i s = .next t ∧
    ((∃ r, t = s.raise r) ∨ (t.fault = s.fault ∧ t.op = s.op ∧ t.keys = s.keys ∧ t.params = s.params)) := by
  have plain : ∀ t : State, (t.fault = s.fault ∧ t.op = s.op ∧ t.keys = s.keys ∧ t.params = s.params) →
      ∃ u, Host.Outcome.next t = (Host.Outcome.next u : Outcome) ∧
        ((∃ r, u = s.raise r) ∨ (u.fault = s.fault ∧ u.op = s.op ∧ u.keys = s.keys ∧ u.params = s.params)) :=
    fun t h => ⟨t, rfl, Or.inr h⟩
  have settled : ∀ e : Except Raise State,
      (∀ t, e = .ok t → t.fault = s.fault ∧ t.op = s.op ∧ t.keys = s.keys ∧ t.params = s.params) →
      ∃ u, settle s e = .next u ∧
        ((∃ r, u = s.raise r) ∨ (u.fault = s.fault ∧ u.op = s.op ∧ u.keys = s.keys ∧ u.params = s.params)) := by
    intro e h
    cases e with
    | ok t => exact ⟨t, rfl, Or.inr (h t rfl)⟩
    | error r => exact ⟨s.raise r, rfl, Or.inl ⟨r, rfl⟩⟩
  have skip : ∀ c : Bool, (s.skipIf c).fault = s.fault ∧ (s.skipIf c).op = s.op ∧ (s.skipIf c).keys = s.keys ∧
      (s.skipIf c).params = s.params := by
    intro c
    rw [State.skipIf_eq]
    exact ⟨rfl, rfl, rfl, rfl⟩
  have logic : ∀ t : State, (t.logicFlag).fault = t.fault ∧ (t.logicFlag).op = t.op ∧ (t.logicFlag).keys = t.keys ∧
      (t.logicFlag).params = t.params := by
    intro t
    rw [State.logicFlag_eq]
    split <;> exact ⟨rfl, rfl, rfl, rfl⟩
  have advance : ∀ (t : State) (x : Reg), (t.advanceIndex x).fault = t.fault ∧ (t.advanceIndex x).op = t.op ∧
      (t.advanceIndex x).keys = t.keys ∧ (t.advanceIndex x).params = t.params := by
    intro t x
    rw [State.advanceIndex_eq]
    exact ⟨rfl, rfl, rfl, rfl⟩
  cases i with
  | cls | jp | ldK | addK | ldR | addR | sub | shr | subn | shl | ldI | jpV0 | rnd | ldVDt | ldDtV | ldStV | addI | ldF | nop =>
    exact plain _ ⟨rfl, rfl, rfl, rfl⟩
  | seK | sneK | seR | sneR => exact plain _ (skip _)
  | orR | andR | xorR => exact plain _ (logic _)
  | ret =>
    simp only [exec, execRet]
    split
    · exact settled _ (fun t h => by simp at h)
    · exact plain _ ⟨rfl, rfl, rfl, rfl⟩
  | call =>
    simp only [exec, execCall]
    split
    · exact plain _ ⟨rfl, rfl, rfl, rfl⟩
    · exact settled _ (fun t h => by simp at h)
  | ldVK x =>
    simp only [exec, execLdVK]
    split <;> exact plain _ ⟨rfl, rfl, rfl, rfl⟩
  | skp x =>
    refine settled _ fun t h => ?_
    cases hk : keyNumber (s.reg x) with
    | ok k =>
      simp only [hk, except_ok_bind, Except.ok.injEq] at h
      subst h
      exact skip _
    | error r => simp [hk] at h
  | sknp x =>
    refine settled _ fun t h => ?_
    cases hk : keyNumber (s.reg x) with
    | ok k =>
      simp only [hk, except_ok_bind, Except.ok.injEq] at h
      subst h
      exact skip _
    | error r => simp [hk] at h
  | drw x y n =>
    refine settled _ fun t h => ?_
    cases hk : spriteTargets x y n.val s with
    | ok ts =>
      simp only [hk, except_ok_bind, Except.ok.injEq] at h
      subst h
      exact ⟨rfl, rfl, rfl, rfl⟩
    | error r => simp [hk] at h
  | ldB x =>
    by_cases h : s.indexAddr + 2 ≤ 0xFFF
    · rw [exec, execLdB_ok x s h, State.stored_eq]
      exact plain _ ⟨rfl, rfl, rfl, rfl⟩
    · rw [exec, execLdB_error x s (by omega)]
      exact ⟨_, rfl, Or.inl ⟨_, rfl⟩⟩
  | stRegs x =>
    by_cases h : s.indexAddr + x.val ≤ 0xFFF
    · rw [exec, execStRegs_ok x s h, State.stored_eq]
      exact plain _ (advance _ x)
    · rw [exec, execStRegs_error x s (by omega)]
      exact ⟨_, rfl, Or.inl ⟨_, rfl⟩⟩
  | ldRegs x =>
    by_cases h : s.indexAddr + x.val ≤ 0xFFF
    · rw [exec, execLdRegs_ok x s h]
      refine plain _ ?_
      rw [State.advanceIndex_eq]
      simp only [State.setIndex_fault, State.setIndex_op, State.setIndex_keys, State.setIndex_params, State.loadRegs]
      trivial
    · rw [exec, execLdRegs_error x s (by omega)]
      exact ⟨_, rfl, Or.inl ⟨_, rfl⟩⟩

/-- The same, of a next state at hand. -/
theorem exec_next {i : Instr} {s t : State} (h : exec i s = .next t) :
    (∃ r, t = s.raise r) ∨ (t.fault = s.fault ∧ t.op = s.op ∧ t.keys = s.keys ∧ t.params = s.params) := by
  obtain ⟨u, hu, hcases⟩ := exec_cases i s
  have : u = t := by simpa [hu] using h
  exact this ▸ hcases

end Sys2Proof.Machine
end

