-- ==== Sys2Proof/Laws/Frame.lean ====
section
/-! SUPPORT. The frame of every instruction (R12): what an operation leaves unchanged, operation by operation, and then, once for
all instructions, what an instruction that raises nothing may change, and when one raises (R221). -/

namespace Sys2Proof.Machine

/-! ## Frames of the operations -/

theorem Frame.refl (c : Changes) (s : State) : Frame c s s := by
  constructor <;> intros <;> rfl

theorem Frame.trans {c : Changes} {s t u : State} (h : Frame c s t) (k : Frame c t u) : Frame c s u where
  regs r hr := (k.regs r hr).trans (h.regs r hr)
  bytes a ha := (k.bytes a ha).trans (h.bytes a ha)
  index e := (k.index e).trans (h.index e)
  pc e := (k.pc e).trans (h.pc e)
  stack e := (k.stack e).trans (h.stack e)
  sp e := (k.sp e).trans (h.sp e)
  dt e := (k.dt e).trans (h.dt e)
  st e := (k.st e).trans (h.st e)
  vid e := (k.vid e).trans (h.vid e)
  rng e := (k.rng e).trans (h.rng e)
  keys := k.keys.trans h.keys
  op := k.op.trans h.op
  fault := k.fault.trans h.fault
  params := k.params.trans h.params

theorem Frame.setReg {c : Changes} {x : Reg} (hx : x ∈ c.regs) (s : State) (b : Byte) : Frame c s (s.setReg x b) := by
  constructor <;> intros <;> try rfl
  next r hr => exact State.setReg_reg_ne s x r b fun e => hr (e ▸ hx)

theorem Frame.setVf {c : Changes} (hf : regF ∈ c.regs) (s : State) (b : Bool) : Frame c s (s.setVf b) :=
  Frame.setReg hf s (boolByte b)

theorem Frame.setPc {c : Changes} (hc : c.pc = true) (s : State) (w : Word) : Frame c s (s.setPc w) := by
  constructor <;> intros <;> try rfl
  next e => exact absurd (hc.symm.trans e) (by decide)

theorem Frame.setIndex {c : Changes} (hc : c.index = true) (s : State) (w : Word) : Frame c s (s.setIndex w) := by
  constructor <;> intros <;> try rfl
  next e => exact absurd (hc.symm.trans e) (by decide)

theorem Frame.setDt {c : Changes} (hc : c.dt = true) (s : State) (b : Byte) : Frame c s (s.setDt b) := by
  constructor <;> intros <;> try rfl
  next e => exact absurd (hc.symm.trans e) (by decide)

theorem Frame.setSt {c : Changes} (hc : c.st = true) (s : State) (b : Byte) : Frame c s (s.setSt b) := by
  constructor <;> intros <;> try rfl
  next e => exact absurd (hc.symm.trans e) (by decide)

theorem Frame.setVid {c : Changes} (hc : c.vid = true) (s : State) (v : Video) : Frame c s (s.setVid v) := by
  constructor <;> intros <;> try rfl
  next e => exact absurd (hc.symm.trans e) (by decide)

theorem Frame.setRng {c : Changes} (hc : c.rng = true) (s : State) (w : RngWord) : Frame c s (s.setRng w) := by
  constructor <;> intros <;> try rfl
  next e => exact absurd (hc.symm.trans e) (by decide)

theorem Frame.popPc {c : Changes} (hp : c.pc = true) (hs : c.sp = true) (s : State) : Frame c s s.popPc := by
  constructor <;> intros <;> try rfl
  next e => exact absurd (hp.symm.trans e) (by decide)
  next e => exact absurd (hs.symm.trans e) (by decide)

theorem Frame.push {c : Changes} (hk : c.stack = true) (hs : c.sp = true) (s : State) (w : Word) (room : s.sp.val < Config.stackDepth) :
    Frame c s (s.push w room) := by
  constructor <;> intros <;> try rfl
  next e => exact absurd (hk.symm.trans e) (by decide)
  next e => exact absurd (hs.symm.trans e) (by decide)

theorem Frame.skipIf {c : Changes} (hc : c.pc = true) (s : State) (b : Bool) : Frame c s (s.skipIf b) := by
  unfold State.skipIf
  split
  · exact Frame.setPc hc s _
  · exact Frame.refl c s

theorem Frame.logicFlag {c : Changes} (s : State) (hc : s.params.logicResetsVf = true → regF ∈ c.regs) :
    Frame c s s.logicFlag := by
  unfold State.logicFlag
  split
  · next e => exact Frame.setReg (hc e) s 0
  · exact Frame.refl c s

theorem Frame.advanceIndex {c : Changes} (s : State) (x : Reg) (hc : s.params.loadStoreIncrementsI = true → c.index = true) :
    Frame c s (s.advanceIndex x) := by
  unfold State.advanceIndex
  split
  · next e => exact Frame.setIndex (hc e) s _
  · exact Frame.refl c s

/-- A store changes the bytes it stores to. -/
theorem Frame.stored {c : Changes} (s : State) (a : Nat) (bs : List Byte) (hc : ∀ q, a ≤ q → q < a + bs.length → q ∈ c.bytes) :
    Frame c s (s.stored a bs) := by
  have e := State.stored_eq bs a s
  constructor
  case bytes =>
    intro q hq
    refine State.stored_byteAt_outside bs a s q ?_
    by_cases h1 : a ≤ q
    · exact Or.inr (Nat.not_lt.1 fun h2 => hq (hc q h1 h2))
    · exact Or.inl (Nat.not_le.1 h1)
  all_goals (intros; rw [e]; rfl)

/-- Registers loaded from n bytes are V0 to V(n-1). -/
theorem Frame.loadRegs {c : Changes} (s : State) (bs : List Byte) (hc : ∀ r : Reg, r.val < bs.length → r ∈ c.regs) :
    Frame c s (s.loadRegs bs) := by
  constructor
  case regs =>
    intro r hr
    rw [State.loadRegs_reg, List.getElem?_eq_none (Nat.not_lt.1 fun h => hr (hc r h)), Option.getD_none]
  all_goals (intros; simp only [State.loadRegs, State.byteAt])

/-! ## Any instruction -/

/-- What an instruction that raises nothing may change in `s`, as its rule says (R110 to R118, R131 to R144, R160 to R166, R183, R184,
R200 to R205). -/
def Instr.changes (i : Instr) (s : State) : Changes :=
  match i with
  | .cls _ => { vid := true }
  | .ret _ => { pc := true, sp := true }
  | .call _ => { pc := true, sp := true, stack := true }
  | .jp _ | .jpV0 _ | .seK _ _ | .sneK _ _ | .seR _ _ _ | .sneR _ _ _ | .skp _ _ | .sknp _ _ => { pc := true }
  | .ldK x _ | .addK x _ | .ldR x _ | .ldVDt x => { regs := [x] }
  | .orR x _ | .andR x _ | .xorR x _ => { regs := if s.params.logicResetsVf then [x, regF] else [x] }
  | .addR x _ | .sub x _ | .shr x _ | .subn x _ | .shl x _ => { regs := [x, regF] }
  | .ldI _ | .addI _ | .ldF _ => { index := true }
  | .rnd x _ => { regs := [x], rng := true }
  | .drw _ _ _ => { regs := [regF], vid := true }
  | .ldVK x => { regs := if s.lowestKey.isSome then [x] else [], pc := s.lowestKey.isNone }
  | .ldDtV _ => { dt := true }
  | .ldStV _ => { st := true }
  | .ldB _ => { bytes := List.range' s.indexAddr 3 }
  | .stRegs x => { bytes := List.range' s.indexAddr (x.val + 1), index := s.params.loadStoreIncrementsI }
  | .ldRegs x => { regs := (List.finRange 16).filter (fun r => r ≤ x), index := s.params.loadStoreIncrementsI }
  | .nop _ => {}

/-- When an instruction raises, and what (R221). -/
def Instr.mayRaise (i : Instr) (s : State) (r : Raise) : Prop :=
  match i with
  | .ret _ => s.sp.val = 0 ∧ r = ⟨.stackUnderflow, 0⟩
  | .call _ => s.sp.val = 16 ∧ r = ⟨.stackOverflow, 16⟩
  | .skp x _ | .sknp x _ => 0xF < (s.reg x).toNat ∧ r = ⟨.keyIndexOutOfRange, (s.reg x).toNat⟩
  | .ldB _ => 0xFFF < s.indexAddr + 2 ∧ r = ⟨.memOutOfRange, max s.indexAddr 0x1000⟩
  | .stRegs x | .ldRegs x => 0xFFF < s.indexAddr + x.val ∧ r = ⟨.memOutOfRange, max s.indexAddr 0x1000⟩
  | .drw x y n =>
    if n.val = 0 ∨ s.indexAddr + n.val - 1 ≤ 0xFFF then
      ∃ px py, (px, py) ∈ s.drawnBits x y n.val ∧ raisesAt s.params.offscreen px py ∧ r = ⟨.spriteOffScreen, py * 64 + px⟩
    else r = ⟨.memOutOfRange, max s.indexAddr 0x1000⟩
  | _ => False

/-- THE FRAME OF EVERY INSTRUCTION: it raises, under its rule's condition and in the state it ran from, or it changes what its rule
names and nothing else. -/
theorem exec_frame (i : Instr) (s : State) : ∃ t, exec i s = .next t ∧
    ((∃ r, t = s.raise r ∧ Instr.mayRaise i s r) ∨ Frame (Instr.changes i s) s t) := by
  have vf2 : ∀ (x : Reg) (b : Bool) (v : Byte), Frame { regs := [x, regF] } s ((s.setVf b).setReg x v) := fun x b v =>
    (Frame.setVf (by simp) s b).trans (Frame.setReg (by simp) _ v)
  have logic : ∀ (x : Reg) (v : Byte),
      Frame { regs := if s.params.logicResetsVf then [x, regF] else [x] } s (s.setReg x v).logicFlag := by
    intro x v
    refine (Frame.setReg ?_ s v).trans (Frame.logicFlag _ fun e => ?_)
    · simp only; split <;> simp
    · have e' : s.params.logicResetsVf = true := e
      simp [e']
  cases i with
  | cls => exact ⟨_, rfl, Or.inr (Frame.setVid rfl s _)⟩
  | jp | jpV0 => exact ⟨_, rfl, Or.inr (Frame.setPc rfl s _)⟩
  | seK | sneK | seR | sneR => exact ⟨_, rfl, Or.inr (Frame.skipIf rfl s _)⟩
  | ldK | addK | ldR | ldVDt => exact ⟨_, rfl, Or.inr (Frame.setReg (by simp [Instr.changes]) s _)⟩
  | orR | andR | xorR => exact ⟨_, rfl, Or.inr (logic _ _)⟩
  | addR | sub | shr | subn | shl => exact ⟨_, rfl, Or.inr (vf2 _ _ _)⟩
  | ldI | addI | ldF => exact ⟨_, rfl, Or.inr (Frame.setIndex rfl s _)⟩
  | ldDtV => exact ⟨_, rfl, Or.inr (Frame.setDt rfl s _)⟩
  | ldStV => exact ⟨_, rfl, Or.inr (Frame.setSt rfl s _)⟩
  | nop => exact ⟨_, rfl, Or.inr (Frame.refl _ s)⟩
  | rnd x kk =>
    exact ⟨_, rfl, Or.inr ((Frame.setRng rfl s _).trans (Frame.setReg (by simp [Instr.changes]) _ _))⟩
  | ret =>
    by_cases h : s.sp.val = 0
    · exact ⟨_, by simp only [exec, execRet, h]; rfl, Or.inl ⟨_, rfl, h, rfl⟩⟩
    · exact ⟨s.popPc, by simp only [exec, execRet]; rw [if_neg h], Or.inr (Frame.popPc rfl rfl s)⟩
  | call =>
    by_cases h : s.sp.val < Config.stackDepth
    · exact ⟨_, by simp only [exec, execCall]; rw [dif_pos h],
        Or.inr ((Frame.push rfl rfl s s.pc h).trans (Frame.setPc rfl _ _))⟩
    · have h16 : s.sp.val = 16 := by
        have := s.sp.isLt
        simp only [Config.stackDepth] at h
        omega
      exact ⟨_, by simp only [exec, execCall, h16]; rfl, Or.inl ⟨_, rfl, h16, rfl⟩⟩
  | skp x | sknp x =>
    by_cases h : 0xF < (s.reg x).toNat
    · exact ⟨_, by simp only [exec, execSkp, execSknp, keyNumber_error _ h, except_error_bind, settle_error],
        Or.inl ⟨_, rfl, h, rfl⟩⟩
    · exact ⟨_, by simp only [exec, execSkp, execSknp, keyNumber_ok _ ⟨(s.reg x).toNat, by omega⟩ rfl, except_ok_bind, settle_ok]; rfl,
        Or.inr (Frame.skipIf rfl s _)⟩
  | ldVK x =>
    cases hk : s.lowestKey with
    | some k =>
      exact ⟨_, by simp only [exec, execLdVK, hk]; rfl, Or.inr (Frame.setReg (by simp [Instr.changes, hk]) s _)⟩
    | none => exact ⟨_, by simp only [exec, execLdVK, hk]; rfl, Or.inr (Frame.setPc (by simp [Instr.changes, hk]) s _)⟩
  | ldB x =>
    by_cases h : s.indexAddr + 2 ≤ 0xFFF
    · refine ⟨_, execLdB_ok x s h, Or.inr (Frame.stored s _ _ fun q h1 h2 => ?_)⟩
      have : (bcdDigits (s.reg x)).length = 3 := rfl
      simp only [Instr.changes, List.mem_range'_1]
      omega
    · exact ⟨_, execLdB_error x s (by omega), Or.inl ⟨_, rfl, by omega, rfl⟩⟩
  | stRegs x =>
    by_cases h : s.indexAddr + x.val ≤ 0xFFF
    · refine ⟨_, execStRegs_ok x s h, Or.inr ((Frame.stored s _ _ fun q h1 h2 => ?_).trans (Frame.advanceIndex _ x fun e => ?_))⟩
      · rw [State.regsTo_length] at h2
        simp only [Instr.changes, List.mem_range'_1]
        omega
      · rw [State.stored_eq] at e
        exact e
    · exact ⟨_, execStRegs_error x s (by omega), Or.inl ⟨_, rfl, by omega, rfl⟩⟩
  | ldRegs x =>
    by_cases h : s.indexAddr + x.val ≤ 0xFFF
    · refine ⟨_, execLdRegs_ok x s h, Or.inr ((Frame.loadRegs s _ fun r hr => ?_).trans (Frame.advanceIndex _ x fun e => e))⟩
      simp only [List.length_map, List.length_range'] at hr
      simp only [Instr.changes, List.mem_filter, List.mem_finRange, true_and, decide_eq_true_eq]
      exact Nat.le_of_lt_succ hr
    · exact ⟨_, execLdRegs_error x s (by omega), Or.inl ⟨_, rfl, by omega, rfl⟩⟩
  | drw x y n =>
    by_cases h : n.val = 0 ∨ s.indexAddr + n.val - 1 ≤ 0xFFF
    · rcases targetPixels_cases s.params.offscreen (s.drawnBits x y n.val) with ⟨ts, hts⟩ | ⟨px, py, hm, hr, he⟩
      · exact ⟨_, execDrw_ok x y n s ts ((spriteTargets_eq s x y n.val h).trans hts),
          Or.inr ((Frame.setVid rfl s _).trans (Frame.setVf (by simp [Instr.changes]) _ _))⟩
      · refine ⟨_, execDrw_error x y n s _ ((spriteTargets_eq s x y n.val h).trans he), Or.inl ⟨_, rfl, ?_⟩⟩
        simp only [Instr.mayRaise]
        rw [if_pos h]
        exact ⟨px, py, hm, hr, rfl⟩
    · have hrows := spriteRows_error s n.val (by omega) (by omega)
      refine ⟨_, execDrw_error x y n s _ (by simp only [spriteTargets, hrows]; rfl), Or.inl ⟨_, rfl, ?_⟩⟩
      simp only [Instr.mayRaise]
      rw [if_neg h]
      trivial

/-- Every instruction keeps the canonical form of memory (log 6): only a transfer stores, and inside the 4096 bytes. -/
theorem exec_mem_wf (i : Instr) (s t : State) (hwf : s.mem.wf = true) (h : exec i s = .next t) : t.mem.wf = true := by
  obtain ⟨u, hu, ⟨r, rfl, -⟩ | -⟩ := exec_frame i s
  · have : s.raise r = t := by simpa [hu] using h
    subst this
    exact hwf
  have same : ∀ v : State, exec i s = .next v → v.mem = s.mem → t.mem.wf = true := by
    intro v hv hm
    have : v = t := by simpa [hv] using h
    rw [← this, hm]
    exact hwf
  have skip : ∀ b, (s.skipIf b).mem = s.mem := fun b => by
    rw [State.skipIf_eq]
    rfl
  have logic : ∀ v : State, v.logicFlag.mem = v.mem := fun v => by
    rw [State.logicFlag_eq]
    split <;> rfl
  have advance : ∀ (v : State) (x : Reg), (v.advanceIndex x).mem = v.mem := fun v x => by
    rw [State.advanceIndex_eq]
    rfl
  have raised : ∀ r, (s.raise r).mem = s.mem := fun r => rfl
  cases i with
  | cls | jp | jpV0 | ldK | addK | ldR | addR | sub | shr | subn | shl | ldI | rnd | ldVDt | ldDtV | ldStV | addI | ldF | nop =>
    exact same _ rfl rfl
  | seK | sneK | seR | sneR => exact same _ rfl (skip _)
  | orR | andR | xorR => exact same _ rfl (logic _)
  | ret =>
    simp only [exec, execRet] at h
    split at h
    · cases h
      exact hwf
    · cases h
      exact hwf
  | call =>
    simp only [exec, execCall] at h
    split at h
    · cases h
      exact hwf
    · cases h
      exact hwf
  | ldVK =>
    simp only [exec, execLdVK] at h
    split at h
    · cases h
      exact hwf
    · cases h
      exact hwf
  | skp x | sknp x =>
    by_cases hx : 0xF < (s.reg x).toNat
    · exact same _ (by simp only [exec, execSkp, execSknp, keyNumber_error _ hx, except_error_bind, settle_error]; rfl) (raised _)
    · exact same _ (by
        simp only [exec, execSkp, execSknp, keyNumber_ok _ ⟨(s.reg x).toNat, by omega⟩ rfl, except_ok_bind, settle_ok]
        rfl) (skip _)
  | ldB x =>
    by_cases hx : s.indexAddr + 2 ≤ 0xFFF
    · rw [exec, execLdB_ok x s hx] at h
      cases h
      exact State.stored_wf _ _ _ hwf (by simp only [bcdDigits, List.length_cons, List.length_nil]; omega)
    · exact same _ (execLdB_error x s (by omega)) (raised _)
  | stRegs x =>
    by_cases hx : s.indexAddr + x.val ≤ 0xFFF
    · rw [exec, execStRegs_ok x s hx] at h
      cases h
      rw [advance]
      exact State.stored_wf _ _ _ hwf (by rw [State.regsTo_length]; omega)
    · exact same _ (execStRegs_error x s (by omega)) (raised _)
  | ldRegs x =>
    by_cases hx : s.indexAddr + x.val ≤ 0xFFF
    · exact same _ (execLdRegs_ok x s hx) (advance _ x)
    · exact same _ (execLdRegs_error x s (by omega)) (raised _)
  | drw x y n =>
    cases hk : spriteTargets x y n.val s with
    | ok ts => exact same _ (execDrw_ok x y n s ts hk) rfl
    | error r => exact same _ (execDrw_error x y n s r hk) (raised r)

end Sys2Proof.Machine
end

