-- ==== Sys2Proof/Laws/Step.lean ====
section
/-! SUPPORT. What one execution cycle can do: one lemma, which says it once for every proof about `step` (R90 to R97). -/

namespace Sys2Proof.Machine

/-- The four things a step can do: nothing, in a faulted core; the fetch fault; the fault its instruction raised, taken in the
state of the start of the step; the instruction's effect and the timer tick. -/
theorem step_cases (s : State) :
    (s.fault ≠ none ∧ step s = .next s) ∨
    (s.fault = none ∧ s.canFetch = false ∧ step s = .next s.fetchFault) ∨
    (s.fault = none ∧ s.canFetch = true ∧ ∃ r, exec (decode s.fetchWord) s.beginCycle = .next (s.beginCycle.raise r) ∧
      step s = .next (s.enterFault ⟨r.code, s.pc, some s.fetchWord, r.info⟩)) ∨
    (s.fault = none ∧ s.canFetch = true ∧ ∃ t, exec (decode s.fetchWord) s.beginCycle = .next t ∧ t.fault = none ∧
      t.op = s.fetchWord ∧ t.keys = s.keys ∧ t.params = s.params ∧ step s = .next t.tickTimers) := by
  by_cases hf : s.fault = none
  · right
    cases hc : s.canFetch with
    | false =>
      left
      exact ⟨hf, rfl, by simp [step, hf, hc]⟩
    | true =>
      right
      obtain ⟨t, ht, ⟨r, hr⟩ | ⟨h1, h2, h3, h4⟩⟩ := exec_cases (decode s.fetchWord) s.beginCycle
      · left
        subst hr
        refine ⟨hf, rfl, r, ht, ?_⟩
        simp [step, hf, hc, ht, endCycle, State.raise, State.enterFault]
      · right
        have hnone : t.fault = none := by rw [h1, State.beginCycle_fault, hf]
        exact ⟨hf, rfl, t, ht, hnone, h2, h3, h4, by simp [step, hf, hc, ht, endCycle_of_none _ _ hnone]⟩
  · left
    refine ⟨hf, ?_⟩
    have : s.fault.isSome = true := Option.isSome_iff_ne_none.2 hf
    simp [step, this]

/-- The same, with what the instruction may have done: it raised under its rule's condition, or changed what its rule names. -/
theorem step_frame (s : State) :
    (s.fault ≠ none ∧ step s = .next s) ∨
    (s.fault = none ∧ s.canFetch = false ∧ step s = .next s.fetchFault) ∨
    (s.fault = none ∧ s.canFetch = true ∧ ∃ r, Instr.mayRaise (decode s.fetchWord) s.beginCycle r ∧
      step s = .next (s.enterFault ⟨r.code, s.pc, some s.fetchWord, r.info⟩)) ∨
    (s.fault = none ∧ s.canFetch = true ∧ ∃ t, exec (decode s.fetchWord) s.beginCycle = .next t ∧
      Frame (Instr.changes (decode s.fetchWord) s.beginCycle) s.beginCycle t ∧ step s = .next t.tickTimers) := by
  rcases step_cases s with h | h | ⟨hf, hc, r, he, hs⟩ | ⟨hf, hc, t, he, ht, -, -, -, hs⟩
  · exact Or.inl h
  · exact Or.inr (Or.inl h)
  · refine Or.inr (Or.inr (Or.inl ⟨hf, hc, r, ?_, hs⟩))
    obtain ⟨u, hu, ⟨r', e, hr⟩ | hframe⟩ := exec_frame (decode s.fetchWord) s.beginCycle
    · have : s.beginCycle.raise r = s.beginCycle.raise r' := by simpa [he, e] using hu
      simp only [State.raise, State.enterFault, State.mk.injEq, Option.some.injEq, FaultRecord.mk.injEq, true_and, and_true] at this
      have e' : r = r' := by
        cases r
        cases r'
        simp_all
      exact e' ▸ hr
    · have : s.beginCycle.raise r = u := by simpa [he] using hu
      have hfault := hframe.fault
      rw [← this, State.beginCycle_fault, hf] at hfault
      simp [State.raise, State.enterFault] at hfault
  · refine Or.inr (Or.inr (Or.inr ⟨hf, hc, t, he, ?_, hs⟩))
    obtain ⟨u, hu, ⟨r', e, -⟩ | hframe⟩ := exec_frame (decode s.fetchWord) s.beginCycle
    · have : t = s.beginCycle.raise r' := by simpa [he, e] using hu
      rw [this] at ht
      simp [State.raise, State.enterFault] at ht
    · have : t = u := by simpa [he] using hu
      exact this ▸ hframe

/-- A step that fetches ends the cycle its instruction's next state is in. -/
theorem step_of_exec (s t : State) (hf : s.fault = none) (hc : s.canFetch = true)
    (he : exec (decode s.fetchWord) s.beginCycle = .next t) : step s = .next (endCycle s t) := by
  simp [step, hf, hc, he]

/-- Whether the word at pc can be fetched, in numbers (R91). -/
theorem State.canFetch_iff (s : State) : s.canFetch = true ↔ s.pc.toNat ≤ 0xFFE := by
  simp [State.canFetch]

/-- The advanced pc never wraps (R93). -/
theorem State.beginCycle_pc_toNat (s : State) (h : s.canFetch = true) : s.beginCycle.pc.toNat = s.pc.toNat + 2 := by
  have hpc := (State.canFetch_iff s).1 h
  rw [State.beginCycle_pc, BitVec.toNat_add]
  have : (2 : Word).toNat = 2 := rfl
  omega

end Sys2Proof.Machine
end

