-- ==== Sys2Proof/Laws/HostRun.lean ====
section
/-! SUPPORT. What the host's moves and the runs of the core with its host can do (R240 to R246, R250). -/

namespace Sys2Proof.Machine

/-! ## The host's writes and `create` -/

/-- The host's memory writes are stores at ascending addresses (R244). -/
theorem State.loadBytes_eq_stored : ∀ (bs : List Byte) (a : Nat) (s : State), s.loadBytes a bs = s.stored a bs
  | [], _, _ => rfl
  | b :: bs, a, s => State.loadBytes_eq_stored bs (a + 1) (s.setByte a b)

/-- A font table is 80 bytes (R7, R180). -/
@[simp] theorem fontTable_length (p : Params) : (fontTable p).length = 80 := by
  simp [fontTable, fontGlyph0]

/-- Writing the byte an address of an empty memory reads as lists nothing (log 6). -/
theorem State.stored_of_same : ∀ (bs : List Byte) (a : Nat) (s : State), s.mem = [] →
    (∀ (i : Nat) (hi : i < bs.length), bs[i] = resetByte (a + i)) → s.stored a bs = s
  | [], _, _, _, _ => rfl
  | b :: bs, a, s, hm, h => by
    have hb : s.setByte a b = s := by
      have : b = resetByte a := h 0 (Nat.zero_lt_succ _)
      have hset : s.mem.set a b = s.mem := by rw [hm, Memory.set, if_pos this]
      rw [State.setByte, hset]
      rfl
    rw [State.stored, hb]
    refine State.stored_of_same bs (a + 1) s hm fun i hi => ?_
    have := h (i + 1) (Nat.succ_lt_succ hi)
    rwa [show a + (i + 1) = a + 1 + i by omega] at this

/-- `create` leaves every field but memory and the parameters as State.reset has it (R240). -/
theorem State.create_eq (s : State) : s.create = { State.reset with params := s.params, mem := s.create.mem } := by
  rw [State.create, State.loadBytes_eq_stored]
  exact State.stored_eq (fontTable s.params) Config.fontBase { State.reset with params := s.params }

/-- `create` leaves canonical memory. -/
theorem State.create_mem_wf (s : State) : s.create.mem.wf = true := by
  rw [State.create, State.loadBytes_eq_stored]
  exact State.stored_wf _ _ _ reset_memory_wf (by rw [fontTable_length]; decide)

/-- `create` installs the machine's font (R180, R240). -/
theorem State.create_byteAt_font (s : State) (i : Nat) (h : i < (fontTable s.params).length) :
    s.create.byteAt (Config.fontBase + i) = (fontTable s.params)[i] := by
  simp only [State.create, State.loadBytes_eq_stored]
  exact State.stored_byteAt (fontTable s.params) Config.fontBase { State.reset with params := s.params } reset_memory_wf
    (by rw [fontTable_length]; decide) i h

/-- Outside the font's 80 bytes `create` leaves 0 (R33, R240). -/
theorem State.create_byteAt_outside (s : State) (a : Nat) (h : a < 0x050 ∨ 0x0A0 ≤ a) : s.create.byteAt a = 0 := by
  have hout : s.create.byteAt a = resetByte a := by
    rw [State.create, State.loadBytes_eq_stored, State.stored_byteAt_outside _ _ _ _ (by rw [fontTable_length]; exact h)]
    rfl
  rw [hout, resetByte]
  split
  · next hb =>
    have hlen : (fontTable defaultParams).length ≤ a - Config.fontBase := by
      rw [fontTable_length]
      simp only [Config.fontBase] at hb ⊢
      omega
    rw [List.getD_eq_getElem?_getD, List.getElem?_eq_none hlen]
    rfl
  · rfl

/-- With the default font `create` leaves the reset state (R33, D19). -/
theorem State.create_of_defaultFont (s : State) (h : s.params.font = defaultFont) :
    s.create = { State.reset with params := s.params } := by
  rw [State.create, State.loadBytes_eq_stored]
  refine State.stored_of_same _ _ _ rfl fun i hi => ?_
  have hfont : fontTable s.params = fontTable defaultParams := by simp only [fontTable, h, defaultParams]
  have hi' : i < (fontTable defaultParams).length := by rwa [← hfont]
  rw [resetByte, if_pos (by simp only [Config.fontBase]; omega), Nat.add_sub_cancel_left, List.getD_eq_getElem?_getD,
    List.getElem?_eq_getElem hi', Option.getD_some]
  simp only [hfont]

/-! ## Moves of the host -/

/-- A move of the host leaves canonical memory canonical. -/
theorem hostAct_mem_wf (a : HostAction) (s t : State) (h : s.mem.wf = true) (ha : hostAct a s = .ok t) : t.mem.wf = true := by
  cases a with
  | create => exact Except.ok.inj ha ▸ State.create_mem_wf s
  | writeByte addr data =>
    simp only [hostAct] at ha
    split at ha
    · cases ha
    · exact Except.ok.inj ha ▸ Memory.wf_set s.mem addr.toNat data h (by have := addr.isLt; omega)
  | loadRom rom =>
    simp only [hostAct] at ha
    split at ha
    · cases ha
    · next hlen =>
      rw [← Except.ok.inj ha, State.loadBytes_eq_stored]
      exact State.stored_wf _ _ _ h (by simp only [Config.maxRom, Config.entry] at hlen ⊢; omega)
  | setKeys keys => exact Except.ok.inj ha ▸ h
  | seed value => exact Except.ok.inj ha ▸ h
  | randomByte => exact Except.ok.inj ha ▸ h

/-- A move of the host but `create` touches memory, the keypad and the generator only (R246). -/
theorem hostAct_eq (a : HostAction) (s t : State) (hc : a ≠ .create) (ha : hostAct a s = .ok t) :
    t = { s with mem := t.mem, keys := t.keys, rngState := t.rngState } := by
  cases a with
  | create => exact absurd rfl hc
  | writeByte addr data =>
    simp only [hostAct] at ha
    split at ha
    · cases ha
    · exact Except.ok.inj ha ▸ rfl
  | loadRom rom =>
    simp only [hostAct] at ha
    split at ha
    · cases ha
    · rw [← Except.ok.inj ha, State.loadBytes_eq_stored, State.stored_eq]
      rfl
  | setKeys keys => exact Except.ok.inj ha ▸ rfl
  | seed value => exact Except.ok.inj ha ▸ rfl
  | randomByte => exact Except.ok.inj ha ▸ rfl

/-- A move of the host within a run is never refused, and touches the keypad and the generator only (R246). -/
theorem hostAct_inRun (a : HostAction) (s : State) (h : a.inRun = true) :
    ∃ t, hostAct a s = .ok t ∧ t = { s with keys := t.keys, rngState := t.rngState } := by
  cases a with
  | setKeys keys => exact ⟨_, rfl, rfl⟩
  | seed value => exact ⟨_, rfl, rfl⟩
  | randomByte => exact ⟨_, rfl, rfl⟩
  | create => cases h
  | writeByte addr data => cases h
  | loadRom rom => cases h

/-- The same of a sequence of moves. -/
theorem hostMoves_inRun : ∀ (moves : List HostAction) (s : State), (∀ a ∈ moves, a.inRun = true) →
    ∃ t, hostMoves moves s = .ok t ∧ t = { s with keys := t.keys, rngState := t.rngState }
  | [], s, _ => ⟨s, rfl, rfl⟩
  | a :: rest, s, h => by
    obtain ⟨u, hu, eu⟩ := hostAct_inRun a s (h a List.mem_cons_self)
    obtain ⟨t, ht, et⟩ := hostMoves_inRun rest u fun b hb => h b (List.mem_cons_of_mem a hb)
    refine ⟨t, by rw [hostMoves, hu]; exact ht, ?_⟩
    rw [et, eu]

/-- What every move of the host keeps, a sequence of moves keeps. -/
theorem hostMoves_keeps {P : State → Prop} (hP : ∀ a s t, P s → hostAct a s = .ok t → P t) :
    ∀ (moves : List HostAction) (s t : State), P s → hostMoves moves s = .ok t → P t
  | [], _, _, h, e => Except.ok.inj e ▸ h
  | a :: rest, s, t, h, e => by
    rw [hostMoves] at e
    split at e
    · next u hu => exact hostMoves_keeps hP rest u t (hP a s u h hu) e
    · cases e

/-! ## Runs -/

/-- A run of no steps ends where it began. -/
@[simp] theorem reaches_nil (s t : State) : reaches [] s t ↔ t = s := by
  simp [reaches, hostedRun, eq_comm]

/-- A run is the host's moves, a step, and the run from there. -/
theorem reaches_cons (moves : List HostAction) (rest : Schedule) (s t : State) :
    reaches (moves :: rest) s t ↔ ∃ u v, hostMoves moves s = .ok u ∧ step u = .next v ∧ reaches rest v t := by
  simp only [reaches, hostedRun, hostedStep]
  cases hm : hostMoves moves s with
  | error r => simp
  | ok u => cases hs : step u <;> simp [hs]

/-- A run whose host does nothing is the host-free run of the machine's interface. -/
theorem reaches_replicate_nil (k : Nat) (s t : State) :
    reaches (List.replicate k []) s t ↔ Host.Core.run core k s = .next t := by
  induction k generalizing s with
  | zero => exact (reaches_nil s t).trans ⟨fun h => congrArg Host.Outcome.next h.symm, fun h => (Host.Outcome.next.inj h).symm⟩
  | succ k ih =>
    rw [List.replicate_succ, reaches_cons]
    simp only [hostMoves, Except.ok.injEq, exists_and_left, exists_eq_left', ih]
    cases hs : step s with
    | next u => simp [Host.Core.run, show core.step s = .next u from hs]
    | fault r => simp [Host.Core.run, show core.step s = .fault r from hs]
    | refused r => simp [Host.Core.run, show core.step s = .refused r from hs]

/-- What every move and every step keep, a run keeps. -/
theorem reaches_keeps {P : State → Prop} (hH : ∀ a s t, P s → hostAct a s = .ok t → P t)
    (hS : ∀ s t, P s → step s = .next t → P t) : ∀ (h : Schedule) (s t : State), P s → reaches h s t → P t
  | [], _, _, hs, hr => (reaches_nil _ _).1 hr ▸ hs
  | moves :: rest, s, t, hs, hr => by
    obtain ⟨u, v, hu, hv, ht⟩ := (reaches_cons moves rest s t).1 hr
    exact reaches_keeps hH hS rest v t (hS u v (hostMoves_keeps hH moves s u hs hu) hv) ht

end Sys2Proof.Machine
end

