-- ==== Sys2Proof/Laws/PerInstr.lean ====
section
/-! SUPPORT. The statements made per instruction (LAWS.json): the family RoundTrip, one lemma for each constructor of `Instr`. -/

namespace Sys2Proof.Laws.RoundTrip

/-- Decoding the word of a well-formed instruction gives the instruction back, every operand included. -/
def Statement (i : Instr) : Prop := i.wellFormed = true → decode (encode i) = i

theorem cls (ign : BitVec 8) : Statement (.cls ign) := by
  intro _
  simp [encode, decode, decodeFamily0]

theorem ret (ign : BitVec 8) : Statement (.ret ign) := by
  intro _
  simp [encode, decode, decodeFamily0]

theorem jp (nnn : BitVec 12) : Statement (.jp nnn) := by
  intro _
  simp [encode, decode]

theorem call (nnn : BitVec 12) : Statement (.call nnn) := by
  intro _
  simp [encode, decode]

theorem seK (x : Reg) (kk : Byte) : Statement (.seK x kk) := by
  intro _
  simp [encode, decode]

theorem sneK (x : Reg) (kk : Byte) : Statement (.sneK x kk) := by
  intro _
  simp [encode, decode]

theorem seR (x y : Reg) (ign : BitVec 4) : Statement (.seR x y ign) := by
  intro _
  simp [encode, decode]

theorem ldK (x : Reg) (kk : Byte) : Statement (.ldK x kk) := by
  intro _
  simp [encode, decode]

theorem addK (x : Reg) (kk : Byte) : Statement (.addK x kk) := by
  intro _
  simp [encode, decode]

theorem ldR (x y : Reg) : Statement (.ldR x y) := by
  intro _
  simp [encode, decode, decodeFamily8]

theorem orR (x y : Reg) : Statement (.orR x y) := by
  intro _
  simp [encode, decode, decodeFamily8]

theorem andR (x y : Reg) : Statement (.andR x y) := by
  intro _
  simp [encode, decode, decodeFamily8]

theorem xorR (x y : Reg) : Statement (.xorR x y) := by
  intro _
  simp [encode, decode, decodeFamily8]

theorem addR (x y : Reg) : Statement (.addR x y) := by
  intro _
  simp [encode, decode, decodeFamily8]

theorem sub (x y : Reg) : Statement (.sub x y) := by
  intro _
  simp [encode, decode, decodeFamily8]

theorem shr (x y : Reg) : Statement (.shr x y) := by
  intro _
  simp [encode, decode, decodeFamily8]

theorem subn (x y : Reg) : Statement (.subn x y) := by
  intro _
  simp [encode, decode, decodeFamily8]

theorem shl (x y : Reg) : Statement (.shl x y) := by
  intro _
  simp [encode, decode, decodeFamily8]

theorem sneR (x y : Reg) (ign : BitVec 4) : Statement (.sneR x y ign) := by
  intro _
  simp [encode, decode]

theorem ldI (nnn : BitVec 12) : Statement (.ldI nnn) := by
  intro _
  simp [encode, decode]

theorem jpV0 (nnn : BitVec 12) : Statement (.jpV0 nnn) := by
  intro _
  simp [encode, decode]

theorem rnd (x : Reg) (kk : Byte) : Statement (.rnd x kk) := by
  intro _
  simp [encode, decode]

theorem drw (x y : Reg) (n : Fin 16) : Statement (.drw x y n) := by
  intro _
  simp [encode, decode]

theorem skp (x : Reg) (ign : BitVec 4) : Statement (.skp x ign) := by
  intro _
  simp [encode, decode, decodeFamilyE]

theorem sknp (x : Reg) (ign : BitVec 4) : Statement (.sknp x ign) := by
  intro _
  simp [encode, decode, decodeFamilyE]

theorem ldVDt (x : Reg) : Statement (.ldVDt x) := by
  intro _
  simp [encode, decode, decodeFamilyF]

theorem ldVK (x : Reg) : Statement (.ldVK x) := by
  intro _
  simp [encode, decode, decodeFamilyF]

theorem ldDtV (x : Reg) : Statement (.ldDtV x) := by
  intro _
  simp [encode, decode, decodeFamilyF]

theorem ldStV (x : Reg) : Statement (.ldStV x) := by
  intro _
  simp [encode, decode, decodeFamilyF]

theorem addI (x : Reg) : Statement (.addI x) := by
  intro _
  simp [encode, decode, decodeFamilyF]

theorem ldF (x : Reg) : Statement (.ldF x) := by
  intro _
  simp [encode, decode, decodeFamilyF]

theorem ldB (x : Reg) : Statement (.ldB x) := by
  intro _
  simp [encode, decode, decodeFamilyF]

theorem stRegs (x : Reg) : Statement (.stRegs x) := by
  intro _
  simp [encode, decode, decodeFamilyF]

theorem ldRegs (x : Reg) : Statement (.ldRegs x) := by
  intro _
  simp [encode, decode, decodeFamilyF]

/-- NOP's word is no word of a row, so no arm of the decoder but the default takes it (R81, R98). -/
theorem nop (w : Word) : Statement (.nop w) := by
  intro h
  simp (disch := decide) only [Instr.wellFormed, Bool.not_eq_true', populated, opcodeMap, opcodeRowsByNibble,
    opcodeRowsFamily8, opcodeRowsFamilyEF, List.any_append, List.any_cons, List.any_nil, OpcodeRow.matches,
    Bool.or_eq_false_iff, beq_eq_false_iff_ne, ne_eq, masked_family_iff, masked_family_nibble_iff,
    masked_family_byte_iff] at h
  simp only [BitVec.ofNat_eq_ofNat, BitVec.toNat_ofNat, Nat.reducePow, Nat.reduceMod, Nat.reduceDiv] at h
  simp only [encode, decode]
  split
  case h_1 => unfold decodeFamily0; split <;> simp_all
  case h_9 => unfold decodeFamily8; split <;> simp_all
  case h_15 => unfold decodeFamilyE; split <;> simp_all
  case h_16 => unfold decodeFamilyF; split <;> simp_all
  all_goals simp_all

end Sys2Proof.Laws.RoundTrip
end

