-- ==== Sys2Proof/Tests/Slice0.lean ====
section
/-! SUPPORT. Tests of the model: the check of WellFormed, words written out from the spec's formats, single steps whose expected
results are those of 95_test_vectors.md (L1 and L2; the row's number stands in each docstring), and a witness for the hypotheses
of every obligation that has some. -/

namespace Sys2Proof.Tests

open Sys2Proof.Machine Sys2Proof.Claims

/-! ## WellFormed -/

/-- NOP with the word of CLS is ill-formed (R81: an unpopulated word is NOP). -/
theorem test_wellFormed_refuses_nop_of_cls : (Instr.nop 0x00E0).wellFormed = false := by decide

/-- The other rows' words too: the last one of family 0xF. -/
theorem test_wellFormed_refuses_nop_of_ldRegs : (Instr.nop 0xF565).wellFormed = false := by decide

theorem test_wellFormed_accepts_nop : (Instr.nop 0x8008).wellFormed = true := by decide

theorem test_wellFormed_accepts_drw : (Instr.drw 0xF 0xF 0xF).wellFormed = true := by decide

/-! ## Decoding: words written out bit by bit from R71, R72 and the match column of R83 -/

theorem test_decode_family0 :
    decode 0b0000000011100000 = .cls 0x0E ∧
    decode 0b0000101011100000 = .cls 0xAE ∧
    decode 0b0000000011101110 = .ret 0x0E ∧
    decode 0b0000000100101110 = .ret 0x12 ∧
    decode 0b0000000011100001 = .nop 0x00E1 := by decide

theorem test_decode_jumps_and_calls :
    decode 0b0001101010111100 = .jp 0xABC ∧
    decode 0b0010001100000001 = .call 0x301 ∧
    decode 0b1011111111110001 = .jpV0 0xFF1 := by decide

theorem test_decode_skips :
    decode 0b0011001101000010 = .seK 3 0x42 ∧
    decode 0b0100001101000010 = .sneK 3 0x42 ∧
    decode 0b0101000100100111 = .seR 1 2 7 ∧
    decode 0b1001000100100101 = .sneR 1 2 5 := by decide

theorem test_decode_immediates :
    decode 0b0110101001000010 = .ldK 0xA 0x42 ∧
    decode 0b0111000011111110 = .addK 0 0xFE ∧
    decode 0b1010001100000001 = .ldI 0x301 ∧
    decode 0b1100010111111110 = .rnd 5 0xFE := by decide

theorem test_decode_family8_logic :
    decode 0b1000000100100000 = .ldR 1 2 ∧
    decode 0b1000000100100001 = .orR 1 2 ∧
    decode 0b1000000100100010 = .andR 1 2 ∧
    decode 0b1000000100100011 = .xorR 1 2 := by decide

theorem test_decode_family8_arithmetic :
    decode 0b1000000100100100 = .addR 1 2 ∧
    decode 0b1000000100100101 = .sub 1 2 ∧
    decode 0b1000010001010110 = .shr 4 5 ∧
    decode 0b1000000100100111 = .subn 1 2 ∧
    decode 0b1000010001011110 = .shl 4 5 ∧
    decode 0b1000000100101000 = .nop 0x8128 := by decide

theorem test_decode_drw :
    decode 0b1101000000010101 = .drw 0 1 5 ∧
    decode 0b1101111100011111 = .drw 0xF 1 0xF := by decide

theorem test_decode_familyE :
    decode 0b1110000110011110 = .skp 1 9 ∧
    decode 0b1110000110100001 = .sknp 1 0xA ∧
    decode 0b1110000011111111 = .nop 0xE0FF := by decide

theorem test_decode_familyF_timers_and_keys :
    decode 0b1111001100000111 = .ldVDt 3 ∧
    decode 0b1111010100001010 = .ldVK 5 ∧
    decode 0b1111001000010101 = .ldDtV 2 ∧
    decode 0b1111001000011000 = .ldStV 2 := by decide

theorem test_decode_familyF_memory :
    decode 0b1111001000011110 = .addI 2 ∧
    decode 0b1111001100101001 = .ldF 3 ∧
    decode 0b1111000000110011 = .ldB 0 ∧
    decode 0b1111000101010101 = .stRegs 1 ∧
    decode 0b1111001001100101 = .ldRegs 2 ∧
    decode 0b1111000001100110 = .nop 0xF066 := by decide

/-- A word of memory is two bytes, high byte first (R55). -/
theorem test_decode_bytes : decodeBytes [0x6A, 0x42, 0x00] = .ok (.ldK 0xA 0x42, [0x00]) := by decide

theorem test_decode_truncated : decodeBytes [0x6A] = .error .truncated := by decide

/-! ## One step

The state at `pc` with a word there, and a check of the state after one step (R96, timer tick included). -/

/-- A core at `pc`, otherwise as `create` leaves it, whose next step fetches `w`. -/
def start (pc : Word) (w : Nat) : State := (State.reset.setPc pc).withFetchWord 16 w

/-- The step answers a next state that passes the check. -/
def after (s : State) (p : State → Bool) : Bool :=
  match step s with
  | .next t => p t
  | _ => false

/-- A lit pixel. -/
def lit (s : State) (c : Fin 64) (r : Fin 32) : State := s.setVid (s.vid.setPixel (c, r) true)

/-- A key down. -/
def down (s : State) (k : Fin 16) : State := { s with keys := s.keys.set k true }

/-- `sp` active entries. -/
def depth (s : State) (n : Fin 17) : State := { s with sp := n }

/-- Other parameters. -/
def withParams (s : State) (f : Params → Params) : State := { s with params := f s.params }

/-- The sequential alias order (R132). -/
def sequential (s : State) : State := withParams s fun p => { p with aliasOrder := .sequential }

/-- The step faults with this record and leaves these fields as they were. -/
def faults (s : State) (code : FaultCode) (fpc : Word) (fop : Option Word) (info : Nat) : Bool :=
  after s fun t => t.fault == some ⟨code, fpc, fop, info⟩ && t.pc == s.pc && t.v == s.v && t.dt == s.dt && t.op == s.op

/-! ### The cycle -/

/-- X1 -/
theorem test_nop : after ((start 0x300 0x8008).setDt 3) (fun t => t.pc == 0x302 && t.dt == 2 && t.op == 0x8008) = true := by decide

/-- X5 -/
theorem test_nop_past_the_table : after (start 0x300 0xF066) (fun t => t.pc == 0x302 && t.fault == none) = true := by decide

/-- X8 -/
theorem test_fetch_fault : faults (State.reset.setPc 0xFFF) .fetchOutOfRange 0xFFF none 0xFFF = true := by decide

/-- X7 -/
theorem test_last_word_of_memory : after (start 0xFFE 0x6007) (fun t => t.reg 0 == 7 && t.pc == 0x1000) = true := by decide

/-- S9: the second and third cycle -/
theorem test_timer_floor : after ((start 0x200 0x6000).setDt 1) (fun t => t.dt == 0 && after (t.setPc 0x200) fun u => u.dt == 0) = true := by decide

/-! ### Flow control -/

/-- F1 -/
theorem test_jp : after (start 0x200 0x1ABC) (fun t => t.pc == 0xABC) = true := by decide

/-- F2 -/
theorem test_call : after (start 0x204 0x2300) (fun t => t.stack[0] == 0x206 && t.sp == 1 && t.pc == 0x300) = true := by decide

/-- F3 -/
theorem test_call_overflow : faults (depth (start 0x204 0x2300) 16) .stackOverflow 0x204 (some 0x2300) 16 = true := by decide

/-- F4 -/
theorem test_ret : after { depth (start 0x300 0x00EE) 2 with stack := State.reset.stack.set 1 0x30A } (fun t => t.pc == 0x30A && t.sp == 1 && t.stack[1] == 0x30A) = true := by decide

/-- X11 -/
theorem test_ret_underflow : faults (((start 0x300 0x00EE).setDt 3).setSt 3) .stackUnderflow 0x300 (some 0x00EE) 0 = true := by decide

/-- F5 -/
theorem test_seK_taken : after ((start 0x200 0x3342).setReg 3 0x42) (fun t => t.pc == 0x204) = true := by decide

/-- F6 -/
theorem test_seK_not_taken : after ((start 0x200 0x3343).setReg 3 0x42) (fun t => t.pc == 0x202) = true := by decide

/-- F7 -/
theorem test_sneK_not_taken : after ((start 0x200 0x4342).setReg 3 0x42) (fun t => t.pc == 0x202) = true := by decide

/-- F8 -/
theorem test_sneK_taken : after ((start 0x200 0x4300).setReg 3 0x42) (fun t => t.pc == 0x204) = true := by decide

/-- F10 -/
theorem test_seR_taken : after (((start 0x200 0x5127).setReg 1 7).setReg 2 7) (fun t => t.pc == 0x204) = true := by decide

/-- F11 -/
theorem test_seR_not_taken : after (((start 0x200 0x5120).setReg 1 7).setReg 2 8) (fun t => t.pc == 0x202) = true := by decide

/-- F12 -/
theorem test_sneR_taken : after (((start 0x200 0x9120).setReg 1 7).setReg 2 8) (fun t => t.pc == 0x204) = true := by decide

/-- F13 -/
theorem test_sneR_not_taken : after (((start 0x200 0x9125).setReg 1 7).setReg 2 7) (fun t => t.pc == 0x202) = true := by decide

/-- F15 -/
theorem test_jpV0_past_memory : after ((start 0x200 0xBFFF).setReg 0 0xFF) (fun t => t.pc == 0x10FE) = true := by decide

/-! ### Arithmetic, logic and the random byte -/

/-- S1 -/
theorem test_ldK : after (start 0x200 0x6A42) (fun t => t.reg 0xA == 0x42 && t.pc == 0x202) = true := by decide

/-- A2 -/
theorem test_addK_no_carry : after ((start 0x200 0x7002).setReg 0 0xFF) (fun t => t.reg 0 == 0x01 && t.reg 0xF == 0) = true := by decide

/-- A4 -/
theorem test_addK_to_vf : after ((start 0x200 0x7F05).setReg 0xF 0x10) (fun t => t.reg 0xF == 0x15) = true := by decide

/-- A5 -/
theorem test_ldR : after ((start 0x200 0x8120).setReg 2 0x33) (fun t => t.reg 1 == 0x33 && t.reg 2 == 0x33) = true := by decide

/-- A6 -/
theorem test_orR : after ((((start 0x200 0x8121).setReg 1 0x0F).setReg 2 0xF0).setReg 0xF 7) (fun t => t.reg 1 == 0xFF && t.reg 0xF == 7) = true := by decide

/-- A7 -/
theorem test_orR_resets_vf : after (withParams ((((start 0x200 0x8121).setReg 1 0x0F).setReg 2 0xF0).setReg 0xF 7) fun p => { p with logicResetsVf := true }) (fun t => t.reg 1 == 0xFF && t.reg 0xF == 0) = true := by decide

/-- A8 -/
theorem test_andR : after (((start 0x200 0x8122).setReg 1 0x3C).setReg 2 0x0F) (fun t => t.reg 1 == 0x0C) = true := by decide

/-- A9 -/
theorem test_xorR : after (((start 0x200 0x8123).setReg 1 0xFF).setReg 2 0x0F) (fun t => t.reg 1 == 0xF0) = true := by decide

/-- S3 -/
theorem test_addR_carry : after (((start 0x200 0x8124).setReg 1 0xFF).setReg 2 0x01) (fun t => t.reg 1 == 0 && t.reg 0xF == 1) = true := by decide

/-- A13 -/
theorem test_addR_to_vf : after (((start 0x200 0x8F14).setReg 0xF 0x10).setReg 1 0x20) (fun t => t.reg 0xF == 0x30) = true := by decide

/-- A15 -/
theorem test_sub_borrow : after ((start 0x200 0x8125).setReg 2 0x01) (fun t => t.reg 1 == 0xFF && t.reg 0xF == 0) = true := by decide

/-- A20 -/
theorem test_sub_sequential : after (sequential (((start 0x200 0x81F5).setReg 1 9).setReg 0xF 3)) (fun t => t.reg 1 == 8 && t.reg 0xF == 1) = true := by decide

/-- A23 -/
theorem test_shr_of_vy : after (withParams ((start 0x200 0x8456).setReg 5 3) fun p => { p with shiftSource := .vy }) (fun t => t.reg 4 == 1 && t.reg 0xF == 1) = true := by decide

/-- A26 -/
theorem test_shr_sequential : after (sequential ((start 0x200 0x8F06).setReg 0xF 5)) (fun t => t.reg 0xF == 0) = true := by decide

/-- A27 -/
theorem test_subn : after (((start 0x200 0x8127).setReg 1 3).setReg 2 0x0A) (fun t => t.reg 1 == 7 && t.reg 0xF == 1) = true := by decide

/-- A28 -/
theorem test_subn_borrow : after (((start 0x200 0x8127).setReg 1 2).setReg 2 1) (fun t => t.reg 1 == 0xFF && t.reg 0xF == 0) = true := by decide

/-- A30 -/
theorem test_shl : after ((start 0x200 0x840E).setReg 4 0x81) (fun t => t.reg 4 == 2 && t.reg 0xF == 1) = true := by decide

/-- A33 -/
theorem test_shl_snapshot_vf : after ((start 0x200 0x8F0E).setReg 0xF 0xC1) (fun t => t.reg 0xF == 0x82) = true := by decide

/-- A35: from state 0 the next state is 1 and the byte 0, whatever RNG_MULT is. -/
theorem test_rnd_from_zero : exec (.rnd 5 0xFF) State.reset = .next ((State.reset.setRng 1).setReg 5 0) := by
  simp [exec, execRnd, randomByte, nextRng, State.reset]

/-- A38: the byte is ANDed with kk and lands in VF. -/
theorem test_rnd_to_vf : exec (.rnd 0xF 0xF0) (State.reset.setReg 0xF 9) = .next (((State.reset.setReg 0xF 9).setRng 1).setReg 0xF 0) := by
  simp [exec, execRnd, randomByte, nextRng, State.reset, State.setReg]

/-! ### The index register and memory -/

/-- M1 -/
theorem test_ldI : after (start 0x200 0xA300) (fun t => t.index == 0x300) = true := by decide

/-- M3 -/
theorem test_addI_past_memory : after (((start 0x200 0xF21E).setIndex 0xFFF).setReg 2 1) (fun t => t.index == 0x1000 && t.fault == none) = true := by decide

/-- M4 -/
theorem test_addI_wraps : after (((start 0x200 0xF21E).setIndex 0xFFFF).setReg 2 1) (fun t => t.index == 0) = true := by decide

/-- M5 -/
theorem test_ldF : after ((start 0x200 0xF329).setReg 3 0x0A) (fun t => t.index == 0x082) = true := by decide

/-- M6 -/
theorem test_ldF_whole_byte : after ((start 0x200 0xF329).setReg 3 0xFF) (fun t => t.index == 0x54B) = true := by decide

/-- M7 -/
theorem test_ldB : after (((start 0x200 0xF033).setReg 0 0xFE).setIndex 0x300) (fun t => t.byteAt 0x300 == 2 && t.byteAt 0x301 == 5 && t.byteAt 0x302 == 4) = true := by decide

/-- M10 -/
theorem test_ldB_past_memory : faults (((start 0x200 0xF033).setReg 0 7).setIndex 0xFFE) .memOutOfRange 0x200 (some 0xF033) 0x1000 = true := by decide

/-- M12 -/
theorem test_stRegs_advances_index : after (withParams ((((start 0x200 0xF155).setReg 0 0x12).setReg 1 0x34).setIndex 0x400) fun p => { p with loadStoreIncrementsI := true }) (fun t => t.byteAt 0x400 == 0x12 && t.byteAt 0x401 == 0x34 && t.index == 0x402) = true := by decide

/-- M20 -/
theorem test_stRegs_over_the_font : after ((start 0x200 0xF055).setIndex 0x050) (fun t => t.byteAt 0x050 == 0 && t.mem.wf) = true := by decide

/-- M15 -/
theorem test_ldRegs : after (((((start 0x200 0xF265).setByte 0x300 2).setByte 0x301 5).setByte 0x302 4).setIndex 0x300) (fun t => t.reg 0 == 2 && t.reg 1 == 5 && t.reg 2 == 4 && t.reg 3 == 0) = true := by decide

/-- M17 -/
theorem test_ldRegs_past_memory : faults ((start 0x200 0xF165).setIndex 0xFFF) .memOutOfRange 0x200 (some 0xF165) 0x1000 = true := by decide

/-! ### The display -/

/-- D17 -/
theorem test_cls : after ((lit (start 0x200 0x00E0) 1 1).setReg 0xF 9) (fun t => !t.vid.pixel (1, 1) && t.reg 0xF == 9) = true := by decide

/-- D15 -/
theorem test_drw_collides : after ((lit (start 0x200 0xD012) 1 1).setByte 0x300 0xC0 |>.setByte 0x301 0xC0 |>.setIndex 0x300) (fun t => t.vid.pixel (0, 0) && t.vid.pixel (1, 0) && t.vid.pixel (0, 1) && !t.vid.pixel (1, 1) && t.reg 0xF == 1) = true := by decide

/-- D8 -/
theorem test_drw_off_screen : faults ((start 0x200 0xD011).setByte 0x300 0x07 |>.setIndex 0x300 |>.setReg 0 60) .spriteOffScreen 0x200 (some 0xD011) 65 = true := by decide

/-! ### Keypad and timers -/

/-- K1 -/
theorem test_skp_down : after ((down (start 0x240 0xE19E) 7).setReg 1 7) (fun t => t.pc == 0x244) = true := by decide

/-- K5 -/
theorem test_skp_no_key : faults ((start 0x240 0xE19E).setReg 1 0x10) .keyIndexOutOfRange 0x240 (some 0xE19E) 0x10 = true := by decide

/-- K3 -/
theorem test_sknp_up : after ((start 0x240 0xE1A1).setReg 1 7) (fun t => t.pc == 0x244) = true := by decide

/-- K4 -/
theorem test_sknp_down : after ((down (start 0x240 0xE1A1) 7).setReg 1 7) (fun t => t.pc == 0x242) = true := by decide

/-- K7 -/
theorem test_ldVK_waits : after ((start 0x250 0xF50A).setDt 5) (fun t => t.pc == 0x250 && t.reg 5 == 0 && t.dt == 4) = true := by decide

/-- K8 -/
theorem test_ldVK_lowest : after (down (down (start 0x250 0xF50A) 0xC) 3) (fun t => t.reg 5 == 3 && t.pc == 0x252) = true := by decide

/-- K10 -/
theorem test_ldVDt : after ((start 0x200 0xF307).setDt 3) (fun t => t.reg 3 == 3 && t.dt == 2) = true := by decide

/-- K12 -/
theorem test_ldDtV : after ((start 0x200 0xF215).setReg 2 5) (fun t => t.dt == 4) = true := by decide

/-- K14 -/
theorem test_ldDtV_zero : after (((start 0x200 0xF215).setReg 2 0).setDt 9) (fun t => t.dt == 0) = true := by decide

/-- K15 -/
theorem test_ldStV : after ((start 0x200 0xF218).setReg 2 3) (fun t => t.st == 2 && (outputs t).soundOn) = true := by decide

/-! ### The host -/

/-- R221, R245: the fault port's code, and a ROM of 3585 bytes refused (R244). -/
theorem test_fault_port : (outputs (State.reset.enterFault ⟨.keyIndexOutOfRange, 0x240, some 0xE19E, 0x10⟩)).faultCode = 5 := by decide

theorem test_rom_bytes : hostAct (.loadRom [0x12, 0x00]) State.reset = .ok ((State.reset.setByte 0x200 0x12).setByte 0x201 0x00) := by
  rfl

/-- R180, D19: `create` on a machine with another FONT installs it from 0x055 to 0x09F, and keeps the source's glyph 0. -/
theorem test_create_other_font :
    let t := (withParams State.reset fun p => { p with font := Vector.replicate 75 0x5A }).create
    t.byteAt 0x053 = 0x90 ∧ t.byteAt 0x054 = 0xF0 ∧ t.byteAt 0x055 = 0x5A ∧ t.byteAt 0x09F = 0x5A ∧ t.byteAt 0x0A0 = 0 := by decide

/-- R33: with the default FONT `create` leaves the reset state. -/
theorem test_create_default_font : ((start 0x300 0x8008).setByte 0x055 0xFF).create = State.reset := by decide

/-- The run under the host's input ends in a state that passes the check. -/
def hosted (h : Schedule) (s : State) (p : State → Bool) : Bool :=
  match hostedRun h s with
  | .ok (.next t) => p t
  | _ => false

/-- The end of P4: `F00A` at 0x204 and an idle loop after it, at 0x206. -/
def waiting : State := ((start 0x204 0xF00A).setByte 0x206 0x12).setByte 0x207 0x06

/-- The host's input of P4: no key down before the first of these steps, keys 9 and B before the second. -/
def pressed : Schedule := keypads [Vector.replicate 16 false, ((Vector.replicate 16 false).set 0x9 true).set 0xB true]

/-- P4, steps 4 and 5: the wait spins while no key is down and ends in the step whose keypad has one. -/
theorem test_wait_under_host_input : hosted (pressed.take 1) waiting (fun t => t.pc == 0x204 && t.reg 0 == 0) = true ∧
    hosted pressed waiting (fun t => t.pc == 0x206 && t.reg 0 == 0x9 && t.fault == none) = true := by decide

/-- R186: a pixel is all ones or all zeros, whatever PIXEL_BITS is. -/
theorem test_pixel_word : pixelWord 5 true = 0b11111#5 ∧ pixelWord 5 false = 0#5 := by decide

/-! ## Witnesses

For each obligation with hypotheses, a state and operands that meet all of them together, clause by clause, at boundary values. -/

/-- A step that passes a check answers a next state that passes it. -/
theorem of_after {s : State} {p : State → Bool} (h : after s p = true) : ∃ t, step s = .next t ∧ p t = true := by
  unfold after at h
  split at h
  · next t ht => exact ⟨t, ht, h⟩
  · exact absurd h (by decide)

/-- A run that passes a check reaches a state that passes it. -/
theorem of_hosted {h : Schedule} {s : State} {p : State → Bool} (e : hosted h s p = true) : ∃ t, reaches h s t ∧ p t = true := by
  unfold hosted at e
  split at e
  · next t ht => exact ⟨t, ht, e⟩
  · exact absurd e (by decide)

/-- A run reaches one state only. -/
theorem of_reaches {h : Schedule} {s u : State} {p : State → Bool} (e : hosted h s p = true) (r : reaches h s u) : p u = true := by
  obtain ⟨t, ht, hp⟩ := of_hosted e
  have : t = u := by simpa [reaches] using ht.symm.trans r
  exact this ▸ hp

theorem pressed_allowed : pressed.allowed := by
  unfold Schedule.allowed
  decide

/-- R250, P4: a good end at an idle address, under host input that changes the keypad on the way. -/
theorem test_ends_under_host_input : ∃ t, endsAt pressed waiting t 0x206 ∧ t.reg 0 = 0x9 := by
  obtain ⟨t, hr, hp⟩ := of_hosted (h := pressed) (s := waiting) (p := fun t => t.pc == 0x206 && t.canFetch &&
    decode t.fetchWord == .jp 0x206 && t.fault == none && t.reg 0 == 0x9) (by decide)
  simp only [Bool.and_eq_true, beq_iff_eq] at hp
  obtain ⟨⟨⟨⟨hpc, hc⟩, hd⟩, hf⟩, h0⟩ := hp
  refine ⟨t, ⟨⟨pressed_allowed, hr, hf⟩, ⟨hpc, hc, 0x206, hd, by decide⟩, fun j hj u hu hi => ?_⟩, h0⟩
  have hidle := hi.1.1
  have hj' : j = 0 ∨ j = 1 := by simp only [pressed, keypads, List.length_map, List.length_cons, List.length_nil] at hj; omega
  rcases hj' with rfl | rfl
  · exact absurd hidle (by simpa using of_reaches (p := fun u => u.pc != 0x206) (by decide) hu)
  · exact absurd hidle (by simpa using of_reaches (p := fun u => u.pc != 0x206) (by decide) hu)

theorem witness_DecodeInvertsEncode : (Instr.nop 0x8FF8).wellFormed = true ∧ (Instr.drw 0xF 0xF 0xF).wellFormed = true ∧
    (Instr.jp 0xFFF).wellFormed = true ∧ (Instr.cls 0xFF).wellFormed = true := by decide

theorem witness_OpcodeMapSelectsTheHandler : (∀ row ∈ opcodeMap, (0x0001 : Word) &&& row.mask ≠ row.pattern) ∧
    ∀ row ∈ opcodeMap, (0xFFFF : Word) &&& row.mask ≠ row.pattern := by decide

/-- The hypothesis of every `Encoded` clause: the least and the greatest word of each row. -/
theorem witness_Encoded : ∀ row ∈ opcodeMap, row.pattern &&& row.mask = row.pattern ∧
    (row.pattern ||| ~~~row.mask) &&& row.mask = row.pattern := by decide

theorem witness_IgnoredBitsSelectNothing :
    (0x0FF0 : Word) &&& 0xF00F = 0x0000 ∧ (0x0FFE : Word) &&& 0xF00F = 0x000E ∧ (0x5FFF : Word) &&& 0xF000 = 0x5000 ∧
    (0x9FFF : Word) &&& 0xF000 = 0x9000 ∧ (0xEFFE : Word) &&& 0xF00F = 0xE00E ∧ (0xEFF1 : Word) &&& 0xF00F = 0xE001 := by decide

theorem witness_UnpopulatedEntriesAreNop :
    ((0x00E1 : Word) &&& 0xF000 = 0x0000 ∧ ((0x00E1 : Word) &&& 0x000F).toNat ∉ [0x0, 0xE]) ∧
    ((0x8008 : Word) &&& 0xF000 = 0x8000 ∧
      ((0x8008 : Word) &&& 0x000F).toNat ∉ [0x0, 0x1, 0x2, 0x3, 0x4, 0x5, 0x6, 0x7, 0xE]) ∧
    ((0xE0FF : Word) &&& 0xF000 = 0xE000 ∧ ((0xE0FF : Word) &&& 0x000F).toNat ∉ [0x1, 0xE]) ∧
    ((0xF066 : Word) &&& 0xF000 = 0xF000 ∧
      ((0xF066 : Word) &&& 0x00FF).toNat ∉ [0x07, 0x0A, 0x15, 0x18, 0x1E, 0x29, 0x33, 0x55, 0x65]) := by decide

theorem witness_StepRunsTheDecodedInstruction : ∃ (s : State) (i : Instr), s.fault = none ∧ s.pc.toNat ≤ 0xFFE ∧
    decode (s.byteAt s.pc.toNat ++ s.byteAt (s.pc.toNat + 1)) = i := ⟨start 0xFFE 0x6007, .ldK 0 7, by decide⟩

theorem witness_FetchIsBigEndianOrFaults : ∃ s u : State, (s.fault = none ∧ 0xFFE < s.pc.toNat) ∧ u.fault = none ∧ u.pc.toNat ≤ 0xFFE :=
  ⟨State.reset.setPc 0xFFF, State.reset.setPc 0xFFE, by decide⟩

/-- A core stopped by a fault. -/
def stopped : State := State.reset.enterFault ⟨.stackUnderflow, 0x200, some 0x00EE, 0⟩

theorem witness_FaultIsSticky : stopped.fault ≠ none ∧
    ∃ (a : HostAction) (s t : State), hostAct a s = .ok t ∧ a ≠ .create := ⟨by decide, .seed 5, stopped, _, rfl, by decide⟩

/-- A faulted core, under host input in its run. -/
theorem witness_FaultIsSticky_run : ∃ (h : Schedule) (s t : State), s.fault ≠ none ∧ h.allowed ∧ reaches h s t := by
  obtain ⟨t, h, -⟩ := of_hosted (h := pressed) (s := stopped) (p := fun t => t.fault != none) (by decide)
  exact ⟨pressed, stopped, t, by decide, pressed_allowed, h⟩

/-- A state whose step faults, with the record. -/
theorem witness_of_fault {s : State} {f : FaultRecord} (h : after s (fun t => t.fault == some f) = true) :
    ∃ t, step s = .next t ∧ t.fault = some f := by
  obtain ⟨t, ht, hp⟩ := of_after h
  exact ⟨t, ht, by simpa using hp⟩

theorem witness_FaultEntryIsPrecise : ∃ (s t : State) (f : FaultRecord), s.fault = none ∧ step s = .next t ∧ t.fault = some f := by
  obtain ⟨t, h⟩ := witness_of_fault (s := start 0x200 0x00EE) (f := ⟨.stackUnderflow, 0x200, some 0x00EE, 0⟩) (by decide)
  exact ⟨_, t, _, rfl, h⟩

/-- Each of the six codes of R221. -/
theorem witness_FaultsAreThoseOfTheTable : ∀ code ∈ [FaultCode.fetchOutOfRange, .memOutOfRange, .stackOverflow, .stackUnderflow,
    .keyIndexOutOfRange, .spriteOffScreen], ∃ (s t : State) (f : FaultRecord), s.fault = none ∧ step s = .next t ∧ t.fault = some f ∧ f.code = code := by
  simp only [List.forall_mem_cons, List.not_mem_nil, false_implies, implies_true, and_true]
  refine ⟨?_, ?_, ?_, ?_, ?_, ?_⟩
  · obtain ⟨t, h1, h2⟩ := witness_of_fault (s := State.reset.setPc 0xFFF) (f := ⟨.fetchOutOfRange, 0xFFF, none, 0xFFF⟩) (by decide)
    exact ⟨_, t, _, rfl, h1, h2, rfl⟩
  · obtain ⟨t, h1, h2⟩ := witness_of_fault (s := (start 0x200 0xF033).setIndex 0xFFE)
      (f := ⟨.memOutOfRange, 0x200, some 0xF033, 0x1000⟩) (by decide)
    exact ⟨_, t, _, rfl, h1, h2, rfl⟩
  · obtain ⟨t, h1, h2⟩ := witness_of_fault (s := depth (start 0x204 0x2300) 16) (f := ⟨.stackOverflow, 0x204, some 0x2300, 16⟩)
      (by decide)
    exact ⟨_, t, _, rfl, h1, h2, rfl⟩
  · obtain ⟨t, h1, h2⟩ := witness_of_fault (s := start 0x200 0x00EE) (f := ⟨.stackUnderflow, 0x200, some 0x00EE, 0⟩) (by decide)
    exact ⟨_, t, _, rfl, h1, h2, rfl⟩
  · obtain ⟨t, h1, h2⟩ := witness_of_fault (s := (start 0x240 0xE19E).setReg 1 0x10)
      (f := ⟨.keyIndexOutOfRange, 0x240, some 0xE19E, 0x10⟩) (by decide)
    exact ⟨_, t, _, rfl, h1, h2, rfl⟩
  · obtain ⟨t, h1, h2⟩ := witness_of_fault (s := ((start 0x200 0xD011).setByte 0x300 0x01 |>.setIndex 0x300).setReg 0 57)
      (f := ⟨.spriteOffScreen, 0x200, some 0xD011, 64⟩) (by decide)
    exact ⟨_, t, _, rfl, h1, h2, rfl⟩

/-- The condition of each clause of R221, at its boundary. -/
theorem witness_FaultsAreThoseOfTheTable_conditions :
    0xFFE < (State.reset.setPc 0xFFF).pc.toNat ∧
    (fetched ((start 0x200 0xF333).setIndex 0xFFE) = .ldB 3 ∧ 0xFFF < ((start 0x200 0xF333).setIndex 0xFFE).index.toNat + 2) ∧
    (fetched ((start 0x200 0xFF55).setIndex 0xFF1) = .stRegs 0xF ∧
      0xFFF < ((start 0x200 0xFF55).setIndex 0xFF1).index.toNat + (0xF : Reg).val) ∧
    (fetched ((start 0x200 0xF065).setIndex 0x1000) = .ldRegs 0 ∧
      0xFFF < ((start 0x200 0xF065).setIndex 0x1000).index.toNat + (0 : Reg).val) ∧
    (fetched (depth (start 0xFFE 0x2300) 16) = .call 0x300 ∧ (depth (start 0xFFE 0x2300) 16).sp.val = 16) ∧
    (fetched (start 0xFFE 0x00EE) = .ret 0x0E ∧ (start 0xFFE 0x00EE).sp.val = 0) ∧
    (fetched ((start 0x200 0xE19E).setReg 1 0x10) = .skp 1 9 ∧ 0xF < (((start 0x200 0xE19E).setReg 1 0x10).reg 1).toNat) ∧
    (fetched ((start 0x200 0xE1A1).setReg 1 0xFF) = .sknp 1 0xA ∧ 0xF < (((start 0x200 0xE1A1).setReg 1 0xFF).reg 1).toNat) := by
  decide

/-- The two conditions of DRW. -/
theorem witness_FaultsAreThoseOfTheTable_drw :
    (∃ s : State, fetched s = .drw 0 1 2 ∧ ¬ rowsInMemory s 2) ∧
    ∃ (s : State) (px py : Nat), fetched s = .drw 0 1 1 ∧ rowsInMemory s 1 ∧ spriteBit s 0 1 1 px py ∧
      ¬ bitPlaced s.params.offscreen px py := by
  refine ⟨⟨(start 0x200 0xD012).setIndex 0xFFF, by decide, ?_⟩, ⟨((start 0x200 0xD011).setIndex 0x050).setReg 0 61, 64, 0, by decide,
    Or.inr (by decide : (0x050 : Word).toNat + 1 - 1 ≤ 0xFFF),
    ⟨0, 3, by decide, by decide, by decide, rfl, rfl⟩, fun h => absurd h.1 (by decide)⟩⟩
  unfold rowsInMemory
  decide

/-- LD DT, LD ST, LD Vx, DT and an instruction that is none of them tick; a fault does not. -/
theorem witness_TimersTickOnceAStep :
    (∀ w ∈ [0xF215, 0xF218, 0xF307, 0x6000], ∃ s t : State, s.fault = none ∧ step s = .next t ∧ t.fault = none ∧
      fetched s = decode (BitVec.ofNat 16 w)) ∧
    ∃ s t : State, s.fault = none ∧ step s = .next t ∧ t.fault ≠ none := by
  refine ⟨?_, ?_⟩
  · simp only [List.forall_mem_cons, List.not_mem_nil, false_implies, implies_true, and_true]
    refine ⟨?_, ?_, ?_, ?_⟩
    · obtain ⟨t, h, hp⟩ := of_after (s := start 0x200 0xF215) (p := fun t => t.fault == none) (by decide)
      exact ⟨_, t, rfl, h, by simpa using hp, by decide⟩
    · obtain ⟨t, h, hp⟩ := of_after (s := start 0x200 0xF218) (p := fun t => t.fault == none) (by decide)
      exact ⟨_, t, rfl, h, by simpa using hp, by decide⟩
    · obtain ⟨t, h, hp⟩ := of_after (s := start 0x200 0xF307) (p := fun t => t.fault == none) (by decide)
      exact ⟨_, t, rfl, h, by simpa using hp, by decide⟩
    · obtain ⟨t, h, hp⟩ := of_after (s := start 0x200 0x6000) (p := fun t => t.fault == none) (by decide)
      exact ⟨_, t, rfl, h, by simpa using hp, by decide⟩
  · obtain ⟨t, h1, h2⟩ := witness_of_fault (s := start 0x200 0x00EE) (f := ⟨.stackUnderflow, 0x200, some 0x00EE, 0⟩) (by decide)
    exact ⟨_, t, rfl, h1, by simp [h2]⟩

theorem witness_NopHasOnlyTheCyclesEffect : (∀ row ∈ opcodeMap, (0x8008 : Word) &&& row.mask ≠ row.pattern) ∧
    ∃ (w : Word) (s : State), s.fault = none ∧ s.pc.toNat ≤ 0xFFE ∧ fetched s = .nop w := ⟨by decide, 0x8008, start 0xFFE 0x8008, by decide⟩

/-- The least and the greatest sp that pops, and the empty stack. -/
theorem witness_RetPopsOrUnderflows : (depth State.reset 1).sp.val = (0 : Fin 16).val + 1 ∧
    (depth State.reset 16).sp.val = (15 : Fin 16).val + 1 ∧ State.reset.sp.val = 0 := by decide

/-- The least and the greatest sp with room, and the full stack. -/
theorem witness_CallPushesOrOverflows : State.reset.sp.val = (0 : Fin 16).val ∧
    (depth State.reset 15).sp.val = (15 : Fin 16).val ∧ (depth State.reset 16).sp.val = 16 := by decide

theorem witness_CallThenRetReturns : ∃ (nnn : BitVec 12) (s t u : State), s.sp.val < 16 ∧ exec (.call nnn) s = .next t ∧
    u.stack = t.stack ∧ u.sp = t.sp := ⟨0x300, depth State.reset 15, _, _, by decide, rfl, rfl, rfl⟩

/-- Both values of the hypothesis on the parameter, with x = F and without. -/
theorem witness_LogicIsBitwise : ¬ (State.reset.params.logicResetsVf = true ∧ (0xF : Reg) = 0xF) ∧
    ∃ s : State, s.params.logicResetsVf = true ∧ ¬ (s.params.logicResetsVf = true ∧ (0xE : Reg) = 0xF) :=
  ⟨by decide, withParams State.reset fun p => { p with logicResetsVf := true }, by decide⟩

/-- Both flag values of SUB and SUBN, for a register that is not VF. -/
theorem witness_SubSetsNoBorrow : (0xE : Reg) ≠ 0xF ∧
    1 = (if (State.reset.reg 1).toNat ≤ (State.reset.reg 0xE).toNat then 1 else 0) ∧
    ∃ s : State, 0 = (if (s.reg 1).toNat ≤ (s.reg 0xE).toNat then 1 else 0) :=
  ⟨by decide, by decide, State.reset.setReg 1 1, by decide⟩

theorem witness_SubnSetsNoBorrow : (0xE : Reg) ≠ 0xF ∧
    1 = (if (State.reset.reg 0xE).toNat ≤ (State.reset.reg 1).toNat then 1 else 0) ∧
    ∃ s : State, 0 = (if (s.reg 0xE).toNat ≤ (s.reg 1).toNat then 1 else 0) :=
  ⟨by decide, by decide, State.reset.setReg 0xE 1, by decide⟩

/-- Both bits shifted out, from either source. -/
theorem witness_ShrShiftsOutBitZero : ∃ s u : State, s.params.shiftSource = .vx ∧ 1 = (s.reg (shifted s 4 5)).toNat % 2 ∧
    u.params.shiftSource = .vy ∧ 0 = (u.reg (shifted u 4 5)).toNat % 2 :=
  ⟨State.reset.setReg 4 1, withParams (State.reset.setReg 4 1) fun p => { p with shiftSource := .vy }, by
    unfold shifted
    decide⟩

theorem witness_ShlShiftsOutBitSeven : ∃ s u : State, s.params.shiftSource = .vx ∧ 1 = (s.reg (shifted s 4 5)).toNat / 128 ∧
    u.params.shiftSource = .vy ∧ 0 = (u.reg (shifted u 4 5)).toNat / 128 :=
  ⟨State.reset.setReg 4 0x80, withParams (State.reset.setReg 4 0x80) fun p => { p with shiftSource := .vy }, by
    unfold shifted
    decide⟩

theorem witness_AddSetsCarry : (0 : Reg) ≠ 0xF := by decide

theorem witness_RndAdvancesTheGenerator : State.reset.rngState = 0 := rfl

/-- The last address a digit store fits at, and the next one. -/
theorem witness_BcdStore : ∃ s u : State, (s.mem.wf = true ∧ s.index.toNat + 2 ≤ 0xFFF) ∧ 0xFFF < u.index.toNat + 2 :=
  ⟨State.reset.setIndex 0xFFD, State.reset.setIndex 0xFFE, by decide⟩

/-- The last address all registers fit at, and the next one, for the least and the greatest x. -/
theorem witness_RegisterDump : ∃ s u s' u' : State,
    (s.mem.wf = true ∧ s.index.toNat + (0xF : Reg).val ≤ 0xFFF) ∧ 0xFFF < u.index.toNat + (0xF : Reg).val ∧
    (s'.mem.wf = true ∧ s'.index.toNat + (0 : Reg).val ≤ 0xFFF) ∧ 0xFFF < u'.index.toNat + (0 : Reg).val :=
  ⟨State.reset.setIndex 0xFF0, State.reset.setIndex 0xFF1, State.reset.setIndex 0xFFF, State.reset.setIndex 0x1000, by decide⟩

theorem witness_RegisterRestore : ∃ s u : State,
    s.index.toNat + (0xF : Reg).val ≤ 0xFFF ∧ 0xFFF < u.index.toNat + (0xF : Reg).val :=
  ⟨State.reset.setIndex 0xFF0, State.reset.setIndex 0xFF1, by decide⟩

theorem witness_DumpThenRestore : ∃ (x k : Reg) (s t u : State), s.mem.wf = true ∧ s.index.toNat + x.val ≤ 0xFFF ∧
    exec (.stRegs x) s = .next t ∧ u.mem = t.mem ∧ u.index = s.index ∧ x < k :=
  ⟨1, 2, State.reset.setIndex 0x400, _, { State.reset.setIndex 0x400 with mem := _ }, by decide, by decide,
    execStRegs_ok 1 (State.reset.setIndex 0x400) (by decide), rfl, rfl, by decide⟩

theorem witness_StoreIsSeenByTheNextFetch : ∃ (x : Reg) (s t u : State) (k j : Reg), s.mem.wf = true ∧ s.index.toNat + x.val ≤ 0xFFF ∧
    exec (.stRegs x) s = .next t ∧ j.val = k.val + 1 ∧ j ≤ x ∧ u.mem = t.mem ∧ u.pc.toNat = s.index.toNat + k.val ∧
    u.fault = none :=
  ⟨0xF, State.reset.setIndex 0xFF0, _, { State.reset.setPc 0xFFE with mem := _ }, 0xE, 0xF, by decide, by decide,
    execStRegs_ok 0xF (State.reset.setIndex 0xFF0) (by decide), by decide, by decide, rfl, by decide, rfl⟩

theorem witness_ReadSeesTheLastWrite : ∃ (s t : State) (v : Byte), s.mem.wf = true ∧ memWrite 0xFFF v s = .ok t :=
  ⟨State.reset, _, 7, by decide, rfl⟩

theorem witness_CanonicalMemoryIsUnique : ∃ m n : Memory, m.wf = true ∧ n.wf = true ∧ (∀ a : Nat, a ≤ 0xFFF → m.get a = n.get a) ∧
    m ≠ [] := ⟨[(0x50, 0), (0xFFF, 1)], [(0x50, 0), (0xFFF, 1)], by decide, by decide, fun _ _ => rfl, by decide⟩

/-- Glyph 0 at (0, 0), its first row, with a given off-screen policy. -/
def glyph (policy : OffscreenPolicy) : State := withParams (State.reset.setIndex 0x050) fun p => { p with offscreen := policy }

/-- Its set bits are on the grid. -/
theorem glyph_onGrid (policy : OffscreenPolicy) (px py : Nat) (h : spriteBit (glyph policy) 0 1 1 px py) : px < 64 ∧ py < 32 := by
  obtain ⟨i, c, hi, hc, -, rfl, rfl⟩ := h
  have hx : ((glyph policy).reg 0).toNat % 64 = 0 := rfl
  have hy : ((glyph policy).reg 1).toNat % 32 = 0 := rfl
  have hn : (1 : Fin 16).val = 1 := rfl
  omega

/-- Its first pixel is one of the toggled ones. -/
theorem glyph_toggles (policy : OffscreenPolicy) : toggles (glyph policy) 0 1 1 (0, 0) := by
  have h : spriteBit (glyph policy) 0 1 1 0 0 :=
    ⟨0, 0, by decide, by decide, (by decide : (resetByte 0x50).getLsbD 7 = true), rfl, rfl⟩
  unfold toggles
  cases policy
  · exact h
  · exact h
  · exact ⟨0, 0, h, rfl⟩

/-- All three policies, a pixel that was unlit and one that was lit. -/
theorem witness_DrwDrawsOrFaults : ∀ policy, ∃ s : State, s.params.offscreen = policy ∧ rowsInMemory s 1 ∧
    (∀ px py, spriteBit s 0 1 1 px py → bitPlaced s.params.offscreen px py) ∧
    (∃ p, toggles s 0 1 1 p ∧ s.vid.pixel p = false) := by
  intro policy
  refine ⟨glyph policy, rfl, Or.inr (by decide : (0x050 : Word).toNat + 1 - 1 ≤ 0xFFF), fun px py h => ?_,
    (0, 0), glyph_toggles policy, by simp [glyph, withParams, State.reset, Video.pixel]⟩
  have hg := glyph_onGrid policy px py h
  show bitPlaced policy px py
  cases policy
  · exact hg
  · trivial
  · simp only [bitPlaced]
    omega

/-- A collision: the same, over a lit pixel. -/
theorem witness_DrwDrawsOrFaults_lit : ∃ s : State, rowsInMemory s 1 ∧
    (∀ px py, spriteBit s 0 1 1 px py → bitPlaced s.params.offscreen px py) ∧ ∃ p, toggles s 0 1 1 p ∧ s.vid.pixel p = true :=
  ⟨lit (glyph .fault) 0 0, Or.inr (by decide : (0x050 : Word).toNat + 1 - 1 ≤ 0xFFF), fun px py h => glyph_onGrid .fault px py h,
    (0, 0), glyph_toggles .fault, by simp [lit, Video.setPixel_pixel]⟩

/-- Rows that pass the end of memory by one byte. -/
theorem witness_DrwDrawsOrFaults_rows : ∃ s : State, ¬ rowsInMemory s 2 := by
  refine ⟨State.reset.setIndex 0xFFF, ?_⟩
  unfold rowsInMemory
  decide

/-- The first column off the grid, (64, 0): the last set bit of the glyph's row, drawn at column 61; the bits before it are placed. -/
theorem witness_DrwDrawsOrFaults_bit : ∃ (s : State) (px py : Nat), rowsInMemory s 1 ∧ spriteBit s 0 1 1 px py ∧
    ¬ bitPlaced s.params.offscreen px py ∧
    ∀ qx qy : Nat, spriteBit s 0 1 1 qx qy → qy < py ∨ (qy = py ∧ qx < px) → bitPlaced s.params.offscreen qx qy := by
  refine ⟨(glyph .fault).setReg 0 61, 64, 0, Or.inr (by decide : (0x050 : Word).toNat + 1 - 1 ≤ 0xFFF),
    ⟨0, 3, by decide, by decide, (by decide : (resetByte 0x50).getLsbD 4 = true), rfl, rfl⟩, ?_, ?_⟩
  · exact fun h => absurd h.1 (by decide)
  · rintro qx qy ⟨i, c, hi, hc, -, hx, hy⟩ hlt
    have h0 : (((glyph .fault).setReg 0 61).reg 1).toNat % 32 = 0 := rfl
    have hn : (1 : Fin 16).val = 1 := rfl
    show qx < 64 ∧ qy < 32
    omega

theorem witness_DrawingTwiceRestores : ∃ (x y : Reg) (s : State), x ≠ 0xF ∧ y ≠ 0xF ∧ rowsInMemory s 1 ∧
    (∀ px py, spriteBit s x y 1 px py → bitPlaced s.params.offscreen px py) ∧
    ∃ p, toggles s x y 1 p ∧ s.vid.pixel p = false := by
  obtain ⟨s, -, h⟩ := witness_DrwDrawsOrFaults .fault
  exact ⟨0, 1, s, by decide, by decide, h⟩

/-- The greatest key number, and the least that is none. -/
theorem witness_KeySkips : ((State.reset.setReg 1 0xF).reg 1).toNat = (0xF : Fin 16).val ∧
    0xF < ((State.reset.setReg 1 0x10).reg 1).toNat := by decide

/-- Only the highest key down; none down; the wait of K7. -/
theorem witness_WaitForKey :
    ((down State.reset 0xF).keys[(0xF : Fin 16)] = true ∧ ∀ j : Fin 16, j < 0xF → (down State.reset 0xF).keys[j] = false) ∧
    (∀ k : Fin 16, State.reset.keys[k] = false) ∧
    ∃ s : State, s.fault = none ∧ s.pc.toNat ≤ 0xFFE ∧ fetched s = .ldVK 5 ∧ ∀ k : Fin 16, s.keys[k] = false :=
  ⟨by decide, by decide, start 0x250 0xF50A, by decide⟩

/-- The highest key alone, and the highest address of a fetch. -/
theorem witness_KeyWaitTakesTheKeypadOfItsStep : ∃ (k : Fin 16) (keys : Vector Bool 16) (s : State), s.fault = none ∧ s.pc.toNat ≤ 0xFFE ∧
    fetched s = .ldVK 0xF ∧ keys[k] = true ∧ ∀ j : Fin 16, j < k → keys[j] = false :=
  ⟨0xF, (Vector.replicate 16 false).set 0xF true, start 0xFFE 0xFF0A, by decide⟩

theorem witness_OnlyKeyInstructionsReadTheKeypad : ∃ s t : State, (∀ x m, fetched s ≠ .skp x m) ∧ (∀ x m, fetched s ≠ .sknp x m) ∧
    (∀ x, fetched s ≠ .ldVK x) ∧ step s = .next t := by
  obtain ⟨t, h, -⟩ := of_after (s := start 0x300 0x6A42) (p := fun t => t.fault == none) (by decide)
  have hd : fetched (start 0x300 0x6A42) = .ldK 0xA 0x42 := by decide
  exact ⟨_, t, fun x m e => Instr.noConfusion (hd.symm.trans e), fun x m e => Instr.noConfusion (hd.symm.trans e),
    fun x e => Instr.noConfusion (hd.symm.trans e), h⟩

theorem witness_TimerTransfers : ∃ s u v : State, (s.fault = none ∧ s.pc.toNat ≤ 0xFFE ∧ fetched s = .ldVDt 3) ∧
    (u.fault = none ∧ u.pc.toNat ≤ 0xFFE ∧ fetched u = .ldDtV 2) ∧ (v.fault = none ∧ v.pc.toNat ≤ 0xFFE ∧ fetched v = .ldStV 2) :=
  ⟨start 0xFFE 0xF307, start 0xFFE 0xF215, start 0xFFE 0xF218, by decide⟩

theorem witness_StepKeepsTheInvariant : ∃ s t : State, s.Inv ∧ step s = .next t := by
  obtain ⟨t, h, -⟩ := of_after (s := start 0x300 0x6A42) (p := fun t => t.fault == none) (by decide)
  refine ⟨_, t, ⟨by decide, ⟨by decide, by decide⟩, fun f hf => ?_⟩, h⟩
  exact absurd hf (by simp [start, State.withFetchWord])

/-- A run with `create` in it. -/
theorem witness_HostedRunKeepsTheInvariant : ∃ (h : Schedule) (s t : State), s.Inv ∧ reaches h s t := by
  obtain ⟨t, h, -⟩ := of_hosted (h := [[.create, .loadRom [0x12, 0x00]], [.seed 5]]) (s := start 0x300 0x6A42)
    (p := fun t => t.fault == none) (by decide)
  refine ⟨_, _, t, ⟨by decide, ⟨by decide, by decide⟩, fun f hf => ?_⟩, h⟩
  exact absurd hf (by simp [start, State.withFetchWord])

theorem witness_RegistersChangeOnlyAsNamed : ∃ (s t : State) (r : Reg), step s = .next t ∧ ¬ mayWriteReg s.params (fetched s) r := by
  obtain ⟨t, h, -⟩ := of_after (s := start 0x200 0x8124) (p := fun t => t.fault == none) (by decide)
  have hd : fetched (start 0x200 0x8124) = .addR 1 2 := by decide
  refine ⟨_, t, 2, h, ?_⟩
  rw [hd]
  simp only [mayWriteReg]
  decide

theorem witness_MemoryChangesOnlyByStores : ∀ w ∈ [0xF033, 0xF055], ∃ (s t : State) (a : Nat),
    fetched s = decode (BitVec.ofNat 16 w) ∧ step s = .next t ∧ t.byteAt a ≠ s.byteAt a := by
  simp only [List.forall_mem_cons, List.not_mem_nil, false_implies, implies_true, and_true]
  refine ⟨?_, ?_⟩
  · obtain ⟨t, h, hp⟩ := of_after (s := ((start 0x200 0xF033).setReg 0 7).setIndex 0xFFD) (p := fun t => t.byteAt 0xFFF == 7) (by decide)
    exact ⟨_, t, 0xFFF, by decide, h, by rw [beq_iff_eq.1 hp]; decide⟩
  · obtain ⟨t, h, hp⟩ := of_after (s := ((start 0x200 0xF055).setReg 0 7).setIndex 0xFFF) (p := fun t => t.byteAt 0xFFF == 7) (by decide)
    exact ⟨_, t, 0xFFF, by decide, h, by rw [beq_iff_eq.1 hp]; decide⟩

theorem witness_VideoChangesOnlyByClsAndDrw : ∃ s t : State, step s = .next t ∧ t.vid ≠ s.vid := by
  obtain ⟨t, h, hp⟩ := of_after (s := lit (start 0x200 0x00E0) 63 31) (p := fun t => !t.vid.pixel (63, 31)) (by decide)
  refine ⟨_, t, h, fun e => ?_⟩
  have hl : (lit (start 0x200 0x00E0) 63 31).vid.pixel (63, 31) = true := by
    simp [lit, Video.setPixel_pixel]
  rw [e, hl] at hp
  exact absurd hp (by decide)

theorem witness_GeneratorAdvancesOnlyInRnd : ∃ s t : State, step s = .next t ∧ t.rngState ≠ s.rngState := by
  have hf : (start 0x200 0xC5FF).fault = none := rfl
  have hc : (start 0x200 0xC5FF).canFetch = true := by decide
  have hd : decode (start 0x200 0xC5FF).fetchWord = .rnd 5 0xFF := by decide
  have hs : step (start 0x200 0xC5FF) = .next (endCycle (start 0x200 0xC5FF)
      ((randomByte (start 0x200 0xC5FF).beginCycle).2.setReg 5 ((randomByte (start 0x200 0xC5FF).beginCycle).1 &&& 0xFF))) := by
    unfold step
    rw [hd, hf, hc]
    rfl
  refine ⟨_, _, hs, ?_⟩
  have h1 : nextRng 0 = 1 := by simp [nextRng]
  show nextRng 0 ≠ 0
  rw [h1]
  decide

theorem witness_KeypadBelongsToTheHost : ∃ s t : State, step s = .next t := by
  obtain ⟨t, h, -⟩ := of_after (s := down (start 0x250 0xF50A) 3) (p := fun t => t.fault == none) (by decide)
  exact ⟨_, t, h⟩

/-- CALL changes an entry and sp, RET sp. -/
theorem witness_StackChangesOnlyByCallAndRet : (∃ s t : State, step s = .next t ∧ t.stack[(15 : Fin 16)] ≠ s.stack[(15 : Fin 16)] ∧
    t.sp ≠ s.sp) ∧ ∃ s t : State, step s = .next t ∧ t.sp ≠ s.sp := by
  refine ⟨?_, ?_⟩
  · obtain ⟨t, h, hp⟩ := of_after (s := depth (start 0x200 0x2300) 15) (p := fun t => t.stack[15] == 0x202 && t.sp == 16) (by decide)
    obtain ⟨h1, h2⟩ : t.stack[15] = 0x202 ∧ t.sp = 16 := by simpa using hp
    exact ⟨_, t, h, fun e => absurd (h1.symm.trans e) (by decide), by rw [h2]; decide⟩
  · obtain ⟨t, h, hp⟩ := of_after (s := depth (start 0x200 0x00EE) 1) (p := fun t => t.sp == 0) (by decide)
    exact ⟨_, t, h, by rw [beq_iff_eq.1 hp]; decide⟩

/-- LD I, and a register transfer with LOADSTORE_INCREMENTS_I. -/
theorem witness_IndexChangesOnlyAsNamed : (∃ s t : State, step s = .next t ∧ t.index ≠ s.index ∧ s.params.loadStoreIncrementsI = false) ∧
    ∃ s t : State, step s = .next t ∧ t.index ≠ s.index ∧ s.params.loadStoreIncrementsI = true := by
  refine ⟨?_, ?_⟩
  · obtain ⟨t, h, hp⟩ := of_after (s := start 0x200 0xA300) (p := fun t => t.index == 0x300) (by decide)
    exact ⟨_, t, h, by rw [beq_iff_eq.1 hp]; decide, rfl⟩
  · obtain ⟨t, h, hp⟩ := of_after (s := withParams (start 0x200 0xF065) fun p => { p with loadStoreIncrementsI := true })
      (p := fun t => t.index == 1) (by decide)
    exact ⟨_, t, h, by rw [beq_iff_eq.1 hp]; decide, rfl⟩

/-- The largest ROM, and one byte more. -/
theorem witness_RomLoadPlacesItsBytes : ((List.replicate 3584 (0x5A : Byte)).length ≤ 3584 ∧ State.reset.mem.wf = true) ∧
    3584 < (List.replicate 3585 (0x5A : Byte)).length := by
  rw [List.length_replicate, List.length_replicate]
  decide

/-- The lowest address of the write port, and the one below it. -/
theorem witness_HostMovesTouchOnlyTheirField : (0x200 ≤ (0x200 : BitVec 12).toNat ∧ State.reset.mem.wf = true) ∧
    (0x1FF : BitVec 12).toNat < 0x200 := by decide

/-- The last pixel, and a fault record with a word. -/
theorem witness_OutputsReadTheState : ((2047 : Fin 2048).val = ((63, 31) : Pixel).2.val * 64 + ((63, 31) : Pixel).1.val) ∧
    ∃ (s : State) (f : FaultRecord) (w : Word), s.fault = some f ∧ f.fop = some w ∧ f.info < 65536 :=
  ⟨by decide, stopped, _, _, rfl, rfl, by decide⟩

/-- The greatest word, placed in a core that can fetch and in one that cannot. -/
theorem witness_PlacedWordIsFetched : (65535 < 65536 ∧ State.reset.mem.wf = true ∧ State.reset.fault = none ∧
    (State.reset.setPc 0xFFE).pc.toNat ≤ 0xFFE) ∧ ¬ (State.reset.setPc 0xFFF).pc.toNat ≤ 0xFFE := by decide

end Sys2Proof.Tests
end

section
/-! PROOFS. The statements about the state (10_state.md): who may write each field, and the reset state. -/

namespace Sys2Proof.Machine

open Sys2Proof.Claims

/-! ## The frame of a whole step

A step is framed by what its instruction may change, in a faulting and a faulted cycle too. The fields that the cycle itself
writes (pc, `op`, the timers, the fault record) are left out. -/

/-- `t` differs from `s`, in the fields that only an instruction writes, at most in what `c` lists. -/
structure StepFrame (c : Changes) (s t : State) : Prop where
  /-- The registers not listed. -/
  regs : ∀ r, r ∉ c.regs → t.reg r = s.reg r
  /-- The bytes of memory not listed. -/
  bytes : ∀ a, a ∉ c.bytes → t.byteAt a = s.byteAt a
  /-- I. -/
  index : c.index = false → t.index = s.index
  /-- The return stack. -/
  stack : c.stack = false → t.stack = s.stack
  /-- The stack pointer. -/
  sp : c.sp = false → t.sp = s.sp
  /-- The frame buffer. -/
  vid : c.vid = false → t.vid = s.vid
  /-- The generator's state. -/
  rng : c.rng = false → t.rngState = s.rngState
  /-- The keypad. -/
  keys : t.keys = s.keys
  /-- The parameters. -/
  params : t.params = s.params

theorem StepFrame.refl (c : Changes) (s : State) : StepFrame c s s := by
  constructor <;> intros <;> rfl

theorem StepFrame.enterFault (c : Changes) (s : State) (f : FaultRecord) : StepFrame c s (s.enterFault f) := by
  constructor <;> intros <;> rfl

/-- An instruction's frame is the frame of its cycle: the advance before it and the tick after it write none of the fields. -/
theorem StepFrame.of_frame {c : Changes} {s u : State} (h : Frame c s.beginCycle u) : StepFrame c s u.tickTimers where
  regs := h.regs
  bytes := h.bytes
  index := h.index
  stack := h.stack
  sp := h.sp
  vid := h.vid
  rng := h.rng
  keys := h.keys
  params := h.params

/-- Latching the word and advancing pc does not affect what an instruction may change. -/
theorem Instr.changes_beginCycle (i : Instr) (s : State) : Instr.changes i s.beginCycle = Instr.changes i s := by
  cases i <;> rfl

/-- A step leaves a fault record or nothing new on `s`, or it ends the cycle of its instruction, which raised nothing. -/
theorem step_next_cases {s t : State} (h : step s = .next t) :
    (t = s ∨ ∃ f, t = s.enterFault f) ∨
    ∃ u, exec (fetched s) s.beginCycle = .next u ∧ Frame (Instr.changes (fetched s) s) s.beginCycle u ∧ t = u.tickTimers := by
  have eq_of {v : State} (hv : step s = .next v) : t = v := by simpa [hv] using h.symm
  rcases step_frame s with ⟨-, hs⟩ | ⟨-, -, hs⟩ | ⟨-, -, r, -, hs⟩ | ⟨-, -, u, he, hu, hs⟩
  · exact Or.inl (Or.inl (eq_of hs))
  · exact Or.inl (Or.inr ⟨_, eq_of hs⟩)
  · exact Or.inl (Or.inr ⟨_, eq_of hs⟩)
  · rw [Instr.changes_beginCycle] at hu
    exact Or.inr ⟨u, he, hu, eq_of hs⟩

/-- THE FRAME OF EVERY STEP: it changes at most what the rule of the fetched instruction names (R12, R35). -/
theorem step_stepFrame {s t : State} (h : step s = .next t) : StepFrame (Instr.changes (fetched s) s) s t := by
  rcases step_next_cases h with (rfl | ⟨f, rfl⟩) | ⟨u, -, hu, rfl⟩
  · exact StepFrame.refl _ _
  · exact StepFrame.enterFault _ _ f
  · exact StepFrame.of_frame hu

/-! ## Which instructions may change a field -/

/-- Every register an instruction may change is one its rule names (R22). -/
theorem mayWriteReg_of_mem_changes {i : Instr} {s : State} {r : Reg} (h : r ∈ (Instr.changes i s).regs) :
    mayWriteReg s.params i r := by
  cases i with
  | ldK | addK | ldR | rnd | ldVDt | addR | sub | shr | subn | shl | drw | ldRegs =>
    simpa [Instr.changes, mayWriteReg] using h
  | orR | andR | xorR =>
    cases hp : s.params.logicResetsVf <;> simpa [Instr.changes, mayWriteReg, hp] using h
  | ldVK =>
    cases hk : s.lowestKey with
    | some k => simpa [Instr.changes, mayWriteReg, hk] using h
    | none => simp [Instr.changes, hk] at h
  | cls | ret | jp | call | seK | sneK | seR | sneR | ldI | jpV0 | skp | sknp | ldDtV | ldStV | addI | ldF | ldB | stRegs | nop =>
    simp [Instr.changes] at h

/-- Only RND may change the generator's state (R130). -/
theorem eq_rnd_of_changes_rng {i : Instr} {s : State} (h : (Instr.changes i s).rng = true) : ∃ x kk, i = .rnd x kk := by
  cases i with
  | rnd x kk => exact ⟨x, kk, rfl⟩
  | _ => simp [Instr.changes] at h

/-- Only the index instructions, and the register transfers under LOADSTORE_INCREMENTS_I, may change I (R166). -/
theorem index_instr_of_changes_index {i : Instr} {s : State} (h : (Instr.changes i s).index = true) :
    (∃ nnn, i = .ldI nnn) ∨ (∃ x, i = .addI x ∨ i = .ldF x) ∨
    (s.params.loadStoreIncrementsI = true ∧ ∃ x, i = .stRegs x ∨ i = .ldRegs x) := by
  cases i with
  | ldI nnn => exact Or.inl ⟨nnn, rfl⟩
  | addI x => exact Or.inr (Or.inl ⟨x, Or.inl rfl⟩)
  | ldF x => exact Or.inr (Or.inl ⟨x, Or.inr rfl⟩)
  | stRegs x => exact Or.inr (Or.inr ⟨h, x, Or.inl rfl⟩)
  | ldRegs x => exact Or.inr (Or.inr ⟨h, x, Or.inr rfl⟩)
  | _ => simp [Instr.changes] at h

/-! ## The return stack -/

/-- What CALL does to the stack: it raises and leaves it, or writes the entry at sp and no other, and sp is one more (R113). -/
theorem execCall_stack {nnn : BitVec 12} {s u : State} (h : execCall nnn s = .next u) :
    (u.stack = s.stack ∧ u.sp = s.sp) ∨
    ((∀ j : Fin 16, s.sp.val ≠ j.val → u.stack[j] = s.stack[j]) ∧ u.sp.val = s.sp.val + 1) := by
  unfold execCall at h
  split at h <;> cases h
  · exact Or.inr ⟨fun j hj => by simp [hj], rfl⟩
  · exact Or.inl ⟨rfl, rfl⟩

/-- What RET does to the stack: the entries stay, and sp stays, when it raises, or is one less (R111). -/
theorem execRet_stack {s u : State} (h : execRet s = .next u) :
    u.stack = s.stack ∧ (u.sp = s.sp ∨ u.sp.val + 1 = s.sp.val) := by
  unfold execRet at h
  split at h <;> cases h
  · exact ⟨rfl, Or.inl rfl⟩
  · next hne => exact ⟨rfl, Or.inr (Nat.sub_add_cancel (Nat.pos_of_ne_zero hne))⟩

/-- What any instruction does to the return stack: it keeps it, or it is a CALL that pushes or a RET that pops (R25). -/
theorem exec_stack_cases {i : Instr} {s u : State} (h : exec i s = .next u) :
    (u.stack = s.stack ∧ u.sp = s.sp) ∨
    (∃ nnn, i = .call nnn ∧ (∀ j : Fin 16, s.sp.val ≠ j.val → u.stack[j] = s.stack[j]) ∧ u.sp.val = s.sp.val + 1) ∨
    (∃ m, i = .ret m ∧ u.stack = s.stack ∧ u.sp.val + 1 = s.sp.val) := by
  obtain ⟨v, hv, hcases⟩ := exec_frame i s
  obtain rfl : v = u := by simpa [hv] using h
  rcases hcases with ⟨r, rfl, -⟩ | hframe
  · exact Or.inl ⟨rfl, rfl⟩
  cases i with
  | call nnn =>
    rcases execCall_stack h with hkept | hpush
    · exact Or.inl hkept
    · exact Or.inr (Or.inl ⟨nnn, rfl, hpush⟩)
  | ret m =>
    obtain ⟨hstack, hsp | hsp⟩ := execRet_stack h
    · exact Or.inl ⟨hstack, hsp⟩
    · exact Or.inr (Or.inr ⟨m, rfl, hstack, hsp⟩)
  | _ => exact Or.inl ⟨hframe.stack rfl, hframe.sp rfl⟩

/-- The same of a step: the cycle around the instruction leaves the return stack alone. -/
theorem step_stack_cases {s t : State} (h : step s = .next t) :
    (t.stack = s.stack ∧ t.sp = s.sp) ∨
    (∃ nnn, fetched s = .call nnn ∧ (∀ j : Fin 16, s.sp.val ≠ j.val → t.stack[j] = s.stack[j]) ∧
      t.sp.val = s.sp.val + 1) ∨
    (∃ m, fetched s = .ret m ∧ t.stack = s.stack ∧ t.sp.val + 1 = s.sp.val) := by
  rcases step_next_cases h with (rfl | ⟨f, rfl⟩) | ⟨u, he, -, rfl⟩
  · exact Or.inl ⟨rfl, rfl⟩
  · exact Or.inl ⟨rfl, rfl⟩
  · simpa using exec_stack_cases he

/-! ## The reset state -/

@[simp] theorem reset_reg (r : Reg) : State.reset.reg r = 0 := by
  simp [State.reg, State.reset]

theorem reset_stack_getElem (j : Fin 16) : State.reset.stack[j] = 0 := by
  simp [State.reset]

theorem reset_keys_getElem (k : Fin 16) : State.reset.keys[k] = false := by
  simp [State.reset]

@[simp] theorem reset_pixel (p : Pixel) : State.reset.vid.pixel p = false := by
  simp [Video.pixel, State.reset]

/-- Outside the font memory is 0 at reset: `create` on the reset state leaves it as it is. -/
theorem reset_byteAt_outside (a : Nat) (h : a < 0x050 ∨ 0x0A0 ≤ a) : State.reset.byteAt a = 0 := by
  have hcreate : State.reset.create = State.reset := State.create_of_defaultFont State.reset rfl
  exact hcreate ▸ State.create_byteAt_outside State.reset a h

/-! ## The statements -/

/-- Settles O45: a register the step changes is among those its instruction may change, which are the ones its rule names. -/
theorem registersChangeOnlyAsNamed : Obligations.RegistersChangeOnlyAsNamed := by
  intro s t r h hnot
  exact (step_stepFrame h).regs r fun hr => hnot (mayWriteReg_of_mem_changes hr)

/-- Settles O48, by the frame of a step: only RND's lists the generator. -/
theorem generatorAdvancesOnlyInRnd : Obligations.GeneratorAdvancesOnlyInRnd := by
  intro s t h hne
  refine eq_rnd_of_changes_rng (s := s) (Bool.of_not_eq_false fun hrng => hne ?_)
  exact (step_stepFrame h).rng hrng

/-- Settles O49: no frame of a step lists the keypad or the parameters. -/
theorem keypadBelongsToTheHost : Obligations.KeypadBelongsToTheHost := by
  intro s t h
  exact ⟨(step_stepFrame h).keys, (step_stepFrame h).params⟩

/-- Settles O50, by the three things a step can do to the return stack: keep it, push, pop. -/
theorem stackChangesOnlyByCallAndRet : Obligations.StackChangesOnlyByCallAndRet := by
  intro s t h
  rcases step_stack_cases h with ⟨hstack, hsp⟩ | ⟨nnn, hi, hother, hsp⟩ | ⟨m, hi, hstack, hsp⟩
  · exact ⟨fun j hj => absurd (by rw [hstack]) hj, fun hne => absurd hsp hne⟩
  · exact ⟨fun j hj => ⟨by_contra fun hne => hj (hother j hne), nnn, hi⟩, fun _ => Or.inl ⟨hsp, nnn, hi⟩⟩
  · exact ⟨fun j hj => absurd (by rw [hstack]) hj, fun _ => Or.inr ⟨hsp, m, hi⟩⟩

/-- Settles O51, by the frame of a step: the instructions whose frame lists I. -/
theorem indexChangesOnlyAsNamed : Obligations.IndexChangesOnlyAsNamed := by
  intro s t h hne
  refine index_instr_of_changes_index (Bool.of_not_eq_false fun hindex => hne ?_)
  exact (step_stepFrame h).index hindex

/-- Settles O44: memory is canonical, pc is 0x200, the stack is zero, and there is no fault record. -/
theorem resetMeetsTheInvariant : Obligations.ResetMeetsTheInvariant where
  memory := reset_memory_wf
  addresses := ⟨by decide, fun i => by rw [reset_stack_getElem]; decide⟩
  record f hf := by cases hf

/-- Settles O52: the fields that are sequences by their own lemmas, the glyphs by evaluation, the other fields by definition. -/
theorem resetState : Obligations.ResetState :=
  ⟨reset_reg, rfl, rfl, reset_stack_getElem, rfl, rfl, rfl, reset_keys_getElem, reset_pixel, rfl, rfl, rfl,
    reset_byteAt_outside, by decide⟩

end Sys2Proof.Machine
end

section
/-! PROOFS. The statements about memory (20_memory.md): reads after writes, the canonical form, who may write a byte, and the word
the next fetch reads. -/

namespace Sys2Proof.Machine

open Sys2Proof.Claims

/-! ## The canonical form -/

/-- The canonical form, cell by cell. -/
theorem Memory.wfFrom_cons_iff (lo k : Nat) (b : Byte) (rest : Memory) :
    Memory.wfFrom lo ((k, b) :: rest) = true ↔
      lo ≤ k ∧ k ≤ 0xFFF ∧ b ≠ resetByte k ∧ Memory.wfFrom (k + 1) rest = true := by
  simp [Memory.wfFrom, Config.memSize, Nat.lt_succ_iff, and_assoc]

@[simp] theorem Memory.get_cons_same (k : Nat) (b : Byte) (rest : Memory) : Memory.get ((k, b) :: rest) k = b := by
  simp [Memory.get]

theorem Memory.get_cons_ne {k a : Nat} (b : Byte) (rest : Memory) (h : k ≠ a) :
    Memory.get ((k, b) :: rest) a = Memory.get rest a := by
  simp [Memory.get, h]

/-- The first cell of a canonical memory shows: a memory that lists no address up to its own reads otherwise there. -/
theorem Memory.head_get_ne {lo k : Nat} {b : Byte} {rest other : Memory} (h : Memory.wfFrom lo ((k, b) :: rest) = true)
    (hother : Memory.wfFrom (k + 1) other = true) : ∃ a, a ≤ 0xFFF ∧ Memory.get ((k, b) :: rest) a ≠ other.get a := by
  obtain ⟨-, hk, hb, -⟩ := (Memory.wfFrom_cons_iff lo k b rest).1 h
  refine ⟨k, hk, ?_⟩
  rwa [Memory.get_cons_same, Memory.get_below other (k + 1) k hother (Nat.lt_succ_self k)]

/-- Tails that stand above `k` read alike when the memories with one more cell at `k` do. -/
theorem Memory.get_tail_eq {k : Nat} {b c : Byte} {rest rest' : Memory} (hrest : Memory.wfFrom (k + 1) rest = true)
    (hrest' : Memory.wfFrom (k + 1) rest' = true) {a : Nat}
    (h : Memory.get ((k, b) :: rest) a = Memory.get ((k, c) :: rest') a) : rest.get a = rest'.get a := by
  by_cases hka : k = a
  · subst hka
    rw [Memory.get_below rest (k + 1) k hrest (Nat.lt_succ_self k), Memory.get_below rest' (k + 1) k hrest' (Nat.lt_succ_self k)]
  · rwa [Memory.get_cons_ne b rest hka, Memory.get_cons_ne c rest' hka] at h

/-- Canonical memories that read alike list the same cells: they list the same first cell, and their tails read alike. -/
theorem Memory.eq_of_get_eq : ∀ (m n : Memory) (lo : Nat), Memory.wfFrom lo m = true → Memory.wfFrom lo n = true →
    (∀ a, a ≤ 0xFFF → m.get a = n.get a) → m = n
  | [], [], _, _, _, _ => rfl
  | [], _ :: _, _, _, hn, h => by
    obtain ⟨a, ha, hne⟩ := Memory.head_get_ne hn (other := []) rfl
    exact absurd (h a ha).symm hne
  | _ :: _, [], _, hm, _, h => by
    obtain ⟨a, ha, hne⟩ := Memory.head_get_ne hm (other := []) rfl
    exact absurd (h a ha) hne
  | (k, b) :: rest, (k', c) :: rest', lo, hm, hn, h => by
    obtain ⟨-, hk, hb, hrest⟩ := (Memory.wfFrom_cons_iff lo k b rest).1 hm
    obtain ⟨-, hk', hc, hrest'⟩ := (Memory.wfFrom_cons_iff lo k' c rest').1 hn
    rcases Nat.lt_trichotomy k k' with hlt | rfl | hlt
    · obtain ⟨a, ha, hne⟩ := Memory.head_get_ne hm ((Memory.wfFrom_cons_iff (k + 1) k' c rest').2 ⟨hlt, hk', hc, hrest'⟩)
      exact absurd (h a ha) hne
    · have hbyte : b = c := by simpa using h k hk
      rw [hbyte, Memory.eq_of_get_eq rest rest' (k + 1) hrest hrest' fun a ha => Memory.get_tail_eq hrest hrest' (h a ha)]
    · obtain ⟨a, ha, hne⟩ := Memory.head_get_ne hn ((Memory.wfFrom_cons_iff (k' + 1) k b rest).2 ⟨hlt, hk, hb, hrest⟩)
      exact absurd (h a ha).symm hne

/-! ## MemRead and MemWrite (R53, R54) -/

theorem memWrite_eq_ok_iff (a : Nat) (v : Byte) (s t : State) :
    memWrite a v s = .ok t ↔ a ≤ 0xFFF ∧ t = s.setByte a v := by
  unfold memWrite
  split
  · next h => simp [Nat.not_le.2 h]
  · next h => simp [Nat.le_of_not_gt h, eq_comm]

theorem memRead_ok (s : State) {a : Nat} (h : a ≤ 0xFFF) : memRead s a = .ok (s.byteAt a) :=
  if_neg (Nat.not_lt.2 h)

/-- What a read answers, its fault included, depends on the byte at its address only. -/
theorem memRead_congr {s t : State} {a : Nat} (h : t.byteAt a = s.byteAt a) : memRead t a = memRead s a := by
  simp only [memRead, h]

/-! ## Who writes memory -/

/-- Only the stores may change a byte of memory, and only one they store to (R58, R163, R164). -/
theorem store_of_mem_changes_bytes {i : Instr} {s : State} {a : Nat} (h : a ∈ (Instr.changes i s).bytes) :
    (∃ x, i = .ldB x ∧ s.index.toNat ≤ a ∧ a ≤ s.index.toNat + 2) ∨
    (∃ x, i = .stRegs x ∧ s.index.toNat ≤ a ∧ a ≤ s.index.toNat + x.val) := by
  cases i with
  | ldB x =>
    obtain ⟨hlo, hhi⟩ := List.mem_range'_1.1 h
    exact Or.inl ⟨x, rfl, hlo, Nat.le_of_lt_succ hhi⟩
  | stRegs x =>
    obtain ⟨hlo, hhi⟩ := List.mem_range'_1.1 h
    exact Or.inr ⟨x, rfl, hlo, Nat.le_of_lt_succ hhi⟩
  | _ => simp [Instr.changes] at h

/-! ## The word the next fetch reads (R55) -/

/-- A step that ends with no fault record latched the word at its pc (R92). -/
theorem step_op_of_fault_none (s : State) : ∃ t, step s = .next t ∧ (t.fault = none → t.op = s.fetchWord) := by
  rcases step_cases s with ⟨hf, hs⟩ | ⟨-, -, hs⟩ | ⟨-, -, r, -, hs⟩ | ⟨-, -, t, -, -, hop, -, -, hs⟩
  · exact ⟨s, hs, fun h => absurd h hf⟩
  · exact ⟨_, hs, fun h => by cases h⟩
  · exact ⟨_, hs, fun h => by cases h⟩
  · exact ⟨_, hs, fun _ => hop⟩

/-- The word at pc is read from memory and pc alone (R55). -/
theorem State.fetchWord_eq {s : State} {a : Nat} {hi lo : Byte} (hpc : s.pc.toNat = a) (hhi : s.mem.get a = hi)
    (hlo : s.mem.get (a + 1) = lo) : s.fetchWord = hi ++ lo := by
  subst hpc hhi hlo
  rfl

@[simp] theorem State.advanceIndex_mem (s : State) (x : Reg) : (s.advanceIndex x).mem = s.mem := by
  rw [State.advanceIndex_eq, State.setIndex_mem]

/-- LD [I], Vx inside memory leaves V[k] at I + k, for every k up to x (R164). -/
theorem execStRegs_mem_get {x k : Reg} {s t : State} (hwf : s.mem.wf = true) (hx : s.index.toNat + x.val ≤ 0xFFF)
    (h : execStRegs x s = .next t) (hk : k ≤ x) : t.mem.get (s.index.toNat + k.val) = s.reg k := by
  have ht : (s.stored s.indexAddr (s.regsTo x)).advanceIndex x = t := by simpa [execStRegs_ok x s hx] using h
  have hlen : (s.regsTo x).length = x.val + 1 := s.regsTo_length x
  have hkx : k.val ≤ x.val := hk
  rw [← ht, State.advanceIndex_mem, ← s.regsTo_getElem x k hk]
  exact State.stored_byteAt (s.regsTo x) s.indexAddr s hwf (by rw [hlen]; exact Nat.succ_le_succ hx) k.val (by omega)

/-! ## The placed word (log 9) -/

/-- `s`, or, if nothing can be fetched at its pc, `s` put at ENTRY: where `withFetchWord` places its word. -/
def State.fetchable (s : State) : State := if s.canFetch then s else s.setPc (BitVec.ofNat 16 Config.entry)

theorem State.fetchable_of_canFetch {s : State} (h : s.canFetch = true) : s.fetchable = s := if_pos h

@[simp] theorem State.fetchable_mem (s : State) : s.fetchable.mem = s.mem := by
  unfold State.fetchable
  split <;> rfl

theorem State.fetchable_pc_le (s : State) : s.fetchable.pc.toNat ≤ 0xFFE := by
  unfold State.fetchable
  split
  · next h => exact (State.canFetch_iff s).1 h
  · exact (by decide : (BitVec.ofNat 16 Config.entry).toNat ≤ 0xFFE)

/-- Placing a word is a store of its two bytes at the fetch address, and no fault record is left. -/
theorem State.withFetchWord_eq (s : State) {w : Nat} (hw : w < 65536) :
    s.withFetchWord 16 w =
      { s.fetchable.stored s.fetchable.pc.toNat [highByte (BitVec.ofNat 16 w), lowByte (BitVec.ofNat 16 w)] with
        fault := none } := by
  have hmod : w % 2 ^ 16 = w := Nat.mod_eq_of_lt hw
  rw [State.withFetchWord, hmod]
  rfl

theorem State.withFetchWord_mem (s : State) {w : Nat} (hw : w < 65536) :
    (s.withFetchWord 16 w).mem =
      (s.fetchable.stored s.fetchable.pc.toNat [highByte (BitVec.ofNat 16 w), lowByte (BitVec.ofNat 16 w)]).mem := by
  rw [State.withFetchWord_eq s hw]

@[simp] theorem State.withFetchWord_pc (s : State) (nbits w : Nat) : (s.withFetchWord nbits w).pc = s.fetchable.pc := rfl

@[simp] theorem State.withFetchWord_fault (s : State) (nbits w : Nat) : (s.withFetchWord nbits w).fault = none := rfl

/-- A word is its two bytes, high byte first (R55). -/
theorem highByte_append_lowByte (w : Word) : highByte w ++ lowByte w = w := by
  unfold highByte lowByte
  rw [BitVec.extractLsb'_append_extractLsb'_eq_extractLsb' (by decide)]
  simp

/-- Placing a word keeps memory canonical. -/
theorem State.withFetchWord_mem_wf (s : State) {w : Nat} (hw : w < 65536) (hwf : s.mem.wf = true) :
    (s.withFetchWord 16 w).mem.wf = true := by
  rw [State.withFetchWord_mem s hw]
  exact State.stored_wf _ _ s.fetchable (by simpa using hwf) (Nat.add_le_add_right s.fetchable_pc_le 2)

/-- The word placed is the word fetched. -/
theorem State.withFetchWord_fetchWord (s : State) {w : Nat} (hw : w < 65536) (hwf : s.mem.wf = true) :
    (s.withFetchWord 16 w).fetchWord = BitVec.ofNat 16 w := by
  have hmem := s.withFetchWord_mem hw
  have hbyte := State.stored_byteAt [highByte (BitVec.ofNat 16 w), lowByte (BitVec.ofNat 16 w)] s.fetchable.pc.toNat
    s.fetchable (by simpa using hwf) (Nat.add_le_add_right s.fetchable_pc_le 2)
  have hpc : (s.withFetchWord 16 w).pc.toNat = s.fetchable.pc.toNat := by rw [State.withFetchWord_pc]
  calc (s.withFetchWord 16 w).fetchWord
    _ = highByte (BitVec.ofNat 16 w) ++ lowByte (BitVec.ofNat 16 w) :=
      State.fetchWord_eq hpc (hmem ▸ hbyte 0 Nat.zero_lt_two) (hmem ▸ hbyte 1 Nat.one_lt_two)
    _ = BitVec.ofNat 16 w := highByte_append_lowByte _

/-- In a core that can fetch, placing a word changes nothing but memory and the fault record. -/
theorem State.withFetchWord_of_canFetch {s : State} {w : Nat} (hw : w < 65536) (hf : s.fault = none)
    (hc : s.canFetch = true) : s.withFetchWord 16 w = { s with mem := (s.withFetchWord 16 w).mem } := by
  rw [State.withFetchWord_eq s hw, State.fetchable_of_canFetch hc, State.stored_eq, State.setMem, ← hf]

/-- There it changes no byte but the two at pc. -/
theorem State.withFetchWord_byteAt_outside {s : State} {w a : Nat} (hw : w < 65536) (hc : s.canFetch = true)
    (h0 : a ≠ s.pc.toNat) (h1 : a ≠ s.pc.toNat + 1) : (s.withFetchWord 16 w).byteAt a = s.byteAt a := by
  have hout : a < s.pc.toNat ∨ s.pc.toNat + 2 ≤ a := by omega
  rw [State.byteAt, State.withFetchWord_mem s hw, State.fetchable_of_canFetch hc]
  exact State.stored_byteAt_outside _ _ s a hout

/-! ## The statements -/

/-- Settles O36, by recursion on both lists of cells. -/
theorem canonicalMemoryIsUnique : Obligations.CanonicalMemoryIsUnique := by
  intro m n hm hn h
  exact Memory.eq_of_get_eq m n 0 hm hn h

/-- Settles O35: the write stored its byte inside memory; the read is of that address or of another one. -/
theorem readSeesTheLastWrite : Obligations.ReadSeesTheLastWrite := by
  intro s t a b v hwf h
  obtain ⟨ha, rfl⟩ := (memWrite_eq_ok_iff a v s t).1 h
  refine ⟨Memory.wf_set s.mem a v hwf ha, ?_⟩
  split
  · next hb => rw [hb, memRead_ok _ ha, State.setByte_byteAt_same s a v hwf]
  · next hb => exact memRead_congr (State.setByte_byteAt_ne s a b v hb)

/-- Settles O46, by the frame of a step: a byte the step changes is among those its instruction may change. -/
theorem memoryChangesOnlyByStores : Obligations.MemoryChangesOnlyByStores := by
  intro s t a h hne
  exact store_of_mem_changes_bytes (by_contra fun hnot => hne ((step_stepFrame h).bytes a hnot))

/-- Settles O34: the bytes stored at I + k and I + k + 1 are the word the fetch reads. -/
theorem storeIsSeenByTheNextFetch : Obligations.StoreIsSeenByTheNextFetch := by
  intro x s t u k j hwf hx h hj hjx hmem hpc _
  have hkx : k ≤ x := le_trans (Fin.le_def.2 (by omega)) hjx
  have hhi : u.mem.get (s.index.toNat + k.val) = s.reg k := hmem ▸ execStRegs_mem_get hwf hx h hkx
  have hlo : u.mem.get (s.index.toNat + k.val + 1) = s.reg j := by
    rw [Nat.add_assoc, ← hj, hmem]
    exact execStRegs_mem_get hwf hx h hjx
  exact State.fetchWord_eq hpc hhi hlo ▸ step_op_of_fault_none u

/-- Settles O57, by what placing a word is: a store of its two bytes at the fetch address. -/
theorem placedWordIsFetched : Obligations.PlacedWordIsFetched := by
  intro s w hw hwf
  refine ⟨congrArg decode (s.withFetchWord_fetchWord hw hwf), s.withFetchWord_fault 16 w, s.fetchable_pc_le,
    s.withFetchWord_mem_wf hw hwf, fun hf hpc => ?_⟩
  have hc : s.canFetch = true := (State.canFetch_iff s).2 hpc
  exact ⟨State.withFetchWord_of_canFetch hw hf hc, fun a h0 h1 => State.withFetchWord_byteAt_outside hw hc h0 h1⟩

end Sys2Proof.Machine
end

section
/-! PROOFS. The statements about the encoding (30_encoding.md): the opcode map row by row, the round trips of decoder and encoder,
the ignored bits and the unpopulated entries. -/

namespace Sys2Proof

open Sys2Proof.Machine Sys2Proof.Claims

/-! ## The decoder, row by row (R75 to R80, R83)

A mask fixes the nibbles that the decoder dispatches on, so each row's words take one arm. -/

theorem decode_family0 (w : Word) (h : (family w).toNat = 0x0) : decode w = decodeFamily0 w := by simp only [decode, h]

theorem decode_family8 (w : Word) (h : (family w).toNat = 0x8) : decode w = decodeFamily8 w := by simp only [decode, h]

theorem decode_familyE (w : Word) (h : (family w).toNat = 0xE) : decode w = decodeFamilyE w := by simp only [decode, h]

theorem decode_familyF (w : Word) (h : (family w).toNat = 0xF) : decode w = decodeFamilyF w := by simp only [decode, h]

/-- A row of mask 0xF000 is decoded by its family alone. -/
theorem encoded_of_family {p : Word} {form : Word → Instr} (hp : p.toNat % 4096 = 0)
    (h : ∀ w, (family w).toNat = p.toNat / 4096 → decode w = form w) : Encoded p 0xF000 form :=
  fun w hw => h w ((masked_family_iff w p hp).1 hw)

/-- A row of mask 0xF00F is decoded by its family's table, keyed by the low nibble. -/
theorem encoded_of_nibble {p : Word} {table form : Word → Instr} (hp : p.toNat / 16 % 256 = 0)
    (hfamily : ∀ w, (family w).toNat = p.toNat / 4096 → decode w = table w)
    (hentry : ∀ w, (lowNibble w).toNat = p.toNat % 16 → table w = form w) : Encoded p 0xF00F form := by
  intro w hw
  obtain ⟨hf, hd⟩ := (masked_family_nibble_iff w p hp).1 hw
  exact (hfamily w hf).trans (hentry w hd)

/-- A row of mask 0xF0FF is decoded by the table of family 0xF, keyed by the low byte. -/
theorem encoded_of_byte {p : Word} {form : Word → Instr} (hp : p.toNat / 256 % 16 = 0) (hfamily : p.toNat / 4096 = 0xF)
    (hentry : ∀ w, (fieldKk w).toNat = p.toNat % 256 → decodeFamilyF w = form w) : Encoded p 0xF0FF form := by
  intro w hw
  obtain ⟨hf, hb⟩ := (masked_family_byte_iff w p hp).1 hw
  exact (decode_familyF w (hf.trans hfamily)).trans (hentry w hb)

theorem encoded_cls : Encoded 0x0000 0xF00F fun w => .cls (midByte w) :=
  encoded_of_nibble rfl decode_family0 fun w (h : (lowNibble w).toNat = 0x0) => by simp only [decodeFamily0, h]

theorem encoded_ret : Encoded 0x000E 0xF00F fun w => .ret (midByte w) :=
  encoded_of_nibble rfl decode_family0 fun w (h : (lowNibble w).toNat = 0xE) => by simp only [decodeFamily0, h]

theorem encoded_jp : Encoded 0x1000 0xF000 fun w => .jp (fieldNnn w) :=
  encoded_of_family rfl fun w (h : (family w).toNat = 0x1) => by simp only [decode, h]

theorem encoded_call : Encoded 0x2000 0xF000 fun w => .call (fieldNnn w) :=
  encoded_of_family rfl fun w (h : (family w).toNat = 0x2) => by simp only [decode, h]

theorem encoded_seK : Encoded 0x3000 0xF000 fun w => .seK (fieldX w) (fieldKk w) :=
  encoded_of_family rfl fun w (h : (family w).toNat = 0x3) => by simp only [decode, h]

theorem encoded_sneK : Encoded 0x4000 0xF000 fun w => .sneK (fieldX w) (fieldKk w) :=
  encoded_of_family rfl fun w (h : (family w).toNat = 0x4) => by simp only [decode, h]

theorem encoded_seR : Encoded 0x5000 0xF000 fun w => .seR (fieldX w) (fieldY w) (lowNibble w) :=
  encoded_of_family rfl fun w (h : (family w).toNat = 0x5) => by simp only [decode, h]

theorem encoded_ldK : Encoded 0x6000 0xF000 fun w => .ldK (fieldX w) (fieldKk w) :=
  encoded_of_family rfl fun w (h : (family w).toNat = 0x6) => by simp only [decode, h]

theorem encoded_addK : Encoded 0x7000 0xF000 fun w => .addK (fieldX w) (fieldKk w) :=
  encoded_of_family rfl fun w (h : (family w).toNat = 0x7) => by simp only [decode, h]

theorem encoded_ldR : Encoded 0x8000 0xF00F fun w => .ldR (fieldX w) (fieldY w) :=
  encoded_of_nibble rfl decode_family8 fun w (h : (lowNibble w).toNat = 0x0) => by simp only [decodeFamily8, h]

theorem encoded_orR : Encoded 0x8001 0xF00F fun w => .orR (fieldX w) (fieldY w) :=
  encoded_of_nibble rfl decode_family8 fun w (h : (lowNibble w).toNat = 0x1) => by simp only [decodeFamily8, h]

theorem encoded_andR : Encoded 0x8002 0xF00F fun w => .andR (fieldX w) (fieldY w) :=
  encoded_of_nibble rfl decode_family8 fun w (h : (lowNibble w).toNat = 0x2) => by simp only [decodeFamily8, h]

theorem encoded_xorR : Encoded 0x8003 0xF00F fun w => .xorR (fieldX w) (fieldY w) :=
  encoded_of_nibble rfl decode_family8 fun w (h : (lowNibble w).toNat = 0x3) => by simp only [decodeFamily8, h]

theorem encoded_addR : Encoded 0x8004 0xF00F fun w => .addR (fieldX w) (fieldY w) :=
  encoded_of_nibble rfl decode_family8 fun w (h : (lowNibble w).toNat = 0x4) => by simp only [decodeFamily8, h]

theorem encoded_sub : Encoded 0x8005 0xF00F fun w => .sub (fieldX w) (fieldY w) :=
  encoded_of_nibble rfl decode_family8 fun w (h : (lowNibble w).toNat = 0x5) => by simp only [decodeFamily8, h]

theorem encoded_shr : Encoded 0x8006 0xF00F fun w => .shr (fieldX w) (fieldY w) :=
  encoded_of_nibble rfl decode_family8 fun w (h : (lowNibble w).toNat = 0x6) => by simp only [decodeFamily8, h]

theorem encoded_subn : Encoded 0x8007 0xF00F fun w => .subn (fieldX w) (fieldY w) :=
  encoded_of_nibble rfl decode_family8 fun w (h : (lowNibble w).toNat = 0x7) => by simp only [decodeFamily8, h]

theorem encoded_shl : Encoded 0x800E 0xF00F fun w => .shl (fieldX w) (fieldY w) :=
  encoded_of_nibble rfl decode_family8 fun w (h : (lowNibble w).toNat = 0xE) => by simp only [decodeFamily8, h]

theorem encoded_sneR : Encoded 0x9000 0xF000 fun w => .sneR (fieldX w) (fieldY w) (lowNibble w) :=
  encoded_of_family rfl fun w (h : (family w).toNat = 0x9) => by simp only [decode, h]

theorem encoded_ldI : Encoded 0xA000 0xF000 fun w => .ldI (fieldNnn w) :=
  encoded_of_family rfl fun w (h : (family w).toNat = 0xA) => by simp only [decode, h]

theorem encoded_jpV0 : Encoded 0xB000 0xF000 fun w => .jpV0 (fieldNnn w) :=
  encoded_of_family rfl fun w (h : (family w).toNat = 0xB) => by simp only [decode, h]

theorem encoded_rnd : Encoded 0xC000 0xF000 fun w => .rnd (fieldX w) (fieldKk w) :=
  encoded_of_family rfl fun w (h : (family w).toNat = 0xC) => by simp only [decode, h]

theorem encoded_drw : Encoded 0xD000 0xF000 fun w => .drw (fieldX w) (fieldY w) (fieldN w) :=
  encoded_of_family rfl fun w (h : (family w).toNat = 0xD) => by simp only [decode, h]

theorem encoded_skp : Encoded 0xE00E 0xF00F fun w => .skp (fieldX w) (midNibble w) :=
  encoded_of_nibble rfl decode_familyE fun w (h : (lowNibble w).toNat = 0xE) => by simp only [decodeFamilyE, h]

theorem encoded_sknp : Encoded 0xE001 0xF00F fun w => .sknp (fieldX w) (midNibble w) :=
  encoded_of_nibble rfl decode_familyE fun w (h : (lowNibble w).toNat = 0x1) => by simp only [decodeFamilyE, h]

theorem encoded_ldVDt : Encoded 0xF007 0xF0FF fun w => .ldVDt (fieldX w) :=
  encoded_of_byte rfl rfl fun w (h : (fieldKk w).toNat = 0x07) => by simp only [decodeFamilyF, h]

theorem encoded_ldVK : Encoded 0xF00A 0xF0FF fun w => .ldVK (fieldX w) :=
  encoded_of_byte rfl rfl fun w (h : (fieldKk w).toNat = 0x0A) => by simp only [decodeFamilyF, h]

theorem encoded_ldDtV : Encoded 0xF015 0xF0FF fun w => .ldDtV (fieldX w) :=
  encoded_of_byte rfl rfl fun w (h : (fieldKk w).toNat = 0x15) => by simp only [decodeFamilyF, h]

theorem encoded_ldStV : Encoded 0xF018 0xF0FF fun w => .ldStV (fieldX w) :=
  encoded_of_byte rfl rfl fun w (h : (fieldKk w).toNat = 0x18) => by simp only [decodeFamilyF, h]

theorem encoded_addI : Encoded 0xF01E 0xF0FF fun w => .addI (fieldX w) :=
  encoded_of_byte rfl rfl fun w (h : (fieldKk w).toNat = 0x1E) => by simp only [decodeFamilyF, h]

theorem encoded_ldF : Encoded 0xF029 0xF0FF fun w => .ldF (fieldX w) :=
  encoded_of_byte rfl rfl fun w (h : (fieldKk w).toNat = 0x29) => by simp only [decodeFamilyF, h]

theorem encoded_ldB : Encoded 0xF033 0xF0FF fun w => .ldB (fieldX w) :=
  encoded_of_byte rfl rfl fun w (h : (fieldKk w).toNat = 0x33) => by simp only [decodeFamilyF, h]

theorem encoded_stRegs : Encoded 0xF055 0xF0FF fun w => .stRegs (fieldX w) :=
  encoded_of_byte rfl rfl fun w (h : (fieldKk w).toNat = 0x55) => by simp only [decodeFamilyF, h]

theorem encoded_ldRegs : Encoded 0xF065 0xF0FF fun w => .ldRegs (fieldX w) :=
  encoded_of_byte rfl rfl fun w (h : (fieldKk w).toNat = 0x65) => by simp only [decodeFamilyF, h]

/-! ## A word is put together from its fields (R71, R72) -/

theorem family_append_fieldNnn (w : Word) : family w ++ fieldNnn w = w := by
  apply BitVec.eq_of_toNat_eq
  simp only [toNat_append_add, family_toNat, fieldNnn_toNat]
  omega

theorem family_append_x_append_fieldKk (w : Word) : family w ++ regBits (fieldX w) ++ fieldKk w = w := by
  apply BitVec.eq_of_toNat_eq
  simp only [toNat_append_add, family_toNat, regBits_toNat, fieldX_val, fieldKk_toNat]
  omega

theorem family_append_xy_append_lowNibble (w : Word) :
    family w ++ regBits (fieldX w) ++ regBits (fieldY w) ++ lowNibble w = w := by
  apply BitVec.eq_of_toNat_eq
  simp only [toNat_append_add, family_toNat, regBits_toNat, fieldX_val, fieldY_val, lowNibble_toNat]
  omega

theorem family_append_midByte_append_lowNibble (w : Word) : family w ++ midByte w ++ lowNibble w = w := by
  apply BitVec.eq_of_toNat_eq
  simp only [toNat_append_add, family_toNat, midByte_toNat, lowNibble_toNat]
  omega

/-! ## Masks on a field -/

section Masks
variable {w m k c p : Word} {start len : Nat}

/-- A mask that is all ones on a field keeps the field. -/
theorem extractLsb'_and_of_ones (hk : k.extractLsb' start len = BitVec.allOnes len) :
    (w &&& k).extractLsb' start len = w.extractLsb' start len := by
  rw [BitVec.extractLsb'_and, hk, BitVec.and_allOnes]

/-- Setting bits outside a field keeps the field. -/
theorem extractLsb'_or_of_zeros (hc : c.extractLsb' start len = 0#len) :
    (w ||| c).extractLsb' start len = w.extractLsb' start len := by
  rw [BitVec.extractLsb'_or, hc, BitVec.or_zero]

theorem fieldX_and (hk : k.extractLsb' 8 4 = BitVec.allOnes 4) : fieldX (w &&& k) = fieldX w :=
  congrArg BitVec.toFin (extractLsb'_and_of_ones hk)

theorem fieldX_or (hc : c.extractLsb' 8 4 = 0#4) : fieldX (w ||| c) = fieldX w :=
  congrArg BitVec.toFin (extractLsb'_or_of_zeros hc)

theorem fieldY_and (hk : k.extractLsb' 4 4 = BitVec.allOnes 4) : fieldY (w &&& k) = fieldY w :=
  congrArg BitVec.toFin (extractLsb'_and_of_ones hk)

/-- Clearing bits outside a row's mask keeps the row. -/
theorem masked_and (hk : k &&& m = m) (h : w &&& m = p) : (w &&& k) &&& m = p := by
  rw [BitVec.and_assoc, hk, h]

/-- Setting bits outside a row's mask keeps the row. -/
theorem masked_or (hc : c &&& m = 0) (h : w &&& m = p) : (w ||| c) &&& m = p := by
  rw [BitVec.and_or_distrib_right, hc, h]
  exact BitVec.or_zero

theorem family_eq_of_masked (hm : family m = 0xF) (h : w &&& m = p) : family p = family w :=
  h ▸ extractLsb'_and_of_ones hm

theorem lowNibble_eq_of_masked (hm : lowNibble m = 0xF) (h : w &&& m = p) : lowNibble p = lowNibble w :=
  h ▸ extractLsb'_and_of_ones hm

theorem fieldKk_eq_of_masked (hm : fieldKk m = 0xFF) (h : w &&& m = p) : fieldKk p = fieldKk w :=
  h ▸ extractLsb'_and_of_ones hm

/-! ## The words of a row: the pattern's fixed fields and the word's own (R72, R83) -/

theorem row_append_nnn (h : w &&& 0xF000 = p) : family p ++ fieldNnn w = w := by
  rw [family_eq_of_masked rfl h, family_append_fieldNnn]

theorem row_append_xkk (h : w &&& 0xF000 = p) : family p ++ regBits (fieldX w) ++ fieldKk w = w := by
  rw [family_eq_of_masked rfl h, family_append_x_append_fieldKk]

theorem row_append_xyn (h : w &&& 0xF000 = p) : family p ++ regBits (fieldX w) ++ regBits (fieldY w) ++ lowNibble w = w := by
  rw [family_eq_of_masked rfl h, family_append_xy_append_lowNibble]

theorem row_append_xy (h : w &&& 0xF00F = p) : family p ++ regBits (fieldX w) ++ regBits (fieldY w) ++ lowNibble p = w := by
  rw [family_eq_of_masked rfl h, lowNibble_eq_of_masked rfl h, family_append_xy_append_lowNibble]

theorem row_append_mid (h : w &&& 0xF00F = p) : family p ++ midByte w ++ lowNibble p = w := by
  rw [family_eq_of_masked rfl h, lowNibble_eq_of_masked rfl h, family_append_midByte_append_lowNibble]

theorem row_append_x (h : w &&& 0xF0FF = p) : family p ++ regBits (fieldX w) ++ fieldKk p = w := by
  rw [family_eq_of_masked rfl h, fieldKk_eq_of_masked rfl h, family_append_x_append_fieldKk]

end Masks

/-! ## The opcode map (R83) -/

/-- The decoder takes the words of a row to the instructions `form`, which bear the row's mnemonic and keep every bit of the word. -/
structure OpcodeRow.DecodedBy (row : OpcodeRow) (form : Word → Instr) : Prop where
  /-- The row's words decode to `form`. -/
  encoded : Encoded row.pattern row.mask form
  /-- `form` is the row's instruction. -/
  mnemonic : ∀ w, (form w).mnemonic = row.mnemonic
  /-- No bit of the word is lost. -/
  encode_form : ∀ w, w &&& row.mask = row.pattern → encode (form w) = w

/-- The families that one nibble selects, and family 0x0. -/
theorem opcodeRowsByNibble_decoded : ∀ row ∈ opcodeRowsByNibble, ∃ form, row.DecodedBy form :=
  List.forall_iff_forall_mem.1 ⟨
    ⟨_, encoded_cls, fun _ => rfl, fun _ => row_append_mid⟩,
    ⟨_, encoded_ret, fun _ => rfl, fun _ => row_append_mid⟩,
    ⟨_, encoded_jp, fun _ => rfl, fun _ => row_append_nnn⟩,
    ⟨_, encoded_call, fun _ => rfl, fun _ => row_append_nnn⟩,
    ⟨_, encoded_seK, fun _ => rfl, fun _ => row_append_xkk⟩,
    ⟨_, encoded_sneK, fun _ => rfl, fun _ => row_append_xkk⟩,
    ⟨_, encoded_seR, fun _ => rfl, fun _ => row_append_xyn⟩,
    ⟨_, encoded_ldK, fun _ => rfl, fun _ => row_append_xkk⟩,
    ⟨_, encoded_addK, fun _ => rfl, fun _ => row_append_xkk⟩,
    ⟨_, encoded_sneR, fun _ => rfl, fun _ => row_append_xyn⟩,
    ⟨_, encoded_ldI, fun _ => rfl, fun _ => row_append_nnn⟩,
    ⟨_, encoded_jpV0, fun _ => rfl, fun _ => row_append_nnn⟩,
    ⟨_, encoded_rnd, fun _ => rfl, fun _ => row_append_xkk⟩,
    ⟨_, encoded_drw, fun _ => rfl, fun _ => row_append_xyn⟩⟩

/-- Family 0x8. -/
theorem opcodeRowsFamily8_decoded : ∀ row ∈ opcodeRowsFamily8, ∃ form, row.DecodedBy form :=
  List.forall_iff_forall_mem.1 ⟨
    ⟨_, encoded_ldR, fun _ => rfl, fun _ => row_append_xy⟩,
    ⟨_, encoded_orR, fun _ => rfl, fun _ => row_append_xy⟩,
    ⟨_, encoded_andR, fun _ => rfl, fun _ => row_append_xy⟩,
    ⟨_, encoded_xorR, fun _ => rfl, fun _ => row_append_xy⟩,
    ⟨_, encoded_addR, fun _ => rfl, fun _ => row_append_xy⟩,
    ⟨_, encoded_sub, fun _ => rfl, fun _ => row_append_xy⟩,
    ⟨_, encoded_shr, fun _ => rfl, fun _ => row_append_xy⟩,
    ⟨_, encoded_subn, fun _ => rfl, fun _ => row_append_xy⟩,
    ⟨_, encoded_shl, fun _ => rfl, fun _ => row_append_xy⟩⟩

/-- Families 0xE and 0xF. -/
theorem opcodeRowsFamilyEF_decoded : ∀ row ∈ opcodeRowsFamilyEF, ∃ form, row.DecodedBy form :=
  List.forall_iff_forall_mem.1 ⟨
    ⟨_, encoded_skp, fun _ => rfl, fun _ => row_append_xy⟩,
    ⟨_, encoded_sknp, fun _ => rfl, fun _ => row_append_xy⟩,
    ⟨_, encoded_ldVDt, fun _ => rfl, fun _ => row_append_x⟩,
    ⟨_, encoded_ldVK, fun _ => rfl, fun _ => row_append_x⟩,
    ⟨_, encoded_ldDtV, fun _ => rfl, fun _ => row_append_x⟩,
    ⟨_, encoded_ldStV, fun _ => rfl, fun _ => row_append_x⟩,
    ⟨_, encoded_addI, fun _ => rfl, fun _ => row_append_x⟩,
    ⟨_, encoded_ldF, fun _ => rfl, fun _ => row_append_x⟩,
    ⟨_, encoded_ldB, fun _ => rfl, fun _ => row_append_x⟩,
    ⟨_, encoded_stRegs, fun _ => rfl, fun _ => row_append_x⟩,
    ⟨_, encoded_ldRegs, fun _ => rfl, fun _ => row_append_x⟩⟩

/-- Every row of the map is decoded to its instruction. -/
theorem opcodeMap_decoded : ∀ row ∈ opcodeMap, ∃ form, row.DecodedBy form :=
  List.forall_mem_append.2
    ⟨List.forall_mem_append.2 ⟨opcodeRowsByNibble_decoded, opcodeRowsFamily8_decoded⟩, opcodeRowsFamilyEF_decoded⟩

theorem decode_mnemonic_of_matches {row : OpcodeRow} (hrow : row ∈ opcodeMap) {w : Word}
    (h : w &&& row.mask = row.pattern) : (decode w).mnemonic = row.mnemonic := by
  obtain ⟨form, hform⟩ := opcodeMap_decoded row hrow
  rw [hform.encoded w h, hform.mnemonic]

theorem encode_decode_of_matches {row : OpcodeRow} (hrow : row ∈ opcodeMap) {w : Word}
    (h : w &&& row.mask = row.pattern) : encode (decode w) = w := by
  obtain ⟨form, hform⟩ := opcodeMap_decoded row hrow
  rw [hform.encoded w h, hform.encode_form w h]

theorem wellFormed_nop_iff (w : Word) :
    (Instr.nop w).wellFormed = true ↔ ∀ row ∈ opcodeMap, w &&& row.mask ≠ row.pattern := by
  simp [Instr.wellFormed, populated, OpcodeRow.matches]

theorem decode_of_no_match {w : Word} (h : ∀ row ∈ opcodeMap, w &&& row.mask ≠ row.pattern) : decode w = .nop w :=
  Laws.RoundTrip.nop w ((wellFormed_nop_iff w).2 h)

/-- A word matches a row, or it is a NOP's. -/
theorem matches_or_decode_eq_nop (w : Word) :
    (∃ row ∈ opcodeMap, w &&& row.mask = row.pattern) ∨
    ((∀ row ∈ opcodeMap, w &&& row.mask ≠ row.pattern) ∧ decode w = .nop w) := by
  by_cases h : ∃ row ∈ opcodeMap, w &&& row.mask = row.pattern
  · exact Or.inl h
  · have hno : ∀ row ∈ opcodeMap, w &&& row.mask ≠ row.pattern := fun row hrow hm => h ⟨row, hrow, hm⟩
    exact Or.inr ⟨hno, decode_of_no_match hno⟩

theorem opcodeMap_mnemonics_nodup : (opcodeMap.map OpcodeRow.mnemonic).Nodup := by decide

theorem opcodeMap_mnemonic_ne_nop : ∀ row ∈ opcodeMap, row.mnemonic ≠ "NOP" := by decide

/-- Only NOP carries a check. -/
theorem Instr.wellFormed_of_mnemonic_ne_nop {i : Instr} (h : i.mnemonic ≠ "NOP") : i.wellFormed = true := by
  cases i with
  | nop w => exact absurd rfl h
  | _ => rfl

/-- A word matches the row whose mnemonic its instruction bears, and no other: mnemonics are distinct. -/
theorem matches_iff_decode_mnemonic {row : OpcodeRow} (hrow : row ∈ opcodeMap) (w : Word) :
    w &&& row.mask = row.pattern ↔ (decode w).mnemonic = row.mnemonic := by
  refine ⟨decode_mnemonic_of_matches hrow, fun hname => ?_⟩
  rcases matches_or_decode_eq_nop w with ⟨row', hrow', hm⟩ | ⟨-, hnop⟩
  · have hname' : row'.mnemonic = row.mnemonic := (decode_mnemonic_of_matches hrow' hm).symm.trans hname
    rwa [List.inj_on_of_nodup_map opcodeMap_mnemonics_nodup hrow' hrow hname'] at hm
  · exact absurd (hname.symm.trans (congrArg Instr.mnemonic hnop)) (opcodeMap_mnemonic_ne_nop row hrow)

/-- A word matches at most one row: its instruction bears one mnemonic. -/
theorem opcodeMap_disjoint (w : Word) :
    opcodeMap.Pairwise fun a b => ¬ (w &&& a.mask = a.pattern ∧ w &&& b.mask = b.pattern) := by
  refine (List.pairwise_map.1 opcodeMap_mnemonics_nodup).imp_of_mem fun ha hb hne ⟨hma, hmb⟩ => hne ?_
  exact (decode_mnemonic_of_matches ha hma).symm.trans (decode_mnemonic_of_matches hb hmb)

/-! ## The round trips (R84, R86) -/

/-- The round trips of PerInstr.lean, over every constructor. -/
theorem decode_encode (i : Instr) (h : i.wellFormed = true) : decode (encode i) = i := by
  cases i with
  | cls ign => exact Laws.RoundTrip.cls ign h
  | ret ign => exact Laws.RoundTrip.ret ign h
  | jp nnn => exact Laws.RoundTrip.jp nnn h
  | call nnn => exact Laws.RoundTrip.call nnn h
  | seK x kk => exact Laws.RoundTrip.seK x kk h
  | sneK x kk => exact Laws.RoundTrip.sneK x kk h
  | seR x y ign => exact Laws.RoundTrip.seR x y ign h
  | ldK x kk => exact Laws.RoundTrip.ldK x kk h
  | addK x kk => exact Laws.RoundTrip.addK x kk h
  | ldR x y => exact Laws.RoundTrip.ldR x y h
  | orR x y => exact Laws.RoundTrip.orR x y h
  | andR x y => exact Laws.RoundTrip.andR x y h
  | xorR x y => exact Laws.RoundTrip.xorR x y h
  | addR x y => exact Laws.RoundTrip.addR x y h
  | sub x y => exact Laws.RoundTrip.sub x y h
  | shr x y => exact Laws.RoundTrip.shr x y h
  | subn x y => exact Laws.RoundTrip.subn x y h
  | shl x y => exact Laws.RoundTrip.shl x y h
  | sneR x y ign => exact Laws.RoundTrip.sneR x y ign h
  | ldI nnn => exact Laws.RoundTrip.ldI nnn h
  | jpV0 nnn => exact Laws.RoundTrip.jpV0 nnn h
  | rnd x kk => exact Laws.RoundTrip.rnd x kk h
  | drw x y n => exact Laws.RoundTrip.drw x y n h
  | skp x ign => exact Laws.RoundTrip.skp x ign h
  | sknp x ign => exact Laws.RoundTrip.sknp x ign h
  | ldVDt x => exact Laws.RoundTrip.ldVDt x h
  | ldVK x => exact Laws.RoundTrip.ldVK x h
  | ldDtV x => exact Laws.RoundTrip.ldDtV x h
  | ldStV x => exact Laws.RoundTrip.ldStV x h
  | addI x => exact Laws.RoundTrip.addI x h
  | ldF x => exact Laws.RoundTrip.ldF x h
  | ldB x => exact Laws.RoundTrip.ldB x h
  | stRegs x => exact Laws.RoundTrip.stRegs x h
  | ldRegs x => exact Laws.RoundTrip.ldRegs x h
  | nop w => exact Laws.RoundTrip.nop w h

/-- Two bytes in memory order decode as the word they are (R55, R86). -/
theorem decodeBytes_encodeBytes (i : Instr) (rest : List Byte) :
    decodeBytes (encodeBytes i ++ rest) = .ok (decode (encode i), rest) :=
  congrArg (fun w => Except.ok (decode w, rest)) (highByte_append_lowByte (encode i))

theorem encode_decode (w : Word) : encode (decode w) = w := by
  rcases matches_or_decode_eq_nop w with ⟨row, hrow, hm⟩ | ⟨-, hnop⟩
  · exact encode_decode_of_matches hrow hm
  · rw [hnop, encode]

theorem decode_wellFormed (w : Word) : (decode w).wellFormed = true := by
  rcases matches_or_decode_eq_nop w with ⟨row, hrow, hm⟩ | ⟨hno, hnop⟩
  · refine Instr.wellFormed_of_mnemonic_ne_nop ?_
    rw [decode_mnemonic_of_matches hrow hm]
    exact opcodeMap_mnemonic_ne_nop row hrow
  · rw [hnop, wellFormed_nop_iff]
    exact hno

/-! ## Words whose format ignores bits (R72, R76, R78, R80): the ignored field is not in the meaning -/

section IgnoredBits
variable {w : Word}

theorem exec_decode_cls (h : w &&& 0xF00F = 0x0000) (s : State) : exec (decode w) s = execCls s :=
  congrArg (exec · s) (encoded_cls w h)

theorem exec_decode_ret (h : w &&& 0xF00F = 0x000E) (s : State) : exec (decode w) s = execRet s :=
  congrArg (exec · s) (encoded_ret w h)

theorem exec_decode_seR (h : w &&& 0xF000 = 0x5000) (s : State) : exec (decode w) s = execSeR (fieldX w) (fieldY w) s :=
  congrArg (exec · s) (encoded_seR w h)

theorem exec_decode_sneR (h : w &&& 0xF000 = 0x9000) (s : State) : exec (decode w) s = execSneR (fieldX w) (fieldY w) s :=
  congrArg (exec · s) (encoded_sneR w h)

theorem exec_decode_skp (h : w &&& 0xF00F = 0xE00E) (s : State) : exec (decode w) s = execSkp (fieldX w) s :=
  congrArg (exec · s) (encoded_skp w h)

theorem exec_decode_sknp (h : w &&& 0xF00F = 0xE001) (s : State) : exec (decode w) s = execSknp (fieldX w) s :=
  congrArg (exec · s) (encoded_sknp w h)

end IgnoredBits

theorem exec_nop (w : Word) (s : State) : exec (.nop w) s = .next s := rfl

/-! ## The entries the tables leave unpopulated (R76 to R79, R81) -/

section Unpopulated
variable {w : Word}

theorem and_000F_toNat : (w &&& 0x000F).toNat = (lowNibble w).toNat := by
  rw [BitVec.toNat_and, lowNibble_toNat]
  exact Nat.and_two_pow_sub_one_eq_mod w.toNat 4

theorem and_00FF_toNat : (w &&& 0x00FF).toNat = (fieldKk w).toNat := by
  rw [BitVec.toNat_and, fieldKk_toNat]
  exact Nat.and_two_pow_sub_one_eq_mod w.toNat 8

theorem decodeFamily0_unpopulated (h : (lowNibble w).toNat ∉ [0x0, 0xE]) : decodeFamily0 w = .nop w := by
  unfold decodeFamily0
  split
  case h_3 => rfl
  all_goals next hentry => simp [hentry] at h

theorem decodeFamily8_unpopulated (h : (lowNibble w).toNat ∉ [0x0, 0x1, 0x2, 0x3, 0x4, 0x5, 0x6, 0x7, 0xE]) :
    decodeFamily8 w = .nop w := by
  unfold decodeFamily8
  split
  case h_10 => rfl
  all_goals next hentry => simp [hentry] at h

theorem decodeFamilyE_unpopulated (h : (lowNibble w).toNat ∉ [0x1, 0xE]) : decodeFamilyE w = .nop w := by
  unfold decodeFamilyE
  split
  case h_3 => rfl
  all_goals next hentry => simp [hentry] at h

theorem decodeFamilyF_unpopulated
    (h : (fieldKk w).toNat ∉ [0x07, 0x0A, 0x15, 0x18, 0x1E, 0x29, 0x33, 0x55, 0x65]) : decodeFamilyF w = .nop w := by
  unfold decodeFamilyF
  split
  case h_10 => rfl
  all_goals next hentry => simp [hentry] at h

end Unpopulated

/-! ## The statements -/

/-- Settles O1, by the round trip of every constructor; the two bytes in memory order are the word. -/
theorem decodeInvertsEncode : Obligations.DecodeInvertsEncode := by
  intro i h
  refine ⟨decode_encode i h, fun rest => ?_⟩
  rw [decodeBytes_encodeBytes, decode_encode i h]

/-- Settles O2, row by row of the opcode map; a word of no row is kept whole by NOP. -/
theorem encodeInvertsDecode : Obligations.EncodeInvertsDecode :=
  fun w => ⟨decode_wellFormed w, encode_decode w⟩

/-- Settles O3: a word's instruction bears the mnemonic of the row it matches, and the mnemonics are distinct. -/
theorem opcodeMapSelectsTheHandler : Obligations.OpcodeMapSelectsTheHandler :=
  ⟨rfl, fun w => ⟨opcodeMap_disjoint w, fun _ hrow => matches_iff_decode_mnemonic hrow w, decode_of_no_match⟩⟩

/-- Settles O5: a word and its canonical word match the same row, with the same register fields. -/
theorem ignoredBitsSelectNothing : Obligations.IgnoredBitsSelectNothing := by
  intro w s
  refine ⟨fun h => ?_, fun h => ?_, fun h => ?_, fun h => ?_, fun h => ?_, fun h => ?_⟩
  · rw [exec_decode_cls h, exec_decode_cls rfl]
  · rw [exec_decode_ret h, exec_decode_ret rfl]
  · rw [exec_decode_seR h, exec_decode_seR (masked_and rfl h), fieldX_and rfl, fieldY_and rfl]
  · rw [exec_decode_sneR h, exec_decode_sneR (masked_and rfl h), fieldX_and rfl, fieldY_and rfl]
  · rw [exec_decode_skp h, exec_decode_skp (masked_or rfl (masked_and rfl h)), fieldX_or rfl, fieldX_and rfl]
  · rw [exec_decode_sknp h, exec_decode_sknp (masked_or rfl (masked_and rfl h)), fieldX_or rfl, fieldX_and rfl]

/-- Settles O6, table by table: an entry that is not listed falls to the table's default arm. -/
theorem unpopulatedEntriesAreNop : Obligations.UnpopulatedEntriesAreNop := by
  intro w
  simp only [and_000F_toNat, and_00FF_toNat]
  refine ⟨fun h hd => ?_, fun h hd => ?_, fun h hd => ?_, fun h hb => ?_, exec_nop w⟩
  · exact (decode_family0 w ((masked_family_iff w _ rfl).1 h)).trans (decodeFamily0_unpopulated hd)
  · exact (decode_family8 w ((masked_family_iff w _ rfl).1 h)).trans (decodeFamily8_unpopulated hd)
  · exact (decode_familyE w ((masked_family_iff w _ rfl).1 h)).trans (decodeFamilyE_unpopulated hd)
  · exact (decode_familyF w ((masked_family_iff w _ rfl).1 h)).trans (decodeFamilyF_unpopulated hb)

/-- Settles O4, by the rows the words match; the last two match none. -/
theorem sampleWordsDecode : Obligations.SampleWordsDecode :=
  ⟨encoded_cls _ rfl, encoded_ret _ rfl, encoded_jp _ rfl, encoded_seR _ rfl, encoded_addR _ rfl, encoded_drw _ rfl,
    encoded_sknp _ rfl, encoded_ldRegs _ rfl, decode_of_no_match (by decide), decode_of_no_match (by decide)⟩

end Sys2Proof
end

section
/-! PROOFS. The statements about the execution cycle (40_execution_cycle.md): the invariant that every step keeps, the fetch, the
timers' tick, NOP, and the cycle around the decoded instruction. -/

namespace Sys2Proof.Machine

open Sys2Proof.Claims

/-! ## Steps of a running core -/

/-- A step of a running core leaves a fault record on `s`, or it ends the cycle of its instruction, which raised nothing. -/
theorem step_running_cases {s t : State} (hf : s.fault = none) (h : step s = .next t) :
    (∃ f, t = s.enterFault f) ∨
    ∃ u, exec (fetched s) s.beginCycle = .next u ∧ Frame (Instr.changes (fetched s) s) s.beginCycle u ∧
      t = u.tickTimers ∧ t.fault = none := by
  have eq_of {v : State} (hv : step s = .next v) : t = v := by simpa [hv] using h.symm
  rcases step_frame s with ⟨hne, -⟩ | ⟨-, -, hs⟩ | ⟨-, -, r, -, hs⟩ | ⟨-, -, u, he, hu, hs⟩
  · exact absurd hf hne
  · exact Or.inl ⟨_, eq_of hs⟩
  · exact Or.inl ⟨_, eq_of hs⟩
  · rw [Instr.changes_beginCycle] at hu
    obtain rfl := eq_of hs
    exact Or.inr ⟨u, he, hu, rfl, hu.fault.trans hf⟩

/-- The cycle of an instruction that leaves no fault record ends with the tick (R95). -/
theorem step_of_exec_fault_none {s u : State} (hf : s.fault = none) (hpc : s.pc.toNat ≤ 0xFFE)
    (he : exec (fetched s) s.beginCycle = .next u) (hu : u.fault = none) : step s = .next u.tickTimers := by
  rw [step_of_exec s u hf ((State.canFetch_iff s).2 hpc) he, endCycle_of_none s u hu]

/-! ## The fetch (R91, R92) -/

/-- The word at pc in numbers: big-endian (R55). -/
theorem State.fetchWord_toNat (s : State) :
    s.fetchWord.toNat = 256 * (s.byteAt s.pc.toNat).toNat + (s.byteAt (s.pc.toNat + 1)).toNat := by
  rw [State.fetchWord, BitVec.toNat_append, ← Nat.shiftLeft_add_eq_or_of_lt (BitVec.isLt _), Nat.shiftLeft_eq, Nat.mul_comm]

theorem step_of_pc_out_of_range {s : State} (hf : s.fault = none) (hpc : 0xFFE < s.pc.toNat) :
    step s = .next s.fetchFault := by
  have hc : ¬ s.canFetch = true := fun h => absurd ((State.canFetch_iff s).1 h) (Nat.not_le.2 hpc)
  simp [step, hf, hc]

/-! ## What an instruction can do, of a next state at hand -/

/-- `exec_frame` of a next state at hand: the instruction raised, under its rule's condition, or changed what its rule names. -/
theorem exec_next_frame {i : Instr} {s u : State} (h : exec i s = .next u) :
    (∃ r, u = s.raise r ∧ Instr.mayRaise i s r) ∨ Frame (Instr.changes i s) s u := by
  obtain ⟨v, hv, hcases⟩ := exec_frame i s
  obtain rfl : v = u := by simpa [hv] using h
  exact hcases

/-- CALL raises, or pushes the advanced pc and jumps (R113). -/
theorem execCall_next {nnn : BitVec 12} {s u : State} (h : execCall nnn s = .next u) :
    (∃ r, u = s.raise r) ∨ ∃ room, u = (s.push s.pc room).setPc (zext16 nnn) := by
  unfold execCall at h
  split at h <;> cases h
  · next room => exact Or.inr ⟨room, rfl⟩
  · exact Or.inl ⟨_, rfl⟩

/-- RET raises, or pops the most recent entry into pc (R111). -/
theorem execRet_next {s u : State} (h : execRet s = .next u) : (∃ r, u = s.raise r) ∨ u = s.popPc := by
  unfold execRet at h
  split at h <;> cases h
  · exact Or.inl ⟨_, rfl⟩
  · exact Or.inr rfl

/-- The key wait writes a register, or sets pc back to its own address (R203). -/
theorem execLdVK_next {x : Reg} {s u : State} (h : execLdVK x s = .next u) :
    (∃ b, u = s.setReg x b) ∨ u = s.setPc (s.pc - 2) := by
  unfold execLdVK at h
  split at h <;> cases h
  · exact Or.inl ⟨_, rfl⟩
  · exact Or.inr rfl

/-! ## Where pc can go -/

/-- The values pc can have after an instruction that ran from `s`, in phase 3 of a cycle (R110 to R118, R203). -/
inductive PcMove (s : State) : Word → Prop where
  /-- pc stays the advanced pc. -/
  | stay : PcMove s s.pc
  /-- A skip (R110). -/
  | skip : PcMove s (s.pc + 2)
  /-- The key wait goes back to its own address (R203). -/
  | wait : PcMove s (s.pc - 2)
  /-- JP and CALL (R112, R113). -/
  | jump (nnn : BitVec 12) : PcMove s (zext16 nnn)
  /-- JP V0 (R118). -/
  | jumpV0 (nnn : BitVec 12) : PcMove s (zext16 nnn + byteWord (s.reg 0))
  /-- RET to a stack entry (R111). -/
  | entry (j : Fin 16) : PcMove s s.stack[j]

theorem PcMove.skipIf (s : State) (c : Bool) : PcMove s (s.skipIf c).pc := by
  cases c
  · exact .stay
  · exact .skip

/-- A settled handler moves pc as its own next state does, or, if it raised, not at all. -/
theorem PcMove.of_settle {s u : State} {e : Except Raise State} (h : settle s e = .next u)
    (hok : ∀ t, e = .ok t → PcMove s t.pc) : PcMove s u.pc := by
  rcases settle_next h with he | ⟨r, -, rfl⟩
  · exact hok u he
  · exact .stay

/-- The key instructions skip, whatever sense they test the key in (R200, R201). -/
theorem PcMove.of_keySkip {s u : State} {x : Reg} {cond : Fin 16 → Bool}
    (h : settle s (do let k ← keyNumber (s.reg x); .ok (s.skipIf (cond k))) = .next u) : PcMove s u.pc := by
  refine PcMove.of_settle h fun t ht => ?_
  cases hk : keyNumber (s.reg x) with
  | ok k =>
    obtain rfl : s.skipIf (cond k) = t := by simpa [hk] using ht
    exact PcMove.skipIf s _
  | error r => simp [hk] at ht

/-- WHERE PC CAN GO, instruction by instruction: only flow control, the key instructions and the key wait write it. -/
theorem exec_pcMove {i : Instr} {s u : State} (h : exec i s = .next u) : PcMove s u.pc := by
  rcases exec_next_frame h with ⟨r, rfl, -⟩ | hframe
  · exact .stay
  cases i with
  | jp nnn => cases h; exact .jump nnn
  | jpV0 nnn => cases h; exact .jumpV0 nnn
  | call nnn =>
    rcases execCall_next h with ⟨r, rfl⟩ | ⟨room, rfl⟩
    · exact .stay
    · exact .jump nnn
  | ret =>
    rcases execRet_next h with ⟨r, rfl⟩ | rfl
    · exact .stay
    · exact .entry ⟨s.sp.val - 1, by omega⟩
  | seK | sneK | seR | sneR => cases h; exact PcMove.skipIf s _
  | skp x => exact PcMove.of_keySkip (cond := fun k => s.keys[k]) h
  | sknp x => exact PcMove.of_keySkip (cond := fun k => !s.keys[k]) h
  | ldVK =>
    rcases execLdVK_next h with ⟨b, rfl⟩ | rfl
    · exact .stay
    · exact .wait
  | _ => exact hframe.pc rfl ▸ .stay

theorem zext16_toNat_le (nnn : BitVec 12) : (zext16 nnn).toNat ≤ 0xFFF := by
  have := nnn.isLt
  simp only [zext16, BitVec.truncate_eq_setWidth, BitVec.toNat_setWidth]
  omega

theorem byteWord_toNat_le (b : Byte) : (byteWord b).toNat ≤ 0xFF := by
  have := b.isLt
  simp only [byteWord, BitVec.truncate_eq_setWidth, BitVec.toNat_setWidth]
  omega

/-- pc is at most 0x10FE after an instruction, the greatest target of JP V0 (C3). -/
theorem PcMove.toNat_le {s : State} {w : Word} (h : PcMove s w) (hlo : 2 ≤ s.pc.toNat) (hhi : s.pc.toNat ≤ 0x1000)
    (hstack : ∀ j : Fin 16, (s.stack[j]).toNat ≤ 0x1000) : w.toNat ≤ 0x10FE := by
  have two : (2 : Word).toNat = 2 := rfl
  cases h with
  | stay => omega
  | skip => rw [BitVec.toNat_add]; omega
  | wait => rw [BitVec.toNat_sub]; omega
  | jump nnn => have := zext16_toNat_le nnn; omega
  | jumpV0 nnn =>
    have := zext16_toNat_le nnn
    have := byteWord_toNat_le (s.reg 0)
    rw [BitVec.toNat_add]
    omega
  | entry j => have := hstack j; omega

/-! ## The return addresses -/

/-- A stack entry after an instruction is the entry there was, or the advanced pc that a CALL pushed (R113). -/
theorem exec_stack_entry {i : Instr} {s u : State} (h : exec i s = .next u) (j : Fin 16) :
    u.stack[j] = s.stack[j] ∨ u.stack[j] = s.pc := by
  rcases exec_next_frame h with ⟨r, rfl, -⟩ | hframe
  · exact Or.inl rfl
  cases i with
  | call nnn =>
    rcases execCall_next h with ⟨r, rfl⟩ | ⟨room, rfl⟩
    · exact Or.inl rfl
    · by_cases hj : s.sp.val = j.val
      · exact Or.inr (by simp [hj])
      · exact Or.inl (by simp [hj])
  | _ => exact Or.inl (by rw [hframe.stack rfl])

/-- An instruction keeps the addresses bounded, from an advanced pc (C3, R93). -/
theorem exec_addressesBounded {i : Instr} {s u : State} (h : exec i s = .next u) (hlo : 2 ≤ s.pc.toNat)
    (hhi : s.pc.toNat ≤ 0x1000) (hstack : ∀ j : Fin 16, (s.stack[j]).toNat ≤ 0x1000) : u.addressesBounded := by
  refine ⟨(exec_pcMove h).toNat_le hlo hhi hstack, fun j => ?_⟩
  rcases exec_stack_entry h j with hj | hj
  · exact hj ▸ hstack j
  · exact hj ▸ hhi

/-! ## The fault record describes the state -/

theorem State.fetchFault_record_sound {s : State} (hpc : 0xFFE < s.pc.toNat) :
    FaultRecord.sound ⟨.fetchOutOfRange, s.pc, none, s.pc.toNat⟩ s := by
  have := s.pc.isLt
  simp [FaultRecord.sound, hpc, this]

section Sound
variable (s : State) (w : Word)

/-- The record of a range that leaves memory: the information is the lowest address outside (R67). -/
theorem sound_memOutOfRange : FaultRecord.sound ⟨.memOutOfRange, s.pc, some w, max s.indexAddr 0x1000⟩ s := by
  have hlt : s.indexAddr < 65536 := s.index.isLt
  simp [FaultRecord.sound, hlt]

theorem sound_stackOverflow (hsp : s.sp.val = 16) : FaultRecord.sound ⟨.stackOverflow, s.pc, some w, 16⟩ s := by
  simp [FaultRecord.sound, hsp]

theorem sound_stackUnderflow (hsp : s.sp.val = 0) : FaultRecord.sound ⟨.stackUnderflow, s.pc, some w, 0⟩ s := by
  simp [FaultRecord.sound, hsp]

theorem sound_keyIndexOutOfRange (b : Byte) (hb : 0xF < b.toNat) :
    FaultRecord.sound ⟨.keyIndexOutOfRange, s.pc, some w, b.toNat⟩ s := by
  have hle : b.toNat ≤ 0xFF := Nat.le_of_lt_succ b.isLt
  have hport : b.toNat < 65536 := by omega
  simp [FaultRecord.sound, hb, hle, hport]

/-- The record of a sprite bit that raises: it is off the grid, and at most 7 columns and 14 rows past the anchor (R184). -/
theorem sound_spriteOffScreen {x y : Reg} {n : Fin 16} {px py : Nat} (hm : (px, py) ∈ s.drawnBits x y n.val)
    (hr : raisesAt s.params.offscreen px py) :
    FaultRecord.sound ⟨.spriteOffScreen, s.pc, some w, py * 64 + px⟩ s := by
  obtain ⟨i, c, hi, hc, -, hpx, hpy⟩ := (s.mem_drawnBits x y n.val px py).1 hm
  obtain ⟨hoff, -⟩ := hr
  have hx : px ≤ 70 := by simp only [spriteColumn] at hpx; omega
  have hy : py ≤ 45 := by simp only [spriteRow] at hpy; omega
  have hlo : 64 ≤ py * 64 + px := by omega
  have hhi : py * 64 + px ≤ 45 * 64 + 70 := by omega
  have hport : py * 64 + px < 65536 := by omega
  simp [FaultRecord.sound, hlo, hhi, hport]

end Sound

/-- Every fault an instruction raises leaves a record that describes the state (R221, R222). -/
theorem Instr.mayRaise_sound {i : Instr} {s : State} {r : Raise} (h : Instr.mayRaise i s r) (w : Word) :
    FaultRecord.sound ⟨r.code, s.pc, some w, r.info⟩ s := by
  cases i with
  | ret => obtain ⟨hsp, rfl⟩ := h; exact sound_stackUnderflow s w hsp
  | call => obtain ⟨hsp, rfl⟩ := h; exact sound_stackOverflow s w hsp
  | skp x | sknp x => obtain ⟨hx, rfl⟩ := h; exact sound_keyIndexOutOfRange s w _ hx
  | ldB | stRegs | ldRegs => obtain ⟨-, rfl⟩ := h; exact sound_memOutOfRange s w
  | drw x y n =>
    simp only [Instr.mayRaise] at h
    split at h
    · obtain ⟨px, py, hm, hr, rfl⟩ := h
      exact sound_spriteOffScreen s w hm hr
    · subst h
      exact sound_memOutOfRange s w
  | _ => exact h.elim

/-- Latching the word and advancing pc does not affect what an instruction raises. -/
theorem Instr.mayRaise_beginCycle (i : Instr) (s : State) (r : Raise) :
    Instr.mayRaise i s.beginCycle r ↔ Instr.mayRaise i s r := by
  cases i <;> rfl

/-! ## The invariant -/

/-- Fault entry keeps the invariant, if the record describes the state: it writes nothing else (R222). -/
theorem State.Inv.enterFault {s : State} (h : s.Inv) {f : FaultRecord} (hf : f.sound s) : (s.enterFault f).Inv where
  memory := h.memory
  addresses := h.addresses
  record g hg := by
    obtain rfl : f = g := by simpa using hg
    exact hf

/-- The cycle of an instruction that raised nothing keeps the invariant. -/
theorem State.Inv.tickTimers_of_exec {i : Instr} {s u : State} (h : s.Inv) (hc : s.canFetch = true)
    (he : exec i s.beginCycle = .next u) (hu : u.fault = none) : u.tickTimers.Inv where
  memory := exec_mem_wf i s.beginCycle u h.memory he
  addresses := by
    have hpc := (State.canFetch_iff s).1 hc
    have hadv := s.beginCycle_pc_toNat hc
    obtain ⟨-, hstack⟩ := h.addresses
    show u.addressesBounded
    exact exec_addressesBounded he (by omega) (by omega) hstack
  record f hf := by simp [hu] at hf

/-! ## The timers (R95) -/

theorem eq_ldDtV_of_changes_dt {i : Instr} {s : State} (h : (Instr.changes i s).dt = true) : ∃ x, i = .ldDtV x := by
  cases i with
  | ldDtV x => exact ⟨x, rfl⟩
  | _ => simp [Instr.changes] at h

theorem eq_ldStV_of_changes_st {i : Instr} {s : State} (h : (Instr.changes i s).st = true) : ∃ x, i = .ldStV x := by
  cases i with
  | ldStV x => exact ⟨x, rfl⟩
  | _ => simp [Instr.changes] at h

/-! ## The statements -/

/-- Settles O43, by what a step can do: stay in a fault, take a fault, whose record describes the state, or run an instruction that
keeps memory canonical and the addresses bounded. -/
theorem stepKeepsTheInvariant : Obligations.StepKeepsTheInvariant := by
  intro s t hinv h
  have eq_of {v : State} (hv : step s = .next v) : t = v := by simpa [hv] using h.symm
  rcases step_frame s with ⟨-, hs⟩ | ⟨-, hc, hs⟩ | ⟨-, -, r, hr, hs⟩ | ⟨hf, hc, u, he, hu, hs⟩
  · exact eq_of hs ▸ hinv
  · have hpc : 0xFFE < s.pc.toNat := Nat.lt_of_not_le fun hle => by simp [(State.canFetch_iff s).2 hle] at hc
    exact eq_of hs ▸ hinv.enterFault (State.fetchFault_record_sound hpc)
  · rw [Instr.mayRaise_beginCycle] at hr
    exact eq_of hs ▸ hinv.enterFault (Instr.mayRaise_sound hr s.fetchWord)
  · exact eq_of hs ▸ hinv.tickTimers_of_exec hc he (hu.fault.trans hf)

/-- Settles O8: the word latched, or recorded by the fault the instruction raised, is the word at pc. -/
theorem fetchIsBigEndianOrFaults : Obligations.FetchIsBigEndianOrFaults := by
  intro s hf
  refine ⟨step_of_pc_out_of_range hf, fun hpc => ?_⟩
  have hc := (State.canFetch_iff s).2 hpc
  rcases step_cases s with ⟨hne, -⟩ | ⟨-, hc', -⟩ | ⟨-, -, r, -, hs⟩ | ⟨-, -, t, -, hnone, hop, -, -, hs⟩
  · exact absurd hf hne
  · exact absurd (hc.symm.trans hc') (by decide)
  · exact ⟨_, hs, Or.inr ⟨_, s.fetchWord, rfl, rfl, s.fetchWord_toNat⟩⟩
  · exact ⟨_, hs, Or.inl ⟨hnone, by rw [State.tickTimers_op, hop, s.fetchWord_toNat]⟩⟩

/-- Settles O13: the tick follows the instruction, whose frame lists DT for Fx15 only and ST for Fx18 only; fault entry writes
neither. -/
theorem timersTickOnceAStep : Obligations.TimersTickOnceAStep := by
  intro s t hf h
  rcases step_running_cases hf h with ⟨f, rfl⟩ | ⟨u, he, hu, rfl, hnone⟩
  · exact ⟨fun hnone => absurd hnone (Option.some_ne_none f), fun _ => ⟨rfl, rfl⟩⟩
  refine ⟨fun _ => ⟨fun x hi => ?_, fun hi => ?_, fun x hi => ?_, fun hi => ?_, fun x hi => ?_⟩, fun hne => absurd hnone hne⟩
  · rw [hi] at he
    cases he
    exact tick_toNat _
  · have hdt : u.dt = s.dt := hu.dt (Bool.of_not_eq_true fun hd => (eq_ldDtV_of_changes_dt hd).elim hi)
    rw [State.tickTimers_dt, tick_toNat, hdt]
  · rw [hi] at he
    cases he
    exact tick_toNat _
  · have hst : u.st = s.st := hu.st (Bool.of_not_eq_true fun hd => (eq_ldStV_of_changes_st hd).elim hi)
    rw [State.tickTimers_st, tick_toNat, hst]
  · rw [hi] at he
    cases he
    exact State.setReg_reg_same _ _ _

/-- Settles O14: phase 3 of NOP leaves the state it began in, which the tick ends. -/
theorem nopHasOnlyTheCyclesEffect : Obligations.NopHasOnlyTheCyclesEffect := by
  refine ⟨fun _ => decode_of_no_match, exec_nop, fun w s hf hpc hi => ?_⟩
  have he : exec (fetched s) s.beginCycle = .next s.beginCycle := by rw [hi, exec_nop]
  exact ⟨_, step_of_exec_fault_none hf hpc he hf, s.beginCycle_pc_toNat ((State.canFetch_iff s).2 hpc), rfl,
    tick_toNat s.dt, tick_toNat s.st, rfl⟩

/-- Settles O7: the state the instruction runs on is `beginCycle`, and the end of the cycle depends on its fault record. -/
theorem stepRunsTheDecodedInstruction : Obligations.StepRunsTheDecodedInstruction := by
  intro s i hf hpc hi
  subst hi
  obtain ⟨t, ht, -⟩ := exec_cases (fetched s) s.beginCycle
  rw [step_of_exec s t hf ((State.canFetch_iff s).2 hpc) ht]
  have ht' : exec (decode (s.byteAt s.pc.toNat ++ s.byteAt (s.pc.toNat + 1)))
      { s with op := s.byteAt s.pc.toNat ++ s.byteAt (s.pc.toNat + 1), pc := s.pc + 2 } = .next t := ht
  simp only [ht']
  split
  · next hnone => rw [endCycle_of_none s t hnone]; rfl
  · next f hsome => rw [endCycle_of_some s t f hsome]; rfl

/-- Settles O10: each of the things a step can do is a next state. -/
theorem stepAlwaysAnswersNext : Obligations.StepAlwaysAnswersNext := by
  intro s
  obtain ⟨t, hs, -⟩ := step_op_of_fault_none s
  exact ⟨t, hs⟩

end Sys2Proof.Machine
end

section
/-! PROOFS. The statements about flow control (41_flow_control.md): the return stack, the jumps and the skips. -/

namespace Sys2Proof.Machine

open Sys2Proof.Claims

/-! ## The return stack (R25) -/

/-- A push writes the entry at sp. -/
theorem State.push_stack_same {s : State} {j : Fin 16} (hj : s.sp.val = j.val) (w : Word) (room : s.sp.val < Config.stackDepth) :
    (s.push w room).stack[j] = w := by
  simp [hj]

/-- A push leaves the other entries. -/
theorem State.push_stack_ne {s : State} {k : Fin 16} (hk : s.sp.val ≠ k.val) (w : Word) (room : s.sp.val < Config.stackDepth) :
    (s.push w room).stack[k] = s.stack[k] := by
  simp [hk]

/-- A pop reads the entry below sp, the most recent one. -/
theorem State.popPc_pc_of_sp {s : State} {j : Fin 16} (hsp : s.sp.val = j.val + 1) : s.popPc.pc = s.stack[j] := by
  simp [State.popPc_pc, hsp]

/-! ## RET and CALL, by the depth of the stack (R111, R113) -/

theorem execRet_of_sp_ne_zero {s : State} (hsp : s.sp.val ≠ 0) : execRet s = .next s.popPc := if_neg hsp

theorem execRet_of_sp_zero {s : State} (hsp : s.sp.val = 0) : execRet s = .next (s.raise ⟨.stackUnderflow, 0⟩) := by
  simp [execRet, hsp]

theorem execCall_of_room {s : State} (nnn : BitVec 12) (room : s.sp.val < Config.stackDepth) :
    execCall nnn s = .next ((s.push s.pc room).setPc (zext16 nnn)) := dif_pos room

theorem execCall_of_sp_full {s : State} (nnn : BitVec 12) (hsp : s.sp.val = 16) :
    execCall nnn s = .next (s.raise ⟨.stackOverflow, 16⟩) := by
  simp [execCall, hsp]

/-! ## The target of JP V0 (R118) -/

@[simp] theorem zext16_toNat (nnn : BitVec 12) : (zext16 nnn).toNat = nnn.toNat :=
  BitVec.toNat_setWidth_of_le (by decide)

@[simp] theorem byteWord_toNat (b : Byte) : (byteWord b).toNat = b.toNat :=
  BitVec.toNat_setWidth_of_le (by decide)

/-- The sum is at most 0xFFF + 0xFF, so 16 bits hold it (D18). -/
theorem zext16_add_byteWord_toNat (nnn : BitVec 12) (b : Byte) :
    (zext16 nnn + byteWord b).toNat = nnn.toNat + b.toNat := by
  rw [BitVec.toNat_add_of_lt, zext16_toNat, byteWord_toNat]
  have := zext16_toNat_le nnn
  have := byteWord_toNat_le b
  omega

/-! ## The skips (R110) -/

theorem State.skipIf_beq_pc (s : State) (a b : Byte) :
    (s.skipIf (a == b)).pc = if a = b then s.pc + 2 else s.pc := by
  simp only [State.skipIf_pc, beq_iff_eq]

theorem State.skipIf_bne_pc (s : State) (a b : Byte) :
    (s.skipIf (a != b)).pc = if a = b then s.pc else s.pc + 2 := by
  simp only [State.skipIf_pc, bne_iff_ne, ite_not]

/-! ## The statements -/

/-- Settles O15, by the depth of the stack: a pop above 0, the fault at 0. -/
theorem retPopsOrUnderflows : Obligations.RetPopsOrUnderflows := by
  refine ⟨encoded_ret, fun m s j hsp => ?_, fun _ _ => execRet_of_sp_zero⟩
  exact ⟨s.popPc, execRet_of_sp_ne_zero (by omega), by simp [hsp], State.popPc_pc_of_sp hsp, Frame.popPc rfl rfl s⟩

/-- Settles O16, by the depth of the stack: a push and a jump below 16, the fault at 16. -/
theorem callPushesOrOverflows : Obligations.CallPushesOrOverflows := by
  refine ⟨encoded_call, fun nnn s j hsp => ?_, fun nnn _ => execCall_of_sp_full nnn⟩
  have room : s.sp.val < Config.stackDepth := hsp ▸ j.isLt
  have hother (k : Fin 16) (hk : k ≠ j) : s.sp.val ≠ k.val := fun h => hk (Fin.ext (h.symm.trans hsp))
  exact ⟨(s.push s.pc room).setPc (zext16 nnn), execCall_of_room nnn room, State.push_stack_same hsp s.pc room,
    fun k hk => State.push_stack_ne (hother k hk) s.pc room, congrArg (· + 1) hsp, zext16_toNat nnn,
    (Frame.push rfl rfl s s.pc room).trans (Frame.setPc rfl _ _)⟩

/-- Settles O17: both jumps only write pc, and 16 bits hold either target. -/
theorem jumpsSetThePc : Obligations.JumpsSetThePc := by
  refine ⟨encoded_jp, encoded_jpV0, fun nnn s => ⟨?_, ?_⟩⟩
  · exact ⟨_, rfl, zext16_toNat nnn, Frame.setPc rfl s _⟩
  · exact ⟨_, rfl, zext16_add_byteWord_toNat nnn (s.reg 0), Frame.setPc rfl s _⟩

/-- Settles O18: each of the four is a conditional skip on a comparison of bytes. -/
theorem skipsAddTwoToThePc : Obligations.SkipsAddTwoToThePc := by
  refine ⟨encoded_seK, encoded_sneK, encoded_seR, encoded_sneR, fun x y kk m s => ⟨?_, ?_, ?_, ?_⟩⟩
  · exact ⟨_, rfl, s.skipIf_beq_pc (s.reg x) kk, Frame.skipIf rfl s _⟩
  · exact ⟨_, rfl, s.skipIf_bne_pc (s.reg x) kk, Frame.skipIf rfl s _⟩
  · exact ⟨_, rfl, s.skipIf_beq_pc (s.reg x) (s.reg y), Frame.skipIf rfl s _⟩
  · exact ⟨_, rfl, s.skipIf_bne_pc (s.reg x) (s.reg y), Frame.skipIf rfl s _⟩

/-- Settles O19, from what CALL and RET do: the entry the CALL writes, at its sp, is the one the RET reads. -/
theorem callThenRetReturns : Obligations.CallThenRetReturns := by
  intro nnn m s t u hlt hcall hstack hsp
  obtain ⟨-, call_pushes, -⟩ := callPushesOrOverflows
  obtain ⟨-, ret_pops, -⟩ := retPopsOrUnderflows
  obtain ⟨t', ht', hentry, -, htsp, -⟩ := call_pushes nnn s ⟨s.sp.val, hlt⟩ rfl
  obtain rfl : t' = t := by simpa [ht'] using hcall
  obtain ⟨v, hv, hvsp, hvpc, -⟩ := ret_pops m u ⟨s.sp.val, hlt⟩ (hsp ▸ htsp)
  refine ⟨v, hv, ?_, Fin.ext hvsp⟩
  rw [hvpc, hstack, hentry]

end Sys2Proof.Machine
end

section
/-! PROOFS. The statements about arithmetic, logic and the random byte (42_arith_logic.md): the register loads and the immediate
sum, the logic operations, the instructions that write a flag, and the generator. -/

namespace Sys2Proof.Machine

open Sys2Proof.Claims

/-! ## The logic operations' result and VF (R136 to R138, D14) -/

/-- The VF reset takes nothing else, and is the last write (D14). -/
theorem State.logicFlag_reg (s : State) (q : Reg) :
    s.logicFlag.reg q = if s.params.logicResetsVf = true ∧ q = regF then 0 else s.reg q := by
  rw [State.logicFlag_eq]
  by_cases hreset : s.params.logicResetsVf = true <;> simp [hreset, State.setReg_reg]

/-- What OR, AND and XOR share: a result whose bits are `f` of the operands' bits, then the VF reset. -/
theorem exec_logic {i : Instr} {x y : Reg} {s : State} {r : Byte} {f : Bool → Bool → Bool}
    (hexec : exec i s = .next (s.setReg x r).logicFlag)
    (hbits : ∀ k < 8, r.getLsbD k = f ((s.reg x).getLsbD k) ((s.reg y).getLsbD k)) :
    ∃ t, exec i s = .next t ∧
      (¬ (s.params.logicResetsVf = true ∧ x = 0xF) →
        ∀ k : Nat, k < 8 → (t.reg x).getLsbD k = f ((s.reg x).getLsbD k) ((s.reg y).getLsbD k)) ∧
      (s.params.logicResetsVf = true → t.reg 0xF = 0) ∧
      Frame { regs := if s.params.logicResetsVf then [x, 0xF] else [x] } s t := by
  refine ⟨_, hexec, fun hkept k hk => ?_, fun hreset => ?_, (Frame.setReg ?_ s r).trans (Frame.logicFlag _ fun hreset => ?_)⟩
  · rw [State.logicFlag_reg, State.setReg_params, if_neg hkept, State.setReg_reg_same, hbits k hk]
  · rw [State.logicFlag_reg, State.setReg_params, if_pos ⟨hreset, rfl⟩]
  · split <;> exact List.mem_cons_self
  · rw [State.setReg_params] at hreset
    simp [hreset]

/-! ## A flag, then a result (R132) -/

/-- What the instructions that write a flag share: VF first and Vx second, so that for x = F the result stays. -/
theorem exec_flag_then_result {i : Instr} {x : Reg} {s : State} {b : Bool} {r : Byte} {flag result : Nat}
    (hexec : exec i s = .next ((s.setVf b).setReg x r)) (hflag : (boolByte b).toNat = flag) (hresult : r.toNat = result) :
    ∃ t, exec i s = .next t ∧ (t.reg x).toNat = result ∧ (x ≠ 0xF → (t.reg 0xF).toNat = flag) ∧
      Frame { regs := [x, 0xF] } s t := by
  refine ⟨_, hexec, ?_, fun hx => ?_, (Frame.setVf (by simp) s b).trans (Frame.setReg (by simp) _ r)⟩
  · rw [State.setReg_reg_same, hresult]
  · rw [State.setReg_reg_ne _ _ _ _ hx.symm, State.setVf_reg, if_pos rfl, hflag]

/-! ## The flags in numbers (R139 to R143) -/

theorem boolByte_carry_toNat (a b : Byte) : (boolByte (carry a b)).toNat = if 255 < a.toNat + b.toNat then 1 else 0 := by
  simp [carry]

theorem boolByte_noBorrow_toNat (a b : Byte) : (boolByte (noBorrow a b)).toNat = if b.toNat ≤ a.toNat then 1 else 0 := by
  simp [noBorrow]

theorem boolByte_shiftedOutRight_toNat (b : Byte) : (boolByte (shiftedOutRight b)).toNat = b.toNat % 2 := by
  simp only [boolByte_toNat, shiftedOutRight, BitVec.getLsbD, Nat.testBit_zero, decide_eq_true_eq]
  split <;> omega

theorem boolByte_shiftedOutLeft_toNat (b : Byte) : (boolByte (shiftedOutLeft b)).toNat = b.toNat / 128 := by
  simp only [boolByte_toNat, shiftedOutLeft, BitVec.getLsbD, Nat.testBit_eq_decide_div_mod_eq, decide_eq_true_eq]
  have := b.isLt
  split <;> omega

/-! ## The operands after the flag write (R132, R141, R143) -/

/-- `afterFlag` is the operand the model reads, in numbers. -/
theorem aliasState_reg_toNat (s : State) (b : Bool) (r : Reg) :
    ((aliasState s (s.setVf b)).reg r).toNat = afterFlag s r (boolByte b).toNat := by
  rw [aliasState_reg, afterFlag]
  split <;> rfl

theorem aliasState_setVf_params (s : State) (b : Bool) : (aliasState s (s.setVf b)).params = s.params := by
  unfold aliasState
  split <;> rfl

theorem shiftOperand_eq_shifted (x y : Reg) (s : State) : shiftOperand x y s = s.reg (shifted s x y) := shiftOperand_eq x y s

/-- The flag write does not change which register SHIFT_SOURCE names, only what it may hold. -/
theorem shiftOperand_aliasState_toNat (x y : Reg) (s : State) (b : Bool) :
    (shiftOperand x y (aliasState s (s.setVf b))).toNat = afterFlag s (shifted s x y) (boolByte b).toNat := by
  rw [shiftOperand_eq, aliasState_setVf_params, aliasState_reg_toNat, shifted]

/-- The difference modulo 256 as the statements write it. -/
theorem byte_sub_toNat (a b : Byte) : (a - b).toNat = (a.toNat + 256 - b.toNat) % 256 := by
  rw [BitVec.toNat_sub]
  have := b.isLt
  omega

/-- What SUB and SUBN share: the no-borrow flag of `a - b`, then the difference of the operands as the alias order reads them. -/
theorem exec_difference {i : Instr} {a b x : Reg} {s : State} {flag : Nat}
    (hexec : exec i s = .next ((s.setVf (noBorrow (s.reg a) (s.reg b))).setReg x
      ((aliasState s (s.setVf (noBorrow (s.reg a) (s.reg b)))).reg a -
        (aliasState s (s.setVf (noBorrow (s.reg a) (s.reg b)))).reg b)))
    (hflag : flag = if (s.reg b).toNat ≤ (s.reg a).toNat then 1 else 0) :
    ∃ t, exec i s = .next t ∧ (t.reg x).toNat = (afterFlag s a flag + 256 - afterFlag s b flag) % 256 ∧
      (x ≠ 0xF → (t.reg 0xF).toNat = flag) ∧ Frame { regs := [x, 0xF] } s t := by
  have hvf : (boolByte (noBorrow (s.reg a) (s.reg b))).toNat = flag := by rw [boolByte_noBorrow_toNat, hflag]
  refine exec_flag_then_result hexec hvf ?_
  rw [byte_sub_toNat, aliasState_reg_toNat, aliasState_reg_toNat, hvf]

/-! ## The generator (R130, R144) -/

/-- RNG_MULT is odd, whatever its free bits are (log 4). -/
theorem rngMult_odd : rngMult.toNat % 2 = 1 := by
  have one_toNat : (1#1).toNat = 1 := rfl
  rw [rngMult, toNat_append_add]
  omega

theorem nextRng_toNat (r : RngWord) : (nextRng r).toNat = (r.toNat * rngMult.toNat + 1) % 2 ^ 64 := by
  have one_toNat : (1 : RngWord).toNat = 1 := rfl
  rw [nextRng, BitVec.toNat_add, BitVec.toNat_mul, one_toNat, Nat.mod_add_mod]

/-- The multiplier has no part in the state after 0. -/
theorem nextRng_zero : nextRng 0 = 1 := by
  simp [nextRng]

/-- Bits 63:56 as a quotient. -/
theorem topByte_eq (r : RngWord) : r.extractLsb' 56 8 = BitVec.ofNat 8 (r.toNat / 2 ^ 56) := by
  rw [BitVec.extractLsb', Nat.shiftRight_eq_div_pow]

/-- The first byte from state 0. -/
theorem topByte_nextRng_zero : (nextRng 0).extractLsb' 56 8 = 0#8 := by
  rw [nextRng_zero]
  rfl

theorem execRnd_eq (x : Reg) (kk : Byte) (s : State) : execRnd x kk s =
    .next ((s.setRng (nextRng s.rngState)).setReg x ((nextRng s.rngState).extractLsb' 56 8 &&& kk)) := rfl

/-! ## The statements -/

/-- Settles O20: both loads are one register write. -/
theorem registerLoads : Obligations.RegisterLoads := by
  refine ⟨encoded_ldK, encoded_ldR, fun x y kk s => ⟨?_, ?_⟩⟩
  · exact ⟨_, rfl, s.setReg_reg_same x kk, Frame.setReg List.mem_cons_self s kk⟩
  · exact ⟨_, rfl, s.setReg_reg_same x (s.reg y), Frame.setReg List.mem_cons_self s (s.reg y)⟩

/-- Settles O21: one register write, of a sum of bytes. -/
theorem addImmediateWraps : Obligations.AddImmediateWraps := by
  refine ⟨encoded_addK, fun x kk s => ⟨s.setReg x (s.reg x + kk), rfl, ?_, Frame.setReg List.mem_cons_self s _⟩⟩
  rw [State.setReg_reg_same, BitVec.toNat_add]

/-- Settles O22, operation by operation: each is a bitwise result and the VF reset. -/
theorem logicIsBitwise : Obligations.LogicIsBitwise := by
  refine ⟨encoded_orR, encoded_andR, encoded_xorR, fun x y s op hop => ?_⟩
  simp only [List.mem_cons, List.not_mem_nil, or_false] at hop
  obtain rfl | rfl | rfl := hop
  · exact exec_logic rfl fun k _ => BitVec.getLsbD_or
  · exact exec_logic rfl fun k _ => BitVec.getLsbD_and
  · exact exec_logic rfl fun k _ => BitVec.getLsbD_xor

/-- Settles O23: the sum is taken before the carry is written, so the alias order has no part in it. -/
theorem addSetsCarry : Obligations.AddSetsCarry :=
  ⟨encoded_addR, fun _ _ _ => exec_flag_then_result rfl (boolByte_carry_toNat _ _) (BitVec.toNat_add _ _)⟩

/-- Settles O24: the difference is Vx - Vy. -/
theorem subSetsNoBorrow : Obligations.SubSetsNoBorrow :=
  ⟨encoded_sub, fun _ _ _ _ => exec_difference rfl⟩

/-- Settles O25: the difference is Vy - Vx. -/
theorem subnSetsNoBorrow : Obligations.SubnSetsNoBorrow :=
  ⟨encoded_subn, fun _ _ _ _ => exec_difference rfl⟩

/-- Settles O26: bit 0 of the source to VF, then half of the source as the alias order reads it. -/
theorem shrShiftsOutBitZero : Obligations.ShrShiftsOutBitZero := by
  refine ⟨encoded_shr, fun x y s flag hflag => ?_⟩
  have hvf : (boolByte (shiftedOutRight (shiftOperand x y s))).toNat = flag := by
    rw [boolByte_shiftedOutRight_toNat, shiftOperand_eq_shifted, hflag]
  refine exec_flag_then_result rfl hvf ?_
  rw [BitVec.toNat_ushiftRight, Nat.shiftRight_eq_div_pow, shiftOperand_aliasState_toNat, hvf, pow_one]

/-- Settles O27: bit 7 of the source to VF, then twice the source as the alias order reads it. -/
theorem shlShiftsOutBitSeven : Obligations.ShlShiftsOutBitSeven := by
  refine ⟨encoded_shl, fun x y s flag hflag => ?_⟩
  have hvf : (boolByte (shiftedOutLeft (shiftOperand x y s))).toNat = flag := by
    rw [boolByte_shiftedOutLeft_toNat, shiftOperand_eq_shifted, hflag]
  refine exec_flag_then_result rfl hvf ?_
  rw [BitVec.toNat_shiftLeft, Nat.shiftLeft_eq, shiftOperand_aliasState_toNat, hvf, pow_one]

/-- Settles O28: the generator's law and its top byte; after state 0 the state is 1, whose top byte is 0 for every multiplier. -/
theorem rndAdvancesTheGenerator : Obligations.RndAdvancesTheGenerator := by
  refine ⟨encoded_rnd, rngMult_odd, fun x kk s => ⟨_, execRnd_eq x kk s, nextRng_toNat s.rngState, ?_, fun hzero => ⟨?_, ?_⟩,
    (Frame.setRng rfl s _).trans (Frame.setReg List.mem_cons_self _ _)⟩⟩
  · rw [State.setReg_reg_same, State.setReg_rngState, State.setRng_rngState, topByte_eq]
  · rw [State.setReg_rngState, State.setRng_rngState, hzero, nextRng_zero]
  · rw [State.setReg_reg_same, hzero, topByte_nextRng_zero, BitVec.zero_and]
    rfl

end Sys2Proof.Machine
end

section
/-! PROOFS. The statements about the index register and memory transfers (43_memory_index.md): the writes of I, the digit store, and
the register transfers. -/

namespace Sys2Proof.Machine

open Sys2Proof.Claims

/-! ## The writes of I (R160 to R162) -/

/-- I advances by a byte modulo 65536 (D16). -/
theorem add_byteWord_toNat (w : Word) (b : Byte) : (w + byteWord b).toNat = (w.toNat + b.toNat) % 65536 := by
  rw [BitVec.toNat_add, byteWord_toNat]

/-- A glyph's address is at most 0x54B, so 16 bits hold it (D17). -/
theorem glyphAddr_toNat (b : Byte) : (glyphAddr b).toNat = 0x050 + 5 * b.toNat := by
  have hlt : Config.fontBase + 5 * b.toNat < 65536 := by
    have := b.isLt
    simp only [Config.fontBase]
    omega
  rw [glyphAddr, BitVec.toNat_ofNat, Nat.mod_eq_of_lt hlt]

/-! ## The digit store (R163) -/

@[simp] theorem bcdDigits_length (b : Byte) : (bcdDigits b).length = 3 := rfl

/-- A byte is below 256, so a byte holds each of its digits. -/
theorem bcdDigits_toNat (b : Byte) : (bcdDigits b)[0].toNat = b.toNat / 100 ∧
    (bcdDigits b)[1].toNat = b.toNat / 10 % 10 ∧ (bcdDigits b)[2].toNat = b.toNat % 10 := by
  have := b.isLt
  refine ⟨?_, ?_, ?_⟩ <;> exact Nat.mod_eq_of_lt (by omega)

/-- The bytes of a digit store in numbers, inside a canonical memory. -/
theorem State.stored_bcdDigits_toNat {s : State} {a : Nat} (hwf : s.mem.wf = true) (ha : a + 2 ≤ 0xFFF) (b : Byte) :
    ((s.stored a (bcdDigits b)).byteAt a).toNat = b.toNat / 100 ∧
    ((s.stored a (bcdDigits b)).byteAt (a + 1)).toNat = b.toNat / 10 % 10 ∧
    ((s.stored a (bcdDigits b)).byteAt (a + 2)).toNat = b.toNat % 10 := by
  have hbyte := State.stored_byteAt (bcdDigits b) a s hwf (Nat.succ_le_succ ha)
  obtain ⟨hundreds, tens, ones⟩ := bcdDigits_toNat b
  exact ⟨(congrArg BitVec.toNat (hbyte 0 (by simp))).trans hundreds, (congrArg BitVec.toNat (hbyte 1 (by simp))).trans tens,
    (congrArg BitVec.toNat (hbyte 2 (by simp))).trans ones⟩

/-! ## The register transfers (R164, R165) -/

theorem State.advanceIndex_index (s : State) (x : Reg) : (s.advanceIndex x).index =
    if s.params.loadStoreIncrementsI then s.index + BitVec.ofNat 16 (x.val + 1) else s.index := by
  rw [State.advanceIndex_eq, State.setIndex_index]

@[simp] theorem State.advanceIndex_reg (s : State) (x q : Reg) : (s.advanceIndex x).reg q = s.reg q := by
  rw [State.advanceIndex_eq, State.setIndex_reg]

@[simp] theorem State.stored_index (s : State) (a : Nat) (bs : List Byte) : (s.stored a bs).index = s.index := by
  rw [State.stored_eq, State.setMem_index]

@[simp] theorem State.stored_params (s : State) (a : Nat) (bs : List Byte) : (s.stored a bs).params = s.params := by
  rw [State.stored_eq, State.setMem_params]

/-- A register loaded from `n` bytes of memory. -/
theorem State.loadRegs_range'_reg (s : State) (a : Nat) {n : Nat} {k : Reg} (hk : k.val < n) :
    (s.loadRegs ((List.range' a n).map s.byteAt)).reg k = s.byteAt (a + k.val) := by
  simp [State.loadRegs_reg, hk]

/-! ## The statements -/

/-- Settles O29: each of the three is one write of I. -/
theorem indexInstructions : Obligations.IndexInstructions := by
  refine ⟨encoded_ldI, encoded_addI, encoded_ldF, fun nnn x s => ⟨?_, ?_, ?_⟩⟩
  · exact ⟨_, rfl, zext16_toNat nnn, Frame.setIndex rfl s _⟩
  · exact ⟨_, rfl, add_byteWord_toNat s.index (s.reg x), Frame.setIndex rfl s _⟩
  · exact ⟨_, rfl, glyphAddr_toNat (s.reg x), Frame.setIndex rfl s _⟩

/-- Settles O30: the checked range is stored as a whole, or the check raises before the first byte. -/
theorem bcdStore : Obligations.BcdStore := by
  refine ⟨encoded_ldB, fun x s => ⟨fun hwf hin => ?_, execLdB_error x s⟩⟩
  have hexec := execLdB_ok x s hin
  obtain ⟨hundreds, tens, ones⟩ := State.stored_bcdDigits_toNat hwf hin (s.reg x)
  refine ⟨_, hexec, hundreds, tens, ones, exec_mem_wf (.ldB x) s _ hwf hexec, Frame.stored s _ _ fun q hlo hhi => ?_⟩
  exact List.mem_range'_1.2 ⟨hlo, hhi⟩

/-- Settles O31: the checked range is stored as a whole and I advanced, or the check raises before the first byte. -/
theorem registerDump : Obligations.RegisterDump := by
  refine ⟨encoded_stRegs, fun x s => ⟨fun hwf hin => ?_, execStRegs_error x s⟩⟩
  have hexec := execStRegs_ok x s hin
  refine ⟨_, hexec, fun k hk => execStRegs_mem_get hwf hin hexec hk, exec_mem_wf (.stRegs x) s _ hwf hexec, ?_,
    (Frame.stored s _ _ fun q hlo hhi => ?_).trans (Frame.advanceIndex _ x fun _ => rfl)⟩
  · rw [State.advanceIndex_index, State.stored_index, State.stored_params]
  · rw [State.regsTo_length] at hhi
    exact List.mem_range'_1.2 ⟨hlo, hhi⟩

/-- Settles O32: the checked range is loaded as a whole and I advanced, or the check raises before the first register. -/
theorem registerRestore : Obligations.RegisterRestore := by
  refine ⟨encoded_ldRegs, fun x s => ⟨fun hin => ?_, execLdRegs_error x s⟩⟩
  refine ⟨_, execLdRegs_ok x s hin, fun k hk => ?_, State.advanceIndex_index _ x,
    (Frame.loadRegs s _ fun r hr => ?_).trans (Frame.advanceIndex _ x fun _ => rfl)⟩
  · rw [State.advanceIndex_reg]
    exact s.loadRegs_range'_reg s.indexAddr (Nat.lt_succ_of_le hk)
  · have hrx : r.val < x.val + 1 := by simpa using hr
    exact List.mem_filter.2 ⟨List.mem_finRange r, decide_eq_true (Nat.le_of_lt_succ hrx)⟩

/-- Settles O33: the restore reads the bytes the dump left, in the memory and at the I they share. -/
theorem dumpThenRestore : Obligations.DumpThenRestore := by
  intro x s t u hwf hin hdump hmem hindex
  obtain ⟨-, restore⟩ := registerRestore
  obtain ⟨v, hexec, hload, -, hframe⟩ := (restore x u).1 (hindex ▸ hin)
  refine ⟨v, hexec, fun k hk => ?_, fun k hk => hframe.regs k (by simpa using hk)⟩
  calc v.reg k
    _ = u.byteAt (u.index.toNat + k.val) := hload k hk
    _ = t.mem.get (s.index.toNat + k.val) := by rw [State.byteAt, hmem, hindex]
    _ = s.reg k := execStRegs_mem_get hwf hin hdump hk

end Sys2Proof.Machine
end

section
/-! PROOFS. The statements about the display (44_display.md): CLS, the drawing of a sprite and its faults, drawing twice, and who
may write the frame buffer. -/

namespace Sys2Proof.Machine

open Sys2Proof.Claims

/-! ## The frame buffer (R28, R183, R184) -/

@[simp] theorem Video.clear_pixel (p : Pixel) : Video.clear.pixel p = false := by
  simp [Video.pixel, Video.clear]

/-- Targets that are distinct are toggled once each, and no other pixel is. -/
theorem xorPixels_pixel_of_nodup {ts : List Pixel} (hts : ts.Nodup) (v : Video) (b : Bool) (p : Pixel) :
    (xorPixels ts v b).1.pixel p = if p ∈ ts then !v.pixel p else v.pixel p := by
  rw [xorPixels_pixel, hts.count]
  split <;> simp

/-- Only CLS and DRW may change the frame buffer (R186). -/
theorem eq_cls_or_drw_of_changes_vid {i : Instr} {s : State} (h : (Instr.changes i s).vid = true) :
    (∃ m, i = .cls m) ∨ ∃ x y n, i = .drw x y n := by
  cases i with
  | cls m => exact Or.inl ⟨m, rfl⟩
  | drw x y n => exact Or.inr ⟨x, y, n, rfl⟩
  | _ => simp [Instr.changes] at h

/-! ## The set bits of a sprite, as the statements name them (R184, R185) -/

section Sprite
variable {x y : Reg} {n : Fin 16} {s : State}

theorem spriteBit_iff_mem_drawnBits {px py : Nat} : spriteBit s x y n px py ↔ (px, py) ∈ s.drawnBits x y n.val :=
  (s.mem_drawnBits x y n.val px py).symm

/-- A set bit raises exactly if it may not land: on the grid its flat index is below 2048. -/
theorem raisesAt_iff_not_bitPlaced {policy : OffscreenPolicy} {px py : Nat} :
    raisesAt policy px py ↔ ¬ bitPlaced policy px py := by
  cases policy with
  | fault | clip => simp [raisesAt, bitPlaced]
  | flat =>
    simp only [raisesAt, bitPlaced, reduceCtorEq, false_or, true_and]
    omega

/-- The pixels DRW toggles are those its set bits land on: on the grid, a flat index is one place. -/
theorem toggles_iff_landsOn {p : Pixel} :
    toggles s x y n p ↔ ∃ q ∈ s.drawnBits x y n.val, landsOn s.params.offscreen q p := by
  have onGrid (q : Nat × Nat) : q.2 * 64 + q.1 = p.2.val * 64 + p.1.val ∧ q.1 < 64 ∧ q.2 < 32 ↔ q = (p.1.val, p.2.val) := by
    rw [Prod.ext_iff]
    omega
  cases h : s.params.offscreen with
  | flat => simp [toggles, landsOn, h, spriteBit_iff_mem_drawnBits]
  | fault | clip => simp [toggles, landsOn, h, spriteBit_iff_mem_drawnBits, onGrid]

/-! ## The list T of DRW (R184) -/

/-- With the rows in memory and every set bit placed, T lists the toggled pixels, each once. -/
theorem spriteTargets_of_placed (hrows : rowsInMemory s n)
    (hplaced : ∀ px py, spriteBit s x y n px py → bitPlaced s.params.offscreen px py) :
    ∃ ts, spriteTargets x y n.val s = .ok ts ∧ (∀ p, p ∈ ts ↔ toggles s x y n p) ∧ ts.Nodup := by
  have hnone : ∀ px py, (px, py) ∈ s.drawnBits x y n.val → ¬ raisesAt s.params.offscreen px py := fun px py hm hr =>
    raisesAt_iff_not_bitPlaced.1 hr (hplaced px py (spriteBit_iff_mem_drawnBits.2 hm))
  obtain ⟨ts, hts, hmem, hnodup⟩ := targetPixels_ok s.params.offscreen (s.drawnBits x y n.val) hnone (spriteBits_flat _ _ _)
  exact ⟨ts, (spriteTargets_eq s x y n.val hrows).trans hts, fun p => (hmem p).trans toggles_iff_landsOn.symm, hnodup⟩

theorem spriteTargets_of_not_rowsInMemory (hrows : ¬ rowsInMemory s n) :
    spriteTargets x y n.val s = .error ⟨.memOutOfRange, max s.indexAddr 0x1000⟩ := by
  obtain ⟨hn, hlast⟩ := not_or.1 hrows
  rw [spriteTargets, spriteRows_error s n.val (Nat.pos_of_ne_zero hn) (Nat.not_le.1 hlast), except_error_bind]

/-- The first set bit in loop order that may not land decides the fault (R185, R225). -/
theorem spriteTargets_of_first_not_placed {px py : Nat} (hrows : rowsInMemory s n) (hbit : spriteBit s x y n px py)
    (hout : ¬ bitPlaced s.params.offscreen px py)
    (hfirst : ∀ qx qy : Nat, spriteBit s x y n qx qy → qy < py ∨ (qy = py ∧ qx < px) → bitPlaced s.params.offscreen qx qy) :
    spriteTargets x y n.val s = .error ⟨.spriteOffScreen, py * 64 + px⟩ := by
  rw [spriteTargets_eq s x y n.val hrows]
  refine targetPixels_error _ px py (raisesAt_iff_not_bitPlaced.2 hout) _ (spriteBit_iff_mem_drawnBits.1 hbit)
    (spriteBits_pairwise _ _ _) fun qx qy hm hbefore hr => ?_
  exact raisesAt_iff_not_bitPlaced.1 hr (hfirst qx qy (spriteBit_iff_mem_drawnBits.2 hm) hbefore)

/-! ## A DRW that completes -/

/-- `t` is `s` with the sprite of DRW x, y, n drawn: its pixels are toggled, VF is the collision, and nothing else changes (R184). -/
structure Drawn (x y : Reg) (n : Fin 16) (s t : State) : Prop where
  /-- The sprite's pixels. -/
  toggled : ∀ p, toggles s x y n p → t.vid.pixel p = !s.vid.pixel p
  /-- Every other pixel. -/
  kept : ∀ p, ¬ toggles s x y n p → t.vid.pixel p = s.vid.pixel p
  /-- A lit pixel was turned off. -/
  collided : (∃ p, toggles s x y n p ∧ s.vid.pixel p = true) → t.reg 0xF = 1
  /-- None was. -/
  missed : (¬ ∃ p, toggles s x y n p ∧ s.vid.pixel p = true) → t.reg 0xF = 0
  /-- Every other field. -/
  frame : Frame { regs := [0xF], vid := true } s t

/-- DRW draws if its rows are in memory and its set bits are placed. -/
theorem exec_drw_of_placed (hrows : rowsInMemory s n)
    (hplaced : ∀ px py, spriteBit s x y n px py → bitPlaced s.params.offscreen px py) :
    ∃ t, exec (.drw x y n) s = .next t ∧ Drawn x y n s t := by
  obtain ⟨ts, hts, hmem, hnodup⟩ := spriteTargets_of_placed hrows hplaced
  have hpixel (p : Pixel) := xorPixels_pixel_of_nodup hnodup s.vid false p
  have hcollide : (xorPixels ts s.vid false).2 = true ↔ ∃ p, toggles s x y n p ∧ s.vid.pixel p = true := by
    rw [xorPixels_collide ts s.vid false hnodup, Bool.false_or, List.any_eq_true]
    exact exists_congr fun p => and_congr_left' (hmem p)
  refine ⟨_, execDrw_ok x y n s ts hts, fun p hp => ?_, fun p hp => ?_, fun hlit => ?_, fun hlit => ?_,
    (Frame.setVid rfl s _).trans (Frame.setVf List.mem_cons_self _ _)⟩
  · exact (hpixel p).trans (if_pos ((hmem p).2 hp))
  · exact (hpixel p).trans (if_neg (mt (hmem p).1 hp))
  · rw [State.setVf_reg, if_pos rfl, hcollide.2 hlit]
    rfl
  · rw [State.setVf_reg, if_pos rfl, Bool.eq_false_iff.2 (mt hcollide.1 hlit)]
    rfl

end Sprite

/-! ## Drawing again at the same place (S8) -/

section Again
variable {x y : Reg} {n : Fin 16} {s t : State}

/-- A drawing that does not move its own anchor leaves the sprite's set bits where they were. -/
theorem Drawn.spriteBit_iff (h : Drawn x y n s t) (hx : x ≠ 0xF) (hy : y ≠ 0xF) (px py : Nat) :
    spriteBit t x y n px py ↔ spriteBit s x y n px py := by
  have hregx : t.reg x = s.reg x := h.frame.regs x (by simpa using hx)
  have hregy : t.reg y = s.reg y := h.frame.regs y (by simpa using hy)
  have hbyte (a : Nat) : t.byteAt a = s.byteAt a := h.frame.bytes a List.not_mem_nil
  simp only [spriteBit, hregx, hregy, hbyte, h.frame.index rfl]

theorem Drawn.toggles_iff (h : Drawn x y n s t) (hx : x ≠ 0xF) (hy : y ≠ 0xF) (p : Pixel) :
    toggles t x y n p ↔ toggles s x y n p := by
  simp only [toggles, h.frame.params, h.spriteBit_iff hx hy]

theorem Drawn.rowsInMemory (h : Drawn x y n s t) (hrows : rowsInMemory s n) : rowsInMemory t n := by
  simpa only [Claims.rowsInMemory, h.frame.index rfl] using hrows

theorem Drawn.bitPlaced (h : Drawn x y n s t) (hx : x ≠ 0xF) (hy : y ≠ 0xF)
    (hplaced : ∀ px py, spriteBit s x y n px py → bitPlaced s.params.offscreen px py) (px py : Nat)
    (hbit : spriteBit t x y n px py) : bitPlaced t.params.offscreen px py :=
  h.frame.params ▸ hplaced px py ((h.spriteBit_iff hx hy px py).1 hbit)

/-- Toggled twice, a pixel is as it was. -/
theorem Drawn.vid_restored {u : State} (h : Drawn x y n s t) (hu : Drawn x y n t u) (hx : x ≠ 0xF) (hy : y ≠ 0xF) :
    u.vid = s.vid := by
  refine Video.ext_pixel fun p => ?_
  have hsame := h.toggles_iff hx hy p
  by_cases hp : toggles s x y n p
  · rw [hu.toggled p (hsame.2 hp), h.toggled p hp, Bool.not_not]
  · rw [hu.kept p (mt hsame.1 hp), h.kept p hp]

/-- A pixel of the sprite is lit after the drawing exactly if one was unlit before it. -/
theorem Drawn.exists_lit_iff (h : Drawn x y n s t) (hx : x ≠ 0xF) (hy : y ≠ 0xF) :
    (∃ p, toggles t x y n p ∧ t.vid.pixel p = true) ↔ ∃ p, toggles s x y n p ∧ s.vid.pixel p = false := by
  refine exists_congr fun p => ?_
  rw [h.toggles_iff hx hy]
  exact and_congr_right fun hp => by rw [h.toggled p hp, Bool.not_eq_true']

end Again

/-! ## The statements -/

/-- Settles O37: CLS is one write of the frame buffer. -/
theorem clsClearsTheScreen : Obligations.ClsClearsTheScreen :=
  ⟨encoded_cls, fun _ s => ⟨s.setVid Video.clear, rfl, Video.clear_pixel, Frame.setVid rfl s _⟩⟩

/-- Settles O38, by the list T: the toggled pixels, each once, or the fault of the row check or of the first bit that raises. -/
theorem drwDrawsOrFaults : Obligations.DrwDrawsOrFaults := by
  refine ⟨encoded_drw, fun x y n s => ⟨fun hrows hplaced => ?_, fun hrows => ?_, fun px py hrows hbit hout hfirst => ?_⟩⟩
  · obtain ⟨t, hexec, h⟩ := exec_drw_of_placed hrows hplaced
    exact ⟨t, hexec, fun p => ⟨h.toggled p, h.kept p⟩, h.collided, h.missed, h.frame⟩
  · exact execDrw_error x y n s _ (spriteTargets_of_not_rowsInMemory hrows)
  · exact execDrw_error x y n s _ (spriteTargets_of_first_not_placed hrows hbit hout hfirst)

/-- Settles O39: neither register of the anchor is VF, so the first draw leaves the second the same pixels to toggle. -/
theorem drawingTwiceRestores : Obligations.DrawingTwiceRestores := by
  intro x y n s hx hy hrows hplaced
  obtain ⟨t, hfirst, ht⟩ := exec_drw_of_placed hrows hplaced
  obtain ⟨u, hsecond, hu⟩ := exec_drw_of_placed (ht.rowsInMemory hrows) (ht.bitPlaced hx hy hplaced)
  have hlit := ht.exists_lit_iff hx hy
  exact ⟨t, u, hfirst, hsecond, ht.vid_restored hu hx hy, fun h => hu.collided (hlit.2 h), fun h => hu.missed (mt hlit.1 h)⟩

/-- Settles O47, by the frame of a step: only CLS's and DRW's list the frame buffer. -/
theorem videoChangesOnlyByClsAndDrw : Obligations.VideoChangesOnlyByClsAndDrw := by
  intro s t h hne
  refine eq_cls_or_drw_of_changes_vid (s := s) (Bool.of_not_eq_false fun hvid => hne ?_)
  exact (step_stepFrame h).vid hvid

end Sys2Proof.Machine
end

section
/-! PROOFS. The statements about the keypad and the timers (45_input_timers.md): the key skips, the key wait, alone and through a run
under the host's keypads, and the timer transfers. -/

namespace Sys2Proof.Machine

open Sys2Proof.Claims

/-! ## The key skips (R200, R201) -/

theorem State.skipIf_not_pc (s : State) (c : Bool) : (s.skipIf !c).pc = if c then s.pc else s.pc + 2 := by
  cases c <;> rfl

/-- A key skip whose register names a key tests that key, in either sense. -/
theorem keySkip_of_key {s : State} {x : Reg} {k : Fin 16} (hk : (s.reg x).toNat = k.val) (cond : Fin 16 → Bool) :
    settle s (do let k ← keyNumber (s.reg x); .ok (s.skipIf (cond k))) = .next (s.skipIf (cond k)) := by
  rw [keyNumber_ok _ k hk, except_ok_bind, settle_ok]

/-- A key skip whose register names no key raises before it tests anything (D9). -/
theorem keySkip_of_no_key {s : State} {x : Reg} (hx : 0xF < (s.reg x).toNat) (cond : Fin 16 → Bool) :
    settle s (do let k ← keyNumber (s.reg x); .ok (s.skipIf (cond k))) =
      .next (s.raise ⟨.keyIndexOutOfRange, (s.reg x).toNat⟩) := by
  rw [keyNumber_error _ hx, except_error_bind, settle_error]

/-! ## The key wait (R203) -/

theorem execLdVK_of_lowest {s : State} {k : Fin 16} (x : Reg) (hk : s.keys[k] = true) (hmin : ∀ j : Fin 16, j < k → s.keys[j] = false) :
    execLdVK x s = .next (s.setReg x (BitVec.ofNat 8 k.val)) := by
  simp only [execLdVK, s.lowestKey_some k hk hmin]

theorem execLdVK_of_no_key {s : State} (x : Reg) (hup : ∀ k : Fin 16, s.keys[k] = false) :
    execLdVK x s = .next (s.setPc (s.pc - 2)) := by
  simp only [execLdVK, s.lowestKey_none hup]

/-- A key number is below 16, so a byte holds it. -/
theorem keyByte_toNat (k : Fin 16) : (BitVec.ofNat 8 k.val).toNat = k.val :=
  Nat.mod_eq_of_lt (Nat.lt_trans k.isLt (by decide))

section Wait
variable {s : State} {x : Reg} (hf : s.fault = none) (hpc : s.pc.toNat ≤ 0xFFE) (hi : fetched s = .ldVK x)
include hf hpc hi

/-- THE WAITING STEP. It takes back the advance of pc, so it latches the word and ticks the timers, and does nothing else (R203, R95). -/
theorem step_ldVK_of_no_key (hup : ∀ k : Fin 16, s.keys[k] = false) : step s = .next (s.setOp s.fetchWord).tickTimers := by
  have hrewind : s.beginCycle.setPc (s.beginCycle.pc - 2) = s.setOp s.fetchWord := by
    rw [State.beginCycle_pc, BitVec.add_sub_cancel]
    rfl
  have he : exec (fetched s) s.beginCycle = .next (s.setOp s.fetchWord) := by
    rw [hi, ← hrewind]
    exact execLdVK_of_no_key (s := s.beginCycle) x hup
  exact step_of_exec_fault_none hf hpc he hf

/-- The step that ends the wait stores the lowest key and goes on (R203). -/
theorem step_ldVK_of_lowest {k : Fin 16} (hk : s.keys[k] = true) (hmin : ∀ j : Fin 16, j < k → s.keys[j] = false) :
    step s = .next (s.beginCycle.setReg x (BitVec.ofNat 8 k.val)).tickTimers := by
  have he : exec (fetched s) s.beginCycle = .next (s.beginCycle.setReg x (BitVec.ofNat 8 k.val)) := by
    rw [hi]
    exact execLdVK_of_lowest (s := s.beginCycle) x hk hmin
  exact step_of_exec_fault_none hf hpc he hf

end Wait

/-! ## Runs under the host's keypads (R230) -/

/-- A run under keypads is a step with the first keypad, and the run under the others. -/
theorem reaches_keypads_cons (keys : Vector Bool 16) (rest : List (Vector Bool 16)) (s t : State) :
    reaches (keypads (keys :: rest)) s t ↔
      ∃ v, step { s with keys := keys } = .next v ∧ reaches (keypads rest) v t := by
  rw [keypads, List.map_cons, reaches_cons]
  simp [hostMoves, hostAct, keypads]

theorem tick_eq_ofNat (b : Byte) : tick b = BitVec.ofNat 8 (b.toNat - 1) := by
  rw [← tick_toNat, BitVec.ofNat_toNat, BitVec.setWidth_eq]

/-- A tick, and `n` more. -/
theorem tick_toNat_sub (b : Byte) (n : Nat) : (tick b).toNat - n = b.toNat - (n + 1) := by
  rw [tick_toNat]
  omega

/-! ## The tone (R245) -/

theorem outputs_soundOn_iff (s : State) : (outputs s).soundOn = true ↔ 0 < s.st.toNat := by
  rw [outputs, bne_iff_ne, Nat.pos_iff_ne_zero, ne_eq, ne_eq, ← BitVec.toNat_inj]
  rfl

/-! ## The statements -/

/-- Settles O40: both are skips on the key Vx names, in the two senses. -/
theorem keySkips : Obligations.KeySkips := by
  refine ⟨encoded_skp, encoded_sknp, fun x m s => ⟨fun k hk => ⟨?_, ?_⟩, fun hx => ⟨?_, ?_⟩⟩⟩
  · exact ⟨_, keySkip_of_key hk fun k => s.keys[k], s.skipIf_pc _, Frame.skipIf rfl s _⟩
  · exact ⟨_, keySkip_of_key hk fun k => !s.keys[k], s.skipIf_not_pc _, Frame.skipIf rfl s _⟩
  · exact keySkip_of_no_key hx fun k => s.keys[k]
  · exact keySkip_of_no_key hx fun k => !s.keys[k]

/-- Settles O41, by whether a key is down. -/
theorem waitForKey : Obligations.WaitForKey := by
  refine ⟨encoded_ldVK, fun x k s hk hmin => ?_, fun x s hup => ?_, fun x s hf hpc hi hup => ?_⟩
  · refine ⟨_, execLdVK_of_lowest x hk hmin, ?_, Frame.setReg (List.mem_singleton_self x) s _⟩
    rw [State.setReg_reg_same, keyByte_toNat]
  · exact ⟨_, execLdVK_of_no_key x hup, rfl, Frame.setPc rfl s _⟩
  · exact ⟨_, step_ldVK_of_no_key hf hpc hi hup, rfl, hf, fun _ => rfl, tick_toNat s.dt, tick_toNat s.st⟩

/-- Settles O42: each is one write, and the step's tick comes after it. -/
theorem timerTransfers : Obligations.TimerTransfers := by
  refine ⟨encoded_ldVDt, encoded_ldDtV, encoded_ldStV, fun x s => ⟨?_, ?_, ?_, fun hf hpc => ?_⟩⟩
  · exact ⟨_, rfl, s.setReg_reg_same x s.dt, Frame.setReg (List.mem_singleton_self x) s _⟩
  · exact ⟨_, rfl, rfl, Frame.setDt rfl s _⟩
  · exact ⟨_, rfl, rfl, Frame.setSt rfl s _⟩
  have step_of {i : Instr} {u : State} (hi : fetched s = i) (he : exec i s.beginCycle = .next u) (hu : u.fault = none) :
      step s = .next u.tickTimers := step_of_exec_fault_none hf hpc (hi ▸ he) hu
  refine ⟨fun hi => ?_, fun hi => ?_, fun hi => ?_⟩
  · exact ⟨_, step_of hi rfl hf, s.beginCycle.setReg_reg_same x s.dt, tick_toNat s.dt⟩
  · exact ⟨_, step_of hi rfl hf, tick_toNat (s.reg x)⟩
  · have hst := tick_toNat (s.reg x)
    refine ⟨_, step_of hi rfl hf, hst, (outputs_soundOn_iff _).trans ?_⟩
    exact hst ▸ Nat.sub_pos_iff_lt

/-- Settles O58, by induction on the number of waiting steps: each leaves the state the wait began in, but for the keypad, the latched
word and one tick, so the word at pc is fetched again. -/
theorem keyWaitTakesTheKeypadOfItsStep : Obligations.KeyWaitTakesTheKeypadOfItsStep := by
  intro x k keys n
  induction n with
  | zero =>
    intro s hf hpc hi hk hmin
    rw [List.replicate_zero, List.nil_append, reaches_keypads_cons]
    refine ⟨_, step_ldVK_of_lowest (s := { s with keys := keys }) hf hpc hi hk hmin, (reaches_nil _ _).2 ?_⟩
    rw [Nat.zero_add, ← tick_eq_ofNat, ← tick_eq_ofNat]
    rfl
  | succ n ih =>
    intro s hf hpc hi hk hmin
    rw [List.replicate_succ, List.cons_append, reaches_keypads_cons]
    refine ⟨_, step_ldVK_of_no_key (s := { s with keys := Vector.replicate 16 false }) hf hpc hi reset_keys_getElem, ?_⟩
    rw [← tick_toNat_sub s.dt, ← tick_toNat_sub s.st]
    exact ih _ hf hpc hi hk hmin

end Sys2Proof.Machine
end

section
/-! PROOFS. The statements about faults and the keypad (60_exceptions.md): the steps that raise, the state a fault leaves, the runs of
a faulted core, and the steps that do not read the keypad. -/

namespace Sys2Proof.Machine

open Sys2Proof.Claims

/-! ## What DRW raises, in the words of the statements (R184, R185) -/

theorem Instr.mayRaise_drw_iff {x y : Reg} {n : Fin 16} {s : State} {r : Raise} :
    Instr.mayRaise (.drw x y n) s r ↔
      (¬ rowsInMemory s n ∧ r = ⟨.memOutOfRange, max s.indexAddr 0x1000⟩) ∨
      (rowsInMemory s n ∧ ∃ px py, spriteBit s x y n px py ∧ ¬ bitPlaced s.params.offscreen px py ∧
        r = ⟨.spriteOffScreen, py * 64 + px⟩) := by
  simp only [spriteBit_iff_mem_drawnBits, ← raisesAt_iff_not_bitPlaced]
  by_cases hrows : rowsInMemory s n
  · exact (iff_of_eq (if_pos hrows)).trans (by simp [hrows])
  · exact (iff_of_eq (if_neg hrows)).trans (by simp [hrows])

/-! ## The condition of a fault is sufficient (R221) -/

/-- DRW raises SPRITE_OFF_SCREEN if one of its set bits does, whichever is first (R185). -/
theorem exec_drw_of_not_bitPlaced {x y : Reg} {n : Fin 16} {s : State} {px py : Nat} (hrows : rowsInMemory s n)
    (hbit : spriteBit s x y n px py) (hout : ¬ bitPlaced s.params.offscreen px py) :
    ∃ info, exec (.drw x y n) s = .next (s.raise ⟨.spriteOffScreen, info⟩) := by
  have htargets := spriteTargets_eq s x y n.val hrows
  rcases targetPixels_cases s.params.offscreen (s.drawnBits x y n.val) with ⟨ts, hts⟩ | ⟨qx, qy, -, -, herr⟩
  · have hnone := not_raisesAt_of_targetPixels_ok _ _ ts hts px py (spriteBit_iff_mem_drawnBits.1 hbit)
    exact absurd (raisesAt_iff_not_bitPlaced.2 hout) hnone
  · exact ⟨_, execDrw_error x y n s _ (htargets.trans herr)⟩

/-- An instruction whose rule's condition for a fault holds raises a fault of that code. -/
theorem exec_of_mayRaise {i : Instr} {s : State} {r : Raise} (h : Instr.mayRaise i s r) :
    ∃ info, exec i s = .next (s.raise ⟨r.code, info⟩) := by
  cases i with
  | ret => obtain ⟨hsp, rfl⟩ := h; exact ⟨_, execRet_of_sp_zero hsp⟩
  | call nnn => obtain ⟨hsp, rfl⟩ := h; exact ⟨_, execCall_of_sp_full nnn hsp⟩
  | skp x => obtain ⟨hx, rfl⟩ := h; exact ⟨_, keySkip_of_no_key hx fun k => s.keys[k]⟩
  | sknp x => obtain ⟨hx, rfl⟩ := h; exact ⟨_, keySkip_of_no_key hx fun k => !s.keys[k]⟩
  | ldB x => obtain ⟨hx, rfl⟩ := h; exact ⟨_, execLdB_error x s hx⟩
  | stRegs x => obtain ⟨hx, rfl⟩ := h; exact ⟨_, execStRegs_error x s hx⟩
  | ldRegs x => obtain ⟨hx, rfl⟩ := h; exact ⟨_, execLdRegs_error x s hx⟩
  | drw x y n =>
    rcases Instr.mayRaise_drw_iff.1 h with ⟨hrows, rfl⟩ | ⟨hrows, px, py, hbit, hout, rfl⟩
    · exact ⟨_, execDrw_error x y n s _ (spriteTargets_of_not_rowsInMemory hrows)⟩
    · exact exec_drw_of_not_bitPlaced hrows hbit hout
  | _ => exact h.elim

/-! ## The steps that fault -/

/-- A step of a running core takes the fetch fault, takes the fault its instruction raised under its rule's condition, or leaves no
fault record. -/
theorem step_fault_cases {s t : State} (hf : s.fault = none) (h : step s = .next t) :
    (0xFFE < s.pc.toNat ∧ t = s.fetchFault) ∨
    (s.pc.toNat ≤ 0xFFE ∧ ∃ r, Instr.mayRaise (fetched s) s r ∧
      t = s.enterFault ⟨r.code, s.pc, some s.fetchWord, r.info⟩) ∨
    t.fault = none := by
  have eq_of {v : State} (hv : step s = .next v) : t = v := by simpa [hv] using h.symm
  rcases step_frame s with ⟨hne, -⟩ | ⟨-, hc, hs⟩ | ⟨-, hc, r, hr, hs⟩ | ⟨-, -, u, -, hu, hs⟩
  · exact absurd hf hne
  · have hpc : 0xFFE < s.pc.toNat := Nat.lt_of_not_le fun hle => by simp [(State.canFetch_iff s).2 hle] at hc
    exact Or.inl ⟨hpc, eq_of hs⟩
  · exact Or.inr (Or.inl ⟨(State.canFetch_iff s).1 hc, r, (Instr.mayRaise_beginCycle _ s r).1 hr, eq_of hs⟩)
  · exact Or.inr (Or.inr (eq_of hs ▸ hu.fault.trans hf))

/-- A step whose instruction meets its rule's condition for a fault ends with a fault of that code. -/
theorem step_faultedWith {s t : State} {r : Raise} (hf : s.fault = none) (hpc : s.pc.toNat ≤ 0xFFE)
    (h : step s = .next t) (hr : Instr.mayRaise (fetched s) s r) : faultedWith t r.code := by
  obtain ⟨info, he⟩ := exec_of_mayRaise ((Instr.mayRaise_beginCycle _ s r).2 hr)
  have ht : endCycle s (s.beginCycle.raise ⟨r.code, info⟩) = t := by
    simpa [step_of_exec s _ hf ((State.canFetch_iff s).2 hpc) he] using h
  subst ht
  exact ⟨_, rfl, rfl⟩

/-- Only the fetch raises FETCH_OUT_OF_RANGE (R221). -/
theorem Instr.mayRaise_code_ne_fetch {i : Instr} {s : State} {r : Raise} (h : Instr.mayRaise i s r) :
    r.code ≠ .fetchOutOfRange := by
  obtain ⟨-, hfop, -⟩ := Instr.mayRaise_sound h s.fetchWord
  exact fun hcode => Option.some_ne_none _ (hfop.2 hcode)

/-! ## Runs of a faulted core (R90, R224) -/

theorem step_of_faulted {s : State} (hf : s.fault ≠ none) : step s = .next s :=
  if_pos (Option.isSome_iff_ne_none.2 hf)

theorem hostMoves_append {first second : List HostAction} {s t : State} :
    hostMoves (first ++ second) s = .ok t ↔ ∃ u, hostMoves first s = .ok u ∧ hostMoves second u = .ok t := by
  induction first generalizing s with
  | nil => simp [hostMoves]
  | cons a rest ih =>
    rw [List.cons_append, hostMoves, hostMoves]
    cases hostAct a s with
    | ok u => exact ih
    | error r => simp

/-- A run of a faulted core is the host's moves and nothing else: no step does anything. -/
theorem hostMoves_flatten_of_faulted : ∀ {h : Schedule} {s t : State}, s.fault ≠ none → h.allowed → reaches h s t →
    hostMoves h.flatten s = .ok t
  | [], s, t, _, _, hr => congrArg Except.ok ((reaches_nil s t).1 hr).symm
  | moves :: rest, s, t, hf, hallowed, hr => by
    obtain ⟨hmoves, hrest⟩ := List.forall_mem_cons.1 hallowed
    obtain ⟨u, v, hu, hv, hr⟩ := (reaches_cons moves rest s t).1 hr
    have hfu : u.fault ≠ none := by
      obtain ⟨u', hu', heq⟩ := hostMoves_inRun moves s hmoves
      obtain rfl : u' = u := Except.ok.inj (hu'.symm.trans hu)
      exact heq ▸ hf
    obtain rfl : u = v := by simpa [step_of_faulted hfu] using hv
    exact hostMoves_append.2 ⟨u, hu, hostMoves_flatten_of_faulted hfu hrest hr⟩

/-- A run of a faulted core keeps every field but the keypad and the generator, the fault record with them. -/
theorem reaches_eq_of_faulted {h : Schedule} {s t : State} (hf : s.fault ≠ none) (hallowed : h.allowed)
    (hr : reaches h s t) : t = { s with keys := t.keys, rngState := t.rngState } := by
  have hmoves : ∀ a ∈ h.flatten, a.inRun = true := fun a ha => by
    obtain ⟨moves, hm, ha⟩ := List.mem_flatten.1 ha
    exact hallowed moves hm a ha
  obtain ⟨u, hu, heq⟩ := hostMoves_inRun h.flatten s hmoves
  obtain rfl : u = t := Except.ok.inj (hu.symm.trans (hostMoves_flatten_of_faulted hf hallowed hr))
  exact heq

/-- A run from a faulted core has no good end (R224). -/
theorem not_endsAfter_of_faulted {h : Schedule} {s t : State} (hf : s.fault ≠ none) : ¬ endsAfter h s t := by
  rintro ⟨hallowed, hr, hrunning⟩
  have hfault : t.fault = s.fault := by rw [reaches_eq_of_faulted hf hallowed hr]
  exact hf (hfault.symm.trans hrunning)

/-! ## Another keypad (R230)

Every operation but the key instructions' own commutes with presenting another keypad. -/

/-- The state with another keypad: the host's keypad write (R27, R245). -/
def State.setKeys (s : State) (keys : Vector Bool 16) : State := { s with keys := keys }

section Keypad
variable (s : State) (keys : Vector Bool 16)

theorem hostAct_setKeys : hostAct (.setKeys keys) s = .ok (s.setKeys keys) := rfl

theorem State.setKeys_skipIf (c : Bool) : (s.setKeys keys).skipIf c = (s.skipIf c).setKeys keys := by
  cases c <;> rfl

theorem State.setKeys_logicFlag : (s.setKeys keys).logicFlag = s.logicFlag.setKeys keys := by
  rw [State.logicFlag_eq s]
  split
  · next h => exact if_pos h
  · next h => exact if_neg h

theorem State.setKeys_advanceIndex (x : Reg) : (s.setKeys keys).advanceIndex x = (s.advanceIndex x).setKeys keys := by
  rw [State.advanceIndex_eq, State.advanceIndex_eq]
  rfl

theorem State.setKeys_stored (a : Nat) (bs : List Byte) : (s.setKeys keys).stored a bs = (s.stored a bs).setKeys keys := by
  induction bs generalizing a s with
  | nil => rfl
  | cons b bs ih => exact ih (s.setByte a b) (a + 1)

theorem State.setKeys_setVf (b : Bool) : (s.setKeys keys).setVf b = (s.setVf b).setKeys keys := rfl

theorem setKeys_aliasState (t : State) :
    aliasState (s.setKeys keys) (t.setKeys keys) = (aliasState s t).setKeys keys := by
  unfold aliasState
  cases h : s.params.aliasOrder <;> simp [State.setKeys, h]

theorem setKeys_shiftOperand (x y : Reg) : shiftOperand x y (s.setKeys keys) = shiftOperand x y s := by
  rw [shiftOperand_eq, shiftOperand_eq]
  rfl

theorem setKeys_spriteTargets (x y : Reg) (n : Fin 16) :
    spriteTargets x y n.val (s.setKeys keys) = spriteTargets x y n.val s := by
  by_cases hrows : rowsInMemory s n
  · rw [spriteTargets_eq s x y n.val hrows]
    exact spriteTargets_eq (s.setKeys keys) x y n.val hrows
  · rw [spriteTargets_of_not_rowsInMemory hrows]
    exact spriteTargets_of_not_rowsInMemory (s := s.setKeys keys) hrows

theorem setKeys_endCycle (u : State) :
    endCycle (s.setKeys keys) (u.setKeys keys) = (endCycle s u).setKeys keys := by
  cases h : u.fault with
  | none => rw [endCycle_of_none s u h]; exact endCycle_of_none _ (u.setKeys keys) h
  | some f => rw [endCycle_of_some s u f h]; exact endCycle_of_some _ (u.setKeys keys) f h

/-- An instruction that is no key instruction does the same with another keypad (R230). -/
theorem exec_setKeys {i : Instr} (hskp : ∀ x m, i ≠ .skp x m) (hsknp : ∀ x m, i ≠ .sknp x m) (hldVK : ∀ x, i ≠ .ldVK x) :
    ∃ u, exec i s = .next u ∧ exec i (s.setKeys keys) = .next (u.setKeys keys) := by
  cases i with
  | skp x m => exact absurd rfl (hskp x m)
  | sknp x m => exact absurd rfl (hsknp x m)
  | ldVK x => exact absurd rfl (hldVK x)
  | cls | jp | jpV0 | ldK | addK | ldR | addR | ldI | rnd | ldVDt | ldDtV | ldStV | addI | ldF | nop => exact ⟨_, rfl, rfl⟩
  | seK | sneK | seR | sneR => exact ⟨_, rfl, congrArg Host.Outcome.next (s.setKeys_skipIf keys _)⟩
  | orR | andR | xorR => exact ⟨_, rfl, congrArg Host.Outcome.next (State.setKeys_logicFlag (s.setReg _ _) keys)⟩
  | sub | subn | shr | shl =>
    refine ⟨_, rfl, ?_⟩
    simp only [exec, execSub, execSubn, execShr, execShl, setKeys_shiftOperand, State.setKeys_setVf, setKeys_aliasState]
    rfl
  | ret =>
    by_cases hsp : s.sp.val = 0
    · exact ⟨_, execRet_of_sp_zero hsp, execRet_of_sp_zero (s := s.setKeys keys) hsp⟩
    · exact ⟨_, execRet_of_sp_ne_zero hsp, execRet_of_sp_ne_zero (s := s.setKeys keys) hsp⟩
  | call nnn =>
    by_cases room : s.sp.val < Config.stackDepth
    · exact ⟨_, execCall_of_room nnn room, execCall_of_room (s := s.setKeys keys) nnn room⟩
    · exact ⟨_, dif_neg room, dif_neg room⟩
  | ldB x =>
    by_cases hx : s.indexAddr + 2 ≤ 0xFFF
    · refine ⟨_, execLdB_ok x s hx, (execLdB_ok x (s.setKeys keys) hx).trans ?_⟩
      exact congrArg Host.Outcome.next (s.setKeys_stored keys _ _)
    · exact ⟨_, execLdB_error x s (Nat.not_le.1 hx), execLdB_error x (s.setKeys keys) (Nat.not_le.1 hx)⟩
  | stRegs x =>
    by_cases hx : s.indexAddr + x.val ≤ 0xFFF
    · refine ⟨_, execStRegs_ok x s hx, (execStRegs_ok x (s.setKeys keys) hx).trans ?_⟩
      rw [State.setKeys_stored, State.setKeys_advanceIndex]
      rfl
    · exact ⟨_, execStRegs_error x s (Nat.not_le.1 hx), execStRegs_error x (s.setKeys keys) (Nat.not_le.1 hx)⟩
  | ldRegs x =>
    by_cases hx : s.indexAddr + x.val ≤ 0xFFF
    · refine ⟨_, execLdRegs_ok x s hx, (execLdRegs_ok x (s.setKeys keys) hx).trans ?_⟩
      exact congrArg Host.Outcome.next (State.setKeys_advanceIndex (s.loadRegs _) keys x)
    · exact ⟨_, execLdRegs_error x s (Nat.not_le.1 hx), execLdRegs_error x (s.setKeys keys) (Nat.not_le.1 hx)⟩
  | drw x y n =>
    have hsame := setKeys_spriteTargets s keys x y n
    cases hts : spriteTargets x y n.val s with
    | ok ts => exact ⟨_, execDrw_ok x y n s ts hts, execDrw_ok x y n (s.setKeys keys) ts (hsame.trans hts)⟩
    | error r => exact ⟨_, execDrw_error x y n s r hts, execDrw_error x y n (s.setKeys keys) r (hsame.trans hts)⟩

/-- A step whose instruction is no key instruction does the same with another keypad. -/
theorem step_setKeys (hskp : ∀ x m, fetched s ≠ .skp x m) (hsknp : ∀ x m, fetched s ≠ .sknp x m)
    (hldVK : ∀ x, fetched s ≠ .ldVK x) :
    ∃ t, step s = .next t ∧ step (s.setKeys keys) = .next (t.setKeys keys) := by
  by_cases hf : s.fault = none
  · by_cases hpc : s.pc.toNat ≤ 0xFFE
    · have hc : s.canFetch = true := (State.canFetch_iff s).2 hpc
      obtain ⟨u, hu, hu'⟩ := exec_setKeys s.beginCycle keys hskp hsknp hldVK
      refine ⟨_, step_of_exec s u hf hc hu, ?_⟩
      rw [← setKeys_endCycle]
      exact step_of_exec (s.setKeys keys) (u.setKeys keys) hf hc hu'
    · have hout : 0xFFE < s.pc.toNat := Nat.not_le.1 hpc
      exact ⟨_, step_of_pc_out_of_range hf hout, step_of_pc_out_of_range (s := s.setKeys keys) hf hout⟩
  · exact ⟨s, step_of_faulted hf, step_of_faulted (s := s.setKeys keys) hf⟩

end Keypad

/-! ## The statements -/

/-- Settles O9: a run of a faulted core is the host's moves alone, and the moves within a run keep the fault record. -/
theorem faultIsSticky : Obligations.FaultIsSticky := by
  refine ⟨fun s => step_of_faulted, fun a s t ha hne => ?_, fun s t ha => ?_, fun h s t idle hf hallowed hr => ?_⟩
  · rw [hostAct_eq a s t hne ha]
  · obtain rfl : s.create = t := Except.ok.inj ha
    rw [State.create_eq]
    rfl
  have hmoves := hostMoves_flatten_of_faulted hf hallowed hr
  refine ⟨reaches_eq_of_faulted hf hallowed hr, fun hnil => ?_, not_endsAfter_of_faulted hf, fun hend => ?_, fun hsafe => ?_⟩
  · rw [hnil] at hmoves
    exact (Except.ok.inj hmoves).symm
  · obtain ⟨hafter, -⟩ := hend
    exact not_endsAfter_of_faulted hf hafter
  · obtain ⟨u, hafter⟩ := hsafe h hallowed rfl
    exact not_endsAfter_of_faulted hf hafter

/-- Settles O11: both kinds of fault are an entry on the state of the start of the step, and an instruction's is never the fetch's. -/
theorem faultEntryIsPrecise : Obligations.FaultEntryIsPrecise := by
  intro s t f hf h hfault
  rcases step_fault_cases hf h with ⟨-, rfl⟩ | ⟨-, r, hr, rfl⟩ | hnone
  · cases hfault
    exact ⟨rfl, rfl, rfl⟩
  · cases hfault
    exact ⟨rfl, rfl, (if_neg (Instr.mayRaise_code_ne_fetch hr)).symm⟩
  · cases hnone.symm.trans hfault

/-- Settles O12: a fault is the fetch's or one its instruction's rule gives the condition of, and each condition suffices. -/
theorem faultsAreThoseOfTheTable : Obligations.FaultsAreThoseOfTheTable := by
  intro s t hf h
  refine ⟨fun f hfault => ?_, fun hpc => ?_, fun hpc => ?_⟩
  · rcases step_fault_cases hf h with ⟨hpc, rfl⟩ | ⟨hpc, r, hr, rfl⟩ | hnone
    · cases hfault
      exact ⟨hpc, rfl⟩
    · cases hfault
      generalize fetched s = i at hr ⊢
      cases i with
      | ret m => obtain ⟨hsp, rfl⟩ := hr; exact ⟨hpc, ⟨m, rfl⟩, hsp, rfl⟩
      | call nnn => obtain ⟨hsp, rfl⟩ := hr; exact ⟨hpc, ⟨nnn, rfl⟩, hsp, rfl⟩
      | skp x m => obtain ⟨hx, rfl⟩ := hr; exact ⟨hpc, x, m, Or.inl rfl, hx, rfl⟩
      | sknp x m => obtain ⟨hx, rfl⟩ := hr; exact ⟨hpc, x, m, Or.inr rfl, hx, rfl⟩
      | ldB x => obtain ⟨hx, rfl⟩ := hr; exact ⟨hpc, rfl, Or.inr (Or.inl ⟨x, rfl, hx⟩)⟩
      | stRegs x => obtain ⟨hx, rfl⟩ := hr; exact ⟨hpc, rfl, Or.inr (Or.inr ⟨x, Or.inl rfl, hx⟩)⟩
      | ldRegs x => obtain ⟨hx, rfl⟩ := hr; exact ⟨hpc, rfl, Or.inr (Or.inr ⟨x, Or.inr rfl, hx⟩)⟩
      | drw x y n =>
        rcases Instr.mayRaise_drw_iff.1 hr with ⟨hrows, rfl⟩ | ⟨hrows, px, py, hbit, hout, rfl⟩
        · exact ⟨hpc, rfl, Or.inl ⟨x, y, n, rfl, hrows⟩⟩
        · exact ⟨hpc, x, y, n, px, py, rfl, hrows, hbit, hout, rfl⟩
      | _ => exact hr.elim
    · cases hnone.symm.trans hfault
  · obtain rfl : s.fetchFault = t := by simpa [step_of_pc_out_of_range hf hpc] using h
    exact ⟨_, rfl, rfl⟩
  · have raises {r : Raise} {i : Instr} (hi : fetched s = i) (hr : Instr.mayRaise i s r) : faultedWith t r.code :=
      step_faultedWith hf hpc h (hi ▸ hr)
    refine ⟨fun x y n hi hrows => ?_, fun x hi hx => ?_, fun x hi hx => ?_, fun nnn hi hsp => ?_, fun m hi hsp => ?_,
      fun x m hi hx => ?_, fun x y n px py hi hrows hbit hout => ?_⟩
    · exact raises hi (Instr.mayRaise_drw_iff.2 (Or.inl ⟨hrows, rfl⟩))
    · exact raises hi ⟨hx, rfl⟩
    · rcases hi with hi | hi <;> exact raises hi ⟨hx, rfl⟩
    · exact raises hi ⟨hsp, rfl⟩
    · exact raises hi ⟨hsp, rfl⟩
    · rcases hi with hi | hi <;> exact raises hi ⟨hx, rfl⟩
    · exact raises hi (Instr.mayRaise_drw_iff.2 (Or.inr ⟨hrows, px, py, hbit, hout, rfl⟩))

/-- Settles O59: every operation of the other instructions, and the rest of the cycle, does the same with another keypad. -/
theorem onlyKeyInstructionsReadTheKeypad : Obligations.OnlyKeyInstructionsReadTheKeypad := by
  intro s t keys hskp hsknp hldVK h
  obtain ⟨u, hu, hkeys⟩ := step_setKeys s keys hskp hsknp hldVK
  obtain rfl : u = t := by simpa [hu] using h
  exact hkeys

end Sys2Proof.Machine
end

section
/-! PROOFS. The statements about reset and the host (70_reset_and_hazards.md): what `create` and the ROM load leave, the fields a move
of the host touches, the output signals, and the invariant along a run with its host. -/

namespace Sys2Proof.Machine

open Sys2Proof.Claims

/-! ## The font `create` installs (R180, R240) -/

/-- Glyph 0 is the source's on every machine (D19). -/
theorem State.create_byteAt_glyph0 (s : State) (r : Nat) (hr : r < fontGlyph0.length) :
    s.create.byteAt (0x050 + r) = fontGlyph0[r] := by
  have hr5 : r < 5 := hr
  rw [s.create_byteAt_font r (by rw [fontTable_length]; omega)]
  exact List.getElem_append_left hr

/-- Glyphs 1 to F are the machine's FONT, behind the 5 bytes of glyph 0. -/
theorem State.create_byteAt_params_font (s : State) (i : Fin 75) : s.create.byteAt (0x055 + i.val) = s.params.font[i] := by
  have haddr : 0x055 + i.val = Config.fontBase + (fontGlyph0.length + i.val) := Nat.add_assoc 0x050 5 i.val
  have hi : fontGlyph0.length + i.val < (fontTable s.params).length := by
    rw [fontTable_length]
    exact Nat.add_lt_add_left i.isLt 5
  rw [haddr, s.create_byteAt_font _ hi]
  simp [fontTable]

/-! ## The host's writes (R244, R245) -/

theorem hostAct_loadRom_of_fits {rom : List Byte} (h : rom.length ≤ 3584) (s : State) :
    hostAct (.loadRom rom) s = .ok (s.stored 0x200 rom) := by
  rw [← State.loadBytes_eq_stored]
  exact if_neg (Nat.not_lt.2 h)

theorem hostAct_writeByte_of_ge {addr : BitVec 12} (h : 0x200 ≤ addr.toNat) (data : Byte) (s : State) :
    hostAct (.writeByte addr data) s = .ok (s.setByte addr.toNat data) :=
  if_neg (Nat.not_lt.2 h)

/-- What `random_byte` returns, as a quotient of the state it leaves (R130). -/
theorem rndByte_toNat (s : State) : (rndByte s).toNat = (nextRng s.rngState).toNat / 2 ^ 56 := by
  have hlt := (nextRng s.rngState).isLt
  have hbyte : rndByte s = (nextRng s.rngState).extractLsb' 56 8 := rfl
  rw [hbyte, topByte_eq, BitVec.toNat_ofNat]
  omega

/-! ## The output signals (R245) -/

/-- The signal `video` is row-major: bit r * 64 + c is pixel (c, r). -/
theorem outputs_video_getElem (s : State) {p : Pixel} {k : Fin 2048} (hk : k.val = p.2.val * 64 + p.1.val) :
    (outputs s).video[k] = s.vid.pixel p := by
  obtain ⟨c, r⟩ := p
  have hc : k.val % 64 = c.val := by simp only [hk]; omega
  have hr : k.val / 64 = r.val := by simp only [hk]; omega
  simp [outputs, hc, hr]

theorem outputs_fault_iff (s : State) : (outputs s).fault = true ↔ s.fault ≠ none :=
  Option.isSome_iff_ne_none

section Record
variable {s : State} {f : FaultRecord} (hf : s.fault = some f)
include hf

theorem outputs_faultPc : (outputs s).faultPc = f.fpc := by simp [outputs, hf]

theorem outputs_faultOp {w : Word} (hw : f.fop = some w) : (outputs s).faultOp = w := by simp [outputs, hf, hw]

theorem outputs_faultInfo : (outputs s).faultInfo = BitVec.ofNat 16 f.info := by simp [outputs, hf]

theorem outputs_faultCode : (outputs s).faultCode = f.code.number := by simp [outputs, hf]

end Record

/-! ## The invariant under the host's moves -/

/-- The state `create` leaves meets the invariant: its pc, stack and fault record are those of reset (R240). -/
theorem State.create_inv (s : State) : s.create.Inv := by
  have hreset : State.reset.Inv := resetMeetsTheInvariant
  refine ⟨s.create_mem_wf, ?_, ?_⟩
  · rw [s.create_eq]
    exact hreset.addresses
  · rw [s.create_eq]
    exact hreset.record

/-- A move of the host keeps the invariant: `create` begins anew, and no other move touches the pc, the stack or the fault record. -/
theorem hostAct_keeps_inv {a : HostAction} {s t : State} (h : s.Inv) (ha : hostAct a s = .ok t) : t.Inv := by
  by_cases hc : a = .create
  · subst hc
    exact Except.ok.inj ha ▸ s.create_inv
  · have hmem := hostAct_mem_wf a s t h.memory ha
    rw [hostAct_eq a s t hc ha]
    exact ⟨hmem, h.addresses, h.record⟩

/-! ## The statements -/

/-- Settles O53, by the laws of `create`: its frame, and its memory byte by byte. -/
theorem createResetsTheState : Obligations.CreateResetsTheState := fun s =>
  ⟨s.create, rfl, s.create_eq, s.create_mem_wf, s.create_byteAt_outside,
    List.ext_getElem rfl fun r _ hr => by
      rw [List.getElem_map, List.getElem_range]
      exact s.create_byteAt_glyph0 r hr,
    s.create_byteAt_params_font, s.create_of_defaultFont⟩

/-- Settles O54: the load is a store of the ROM's bytes from 0x200 up, inside memory when there are at most 3584. -/
theorem romLoadPlacesItsBytes : Obligations.RomLoadPlacesItsBytes := by
  refine fun rom s => ⟨fun hlen hwf => ?_, fun hlong => if_pos hlong⟩
  have hfits : 0x200 + rom.length ≤ 0x1000 := by omega
  exact ⟨s.stored 0x200 rom, hostAct_loadRom_of_fits hlen s, s.stored_byteAt rom 0x200 hwf hfits,
    s.stored_byteAt_outside rom 0x200, s.stored_wf rom 0x200 hwf hfits, s.stored_eq rom 0x200⟩

/-- Settles O55, move by move: the write port sets one byte, and the others are one field's update. -/
theorem hostMovesTouchOnlyTheirField : Obligations.HostMovesTouchOnlyTheirField := by
  refine fun s => ⟨fun addr data haddr hwf => ?_, fun _ _ hbelow => if_pos hbelow, fun _ => rfl, fun _ => rfl, ?_⟩
  · exact ⟨s.setByte addr.toNat data, hostAct_writeByte_of_ge haddr data s, s.setByte_byteAt_same addr.toNat data hwf,
      fun a => s.setByte_byteAt_ne addr.toNat a data, rfl⟩
  · exact ⟨s.setRng (nextRng s.rngState), rfl, rfl, nextRng_toNat s.rngState, rndByte_toNat s⟩

/-- Settles O56, signal by signal; a record's information fits its 16 bits, and the code's number is R221's. -/
theorem outputsReadTheState : Obligations.OutputsReadTheState := by
  refine fun s => ⟨fun p k => outputs_video_getElem s, bne_iff_ne, rfl, outputs_fault_iff s, fun f hf => ?_⟩
  refine ⟨outputs_faultPc hf, fun w => outputs_faultOp hf, fun hinfo => ?_, ?_⟩
  · rw [outputs_faultInfo hf, BitVec.toNat_ofNat]
    exact Nat.mod_eq_of_lt hinfo
  · rw [outputs_faultCode hf]
    cases f.code <;> rfl

/-- Settles O60: every move of the host and every step keep the invariant, so a run does. -/
theorem hostedRunKeepsTheInvariant : Obligations.HostedRunKeepsTheInvariant := by
  intro h s t hinv hr
  exact reaches_keeps (fun _ _ _ => hostAct_keeps_inv) stepKeepsTheInvariant h s t hinv hr

end Sys2Proof.Machine
end
